-- ==== Sys2Proof/Word.lean ====
section
/-! DEFINITION. The word types of CBCC: bytes, register words, bus offsets, blocks and keys
(spec/00_scope.md R5, R9; spec/20_memory.md R60). -/

namespace Sys2Proof

/-- A byte, an unsigned integer 0..255 (R9). -/
abbrev Byte := BitVec 8

/-- A control or status register, or a command word: 32 bits (R20, R90). -/
abbrev Word := BitVec 32

/-- A byte offset of the 22-bit offset space (R60). -/
abbrev Offset := BitVec 22

/-- A block: a byte sequence of length 16, ordered by index only (R9). -/
abbrev Block := Vector Byte 16

/-- The key register's content: a byte sequence of length 32 (R30). -/
abbrev Key := Vector Byte 32

/-- Sixteen bytes 0x00. -/
def zeroBlock : Block := Vector.replicate 16 0#8

/-- Thirty-two bytes 0x00. -/
def zeroKey : Key := Vector.replicate 32 0#8

end Sys2Proof
end

