-- ==== Sys2Proof/Syntax.lean ====
section
/-! DEFINITION. Syntax: the seven commands (spec/opcode_table.json, spec/30_encoding.md R94), the host's bus
accesses (spec/20_memory.md R60) and the host-script notation (spec/30_encoding.md R100, R102). -/

namespace Sys2Proof

/-- The command bit IVS (R90, R91): generate the IV, or use the IV register as supplied. -/
inductive IvSelect where
  /-- IVS = 0, the suffix `.G`: the IV is omitted and drawn. -/
  | generate
  /-- IVS = 1, the suffix `.S`: the IV register is used. -/
  | supplied
  deriving DecidableEq, Repr

/-- The commands, one constructor for each row of the opcode table (R94). Every operand but IVS is
implicit (R91, R97). -/
inductive Instr where
  | dkey
  | geniv
  | enc (ivs : IvSelect)
  | dec
  | enct (ivs : IvSelect)
  | dect
  | zero
  deriving DecidableEq, Repr

/-- The nine control and status registers (R20, R62). -/
inductive Csr where
  | id | config | ctrl | status | cmd | inLen | outLen | keyLen | seq
  deriving DecidableEq, Repr

/-- The four byte windows (R62, R64). -/
inductive Window where
  | key | iv | ibuf | obuf
  deriving DecidableEq, Repr

/-- One host bus access (R60): `HostRead(off, n)` or `HostWrite(off, n, v)`. Any size may be asked for; sizes
other than 1 and 4 get ERROR (R66). -/
inductive HostAccess where
  | read (off : Offset) (size : Nat)
  | write (off : Offset) (size : Nat) (value : Word)
  deriving DecidableEq, Repr

/-- A statement of the host-script notation (R100, R102). A read's expected value and `-> ERROR` are
the host's own bookkeeping and are no part of the bus accesses. -/
inductive Stmt where
  /-- `WR reg, v` -/
  | wr (r : Csr) (v : Word)
  /-- `RD reg` -/
  | rd (r : Csr)
  /-- `WRB win+i, bytes` -/
  | wrb (w : Window) (i : Nat) (bytes : List Byte)
  /-- `WRW win+i, v` -/
  | wrw (w : Window) (i : Nat) (v : Word)
  /-- `RDB win+i, n` -/
  | rdb (w : Window) (i n : Nat)
  /-- `CMD m` -/
  | cmd (i : Instr)
  /-- `WAIT`, when the read that shows DONE is preceded by `polls` reads that do not. -/
  | wait (polls : Nat)
  /-- `ACK` -/
  | ack
  /-- `LDIN bytes` -/
  | ldin (bytes : List Byte)
  /-- `LDKEY bytes32` -/
  | ldkey (key : Key)
  /-- `LDIV bytes16` -/
  | ldiv (iv : Block)
  /-- `MVOI`, when the reads of OUT_LEN and of the OBUF window return `out`. -/
  | mvoi (out : List Byte)
  /-- `ENCP pass, data`, with the polls of its two WAITs. -/
  | encp (pass data : List Byte) (polls₁ polls₂ : Nat)
  /-- `DECP pass, blob`, with the polls of its two WAITs. -/
  | decp (pass blob : List Byte) (polls₁ polls₂ : Nat)
  deriving DecidableEq, Repr

end Sys2Proof
end

