-- ==== Sys2Proof/Config.lean ====
section
/-! DEFINITION. What an instance fixes and what the spec leaves open (spec/00_scope.md R5, R6, R7, R8, R47). The
open parameters are opaque constants with no body: nothing can be proved of them but what R6 to R8 state. -/

namespace Sys2Proof

/-- The fixed parameters of R5. -/
def blockBytes : Nat := 16
/-- KEY_BYTES of R5. -/
def keyBytes : Nat := 32
/-- IV_BYTES of R5. -/
def ivBytes : Nat := 16
/-- DIGEST_BYTES of R5. -/
def digestBytes : Nat := 32
/-- MIN_BLOB_BYTES of R5: IV_BYTES + BLOCK_BYTES. -/
def minBlobBytes : Nat := 32

/-- The open parameters of R6 as one argument: the machine's operations take a `Cores`, so that they can also be
run on the test functions of spec/95_test_vectors.md section 2. -/
structure Cores where
  /-- `BC_ENC` (R6) -/
  bcEnc : Key → Block → Block
  /-- `BC_DEC` (R6) -/
  bcDec : Key → Block → Block
  /-- `HASH256` (R6, R8) -/
  hash256 : List Byte → Key
  /-- `IBUF_BYTES` (R6) -/
  ibufBytes : Nat

/-- `OBUF_BYTES = IBUF_BYTES + 32`, always (R6). -/
def Cores.obufBytes (c : Cores) : Nat := c.ibufBytes + 32

/-- What R6 and R7 let a model assume of the open parameters: the inverse law and the bounds on IBUF_BYTES. -/
structure Cores.Lawful (c : Cores) : Prop where
  dec_enc : ∀ k b, c.bcDec k (c.bcEnc k b) = b
  ibuf_aligned : c.ibufBytes % 16 = 0
  ibuf_ge : 48 ≤ c.ibufBytes
  ibuf_le : c.ibufBytes ≤ 1048544

/-- The block cipher (R6, R7): for each key a permutation of the blocks, nothing else being known. Free
(log entry 2, DEDUCED: R7 derives the two-sided inverse from the one-sided one). -/
opaque Config.cipher : Key → Equiv.Perm Block

/-- The hash (R6, R8): a function of the message. Free (log entry 3). -/
opaque Config.hash256 : List Byte → Key

/-- How many 16-byte units IBUF has beyond the smallest capacity: 0 .. 65531. Free (log entry 1). -/
opaque Config.ibufExtraBlocks : Fin 65532

/-- The entropy source's answers once the schedule of the outside is exhausted, by the number of the request (R118).
Free: no law (log entry 4). -/
opaque Config.entDraw : Nat → Block

/-- `IBUF_BYTES` (R6): a multiple of 16 with 48 <= IBUF_BYTES <= 0xFFFE0, every such value being possible. -/
def Config.ibufBytes : Nat := Config.ibufExtraBlocks.val * 16 + 48

/-- The open parameters of this instance. -/
def Config.cores : Cores where
  bcEnc k b := Config.cipher k b
  bcDec k c := (Config.cipher k).symm c
  hash256 := Config.hash256
  ibufBytes := Config.ibufBytes

end Sys2Proof
end

