-- ==== Sys2Proof/WellFormed.lean ====
section
/-! DEFINITION. Well-formedness of the syntax. A command has no ill-formed term: its one operand field, IVS, is a
1-bit flag (spec/30_encoding.md R90, R91). A bus access and a script statement have checks
(spec/20_memory.md R60, R64; spec/30_encoding.md R100, R102); the checks of a statement are the model's choice (log entry 15). -/

namespace Sys2Proof

/-- Every term of `Instr` is well formed: IVS takes both its values and there is no other operand (R91). -/
def Instr.wellFormed : Instr → Bool
  | .dkey | .geniv | .enc _ | .dec | .enct _ | .dect | .zero => true

/-- `HostWrite(off, n, v)` carries an n-byte value (R60). -/
def HostAccess.wellFormed : HostAccess → Bool
  | .read _ _ => true
  | .write _ size value => decide (value.toNat < 256 ^ size)

/-- The bytes of a window that exist (R62); `cap` is IBUF_BYTES. -/
def Window.size (cap : Nat) : Window → Nat
  | .key => 32
  | .iv => 16
  | .ibuf => cap
  | .obuf => cap + 32

/-- A script statement fits the map of an instance whose IBUF_BYTES is `cap`: registers that take a write,
window bytes that exist, aligned words (R62, R64, R68, R100, R102). DESIGN CHOICE (log entry 15): the spec gives no such test of
statements but R100's "i multiple of 4" of WRW, and allows a statement marked `-> ERROR` to get ERROR. This test decides nothing about the
machine: `stmtAccesses` and the bus are total, and an access that does not fit gets the response that R82 and R83 give it. -/
def Stmt.wellFormed (cap : Nat) : Stmt → Bool
  | .wr r _ => r == .ctrl || r == .status || r == .cmd || r == .inLen || r == .keyLen
  | .rd _ => true
  | .wrb w i bytes => w != .obuf && decide (i + bytes.length ≤ w.size cap)
  | .wrw w i _ => w != .obuf && decide (i % 4 = 0) && decide (i + 4 ≤ w.size cap)
  | .rdb w i n => decide (i + n ≤ w.size cap)
  | .cmd i => i.wellFormed
  | .wait _ | .ack | .ldkey _ | .ldiv _ => true
  | .ldin bytes => decide (bytes.length ≤ cap)
  | .mvoi out => decide (out.length ≤ cap)
  | .encp pass data _ _ => decide (pass.length ≤ cap) && decide (data.length ≤ cap)
  | .decp pass blob _ _ => decide (pass.length ≤ cap) && decide (blob.length ≤ cap)

end Sys2Proof
end

