-- ==== Sys2Proof/Decode.lean ====
section
/-! DEFINITION. The command word: decoder and encoder (spec/30_encoding.md R90 to R96, R99). One length, 32 bits; four
bytes in little-endian order (spec/20_memory.md R65; R90). -/

namespace Sys2Proof

/-- Why a word is no command (R95). All three fail alike, with IllegalCommand. -/
inductive DecodeError where
  /-- A bit of RSV is set (R92). -/
  | reservedBits
  /-- The opcode is 0x00 or 0x08..0xFF (R95). -/
  | unknownOpcode
  /-- IVS = 1 in a command other than ENC and ENCT (R90, R95). -/
  | ivsNotAllowed
  /-- Fewer bytes than a command word has; no bus access presents this (R90, R98). -/
  | truncated
  deriving DecidableEq, Repr

/-- Field OP of a command word (R90). -/
def opField (w : Word) : BitVec 8 := w.extractLsb' 0 8

/-- Field IVS of a command word (R90). -/
def ivsField (w : Word) : BitVec 1 := w.extractLsb' 8 1

/-- Field RSV of a command word (R90). -/
def rsvField (w : Word) : BitVec 23 := w.extractLsb' 9 23

/-- IVS as used by ENC and ENCT (R90). -/
def ivSelectOf (b : BitVec 1) : IvSelect := if b = 1#1 then .supplied else .generate

/-- The bit of an IV selection (R90). -/
def IvSelect.bit : IvSelect → BitVec 1
  | .generate => 0#1
  | .supplied => 1#1

/-- The commands that take no IVS bit, by opcode (R99). -/
def plainCommand (op : BitVec 8) : Option Instr :=
  if op = 0x01#8 then some .dkey
  else if op = 0x02#8 then some .geniv
  else if op = 0x04#8 then some .dec
  else if op = 0x06#8 then some .dect
  else if op = 0x07#8 then some .zero
  else none

/-- `Decode` of R99, total on all 32-bit words; an illegal word is rejected with its reason. -/
def decode (w : Word) : Except DecodeError Instr :=
  if rsvField w ≠ 0#23 then .error .reservedBits
  else if opField w = 0x03#8 then .ok (.enc (ivSelectOf (ivsField w)))
  else if opField w = 0x05#8 then .ok (.enct (ivSelectOf (ivsField w)))
  else match plainCommand (opField w) with
    | none => .error .unknownOpcode
    | some i => if ivsField w = 1#1 then .error .ivsNotAllowed else .ok i

/-- `Decode` as R99 writes it: the command, or Illegal. -/
def decodeCommand (w : Word) : Option Instr := (decode w).toOption

/-- Byte `k` of a 32-bit value: bits [8k+7:8k] (R65). -/
def byteOf (w : Word) (k : Nat) : Byte := w.extractLsb' (8 * k) 8

/-- The value that bytes carry, index 0 least significant (R65). -/
def leValue : List Byte → Nat
  | [] => 0
  | b :: bs => b.toNat + 256 * leValue bs

/-- A 32-bit value as the bus carries it, lowest offset first (R65). -/
def wordBytes (w : Word) : List Byte := [byteOf w 0, byteOf w 1, byteOf w 2, byteOf w 3]

/-- The decoder on bytes as they stand on the bus from the lowest offset: one command word and the bytes after
it (R90, R65). -/
def decodeBytes : List Byte → Except DecodeError (Instr × List Byte)
  | b0 :: b1 :: b2 :: b3 :: rest =>
    match decode (BitVec.ofNat 32 (leValue [b0, b1, b2, b3])) with
    | .ok i => .ok (i, rest)
    | .error e => .error e
  | _ => .error .truncated

/-- The opcode of a command (R94). -/
def Instr.opcode : Instr → BitVec 8
  | .dkey => 0x01#8
  | .geniv => 0x02#8
  | .enc _ => 0x03#8
  | .dec => 0x04#8
  | .enct _ => 0x05#8
  | .dect => 0x06#8
  | .zero => 0x07#8

/-- The IVS bit of a command: 0 where the command has none (R90). -/
def Instr.ivsBit : Instr → BitVec 1
  | .enc ivs | .enct ivs => ivs.bit
  | .dkey | .geniv | .dec | .dect | .zero => 0#1

/-- The word of a command: RSV, IVS, OP from the most significant bit down (R90, R94). -/
def encode (i : Instr) : Word := 0#23 ++ i.ivsBit ++ i.opcode

/-- The bytes of a command word from the lowest offset (R65, R90). -/
def encodeBytes (i : Instr) : List Byte := wordBytes (encode i)

/-- The command the decoder reads from the table's numbering of a row's bits: `nbits` bits of `w`, all higher bits
zero, laid out as four bytes. `none` where the decoder refuses. -/
def decodeTableWord (nbits w : Nat) : Option Instr :=
  let v := w % 2 ^ nbits
  if v < 2 ^ 32 then
    match decodeBytes (wordBytes (BitVec.ofNat 32 v)) with
    | .ok (i, _) => some i
    | .error _ => none
  else none

end Sys2Proof
end

