-- ==== Sys2Proof/Machine/State.lean ====
section
/-! DEFINITION. The state of CBCC as plain data (spec/10_state.md R20 to R38), its reset value (R45), and the reasons a
step of the model can stop. -/

namespace Sys2Proof.Machine

/-- A store of bytes by index: the bytes that are not 0x00, indices strictly rising. An unlisted index reads 0x00,
the reset content of R45. -/
abbrev Memory := List Host.Cell

/-- The sequencer's phases (R29). Codes 9..15 are never taken and have no name. -/
inductive Phase where
  | idle | check | ivgen | kdf | eblk | dblk | unpad | text | wipe
  deriving DecidableEq, Repr

/-- The error kinds (spec/60_exceptions.md R220). -/
inductive ErrorKind where
  | invalidKeyLength | malformedInput | invalidPadding | invalidEncoding | illegalCommand | lengthRange
  deriving DecidableEq, Repr

/-- The response to a host access (spec/20_memory.md R61); a read that is OKAY carries its value. -/
inductive Response where
  | readOkay (value : Word)
  | writeOkay
  | error
  deriving DecidableEq, Repr

/-- What the outside can do next (spec/40_sequencer.md R110; log entry 5). -/
inductive Event where
  /-- The host makes one bus access (R110 (a)). -/
  | access (a : HostAccess)
  /-- The sequencer takes its step, if one is enabled (R110 (b)). -/
  | sequencer
  /-- ENT answers its request number `req` with these sixteen bytes (R118; log entry 13). -/
  | entropy (req : Nat) (r : Block)
  /-- `rst` is asserted and released (R110 (c), R260). -/
  | reset
  deriving DecidableEq, Repr

/-- The state. The first group is the spec's, R20; the last four fields are the model's own (log entries 4, 5, 6, 13). -/
structure State where
  /-- CTRL.IE (R23) -/
  ie : Bool
  /-- STATUS.BUSY (R24) -/
  busy : Bool
  /-- STATUS.DONE (R24) -/
  done : Bool
  /-- STATUS.ERR (R24) -/
  err : BitVec 3
  /-- CMDREG, read through CMD (R25) -/
  cmdReg : Word
  /-- IN_LEN (R26) -/
  inLen : Word
  /-- OUT_LEN (R27) -/
  outLen : Word
  /-- KEY_LEN[7:0] (R28) -/
  keyLen : BitVec 8
  /-- SEQ.PHASE (R29) -/
  phase : Phase
  /-- SEQ.BI (R29) -/
  bi : BitVec 24
  /-- KEY (R30) -/
  key : Key
  /-- IV (R31) -/
  iv : Block
  /-- IBUF (R32) -/
  ibuf : Memory
  /-- OBUFS, the store behind the OBUF window (R33) -/
  obufs : Memory
  /-- CV (R34) -/
  cv : Block
  /-- LASTP (R35) -/
  lastp : Block
  /-- NB (R36) -/
  nb : BitVec 21
  /-- PLEN (R37) -/
  plen : BitVec 21
  /-- Model's own: ENT's answer to the outstanding request, if it has answered (R42, R118). -/
  entPort : Option Block
  /-- Model's own: the number of the outstanding ENT request, or of the next one where none is outstanding (R118, R262). -/
  entReq : Nat
  /-- Model's own: the response to the host's last access (R61). -/
  busResp : Option Response
  /-- Model's own: what the outside does next, first event first; empty when it does nothing more. -/
  env : List Event
  deriving DecidableEq, Repr

/-- The reset state (R45, R261): every register, buffer and hidden register zero, phase IDLE. -/
def State.reset : State where
  ie := false
  busy := false
  done := false
  err := 0#3
  cmdReg := 0#32
  inLen := 0#32
  outLen := 0#32
  keyLen := 0#8
  phase := .idle
  bi := 0#24
  key := zeroKey
  iv := zeroBlock
  ibuf := []
  obufs := []
  cv := zeroBlock
  lastp := zeroBlock
  nb := 0#21
  plen := 0#21
  entPort := none
  entReq := 0
  busResp := none
  env := []

/-- The model's faults: sequencer accesses outside what spec/20_memory.md R73 requires. R73 shows that none can
arise; no state that meets the invariant of Safety.lean raises one. -/
inductive Fault where
  /-- Raised by MemRead of IBUF, or the TEXT read of OBUFS, outside the operand or the store. Safe: the model stops where R73
  gives no effect, and no reachable state comes here (log entry 9). -/
  | readRange
  /-- Raised by MemWrite of OBUFS beyond OBUF_BYTES. Safe: as `readRange` (log entry 9). -/
  | writeRange
  deriving DecidableEq, Repr

/-- The model's refusals. -/
inductive Refusal where
  /-- Raised by an arm of `exec` for an instruction without a meaning, by its mnemonic. No arm raises it: every command has
  its meaning. Safe. -/
  | notModelled (mnemonic : String)
  deriving DecidableEq, Repr

/-- What a step answers. -/
abbrev Result := Host.Outcome State Fault Refusal

end Sys2Proof.Machine
end

