-- ==== Sys2Proof/Machine/Ops.lean ====
section
/-! DEFINITION. The named operations on the stores and the state that every command shares: bytes of a store, acceptance,
the two ends of a command (Complete, Fail: spec/40_sequencer.md R111, R114, R115), the host's acknowledgement, reset and
ENT's answer. -/

namespace Sys2Proof.Machine

/-! ### Stores -/

/-- One byte of a store (R32, R33): an unlisted index reads 0x00. -/
def Memory.read : Memory → Nat → Byte
  | [], _ => 0#8
  | (a, b) :: m, i => if a = i then b else Memory.read m i

/-- Write one byte; writing 0x00 leaves the index unlisted. -/
def Memory.write : Memory → Nat → Byte → Memory
  | [], i, v => if v = 0#8 then [] else [(i, v)]
  | (a, b) :: m, i, v =>
    if i < a then (if v = 0#8 then (a, b) :: m else (i, v) :: (a, b) :: m)
    else if i = a then (if v = 0#8 then m else (i, v) :: m)
    else (a, b) :: Memory.write m i v

/-- Write a byte sequence from index `i` upward. -/
def Memory.writeBytes : Memory → Nat → List Byte → Memory
  | m, _, [] => m
  | m, i, v :: vs => Memory.writeBytes (Memory.write m i v) (i + 1) vs

/-- The `n` bytes from index `i` upward: `X[i .. i+n)`. -/
def Memory.slice (m : Memory) (i n : Nat) : List Byte :=
  (List.range n).map fun k => Memory.read m (i + k)

/-- Every listed index is at least `lo`, indices rise strictly, no listed byte is 0x00. -/
def Memory.wfFrom : Nat → Memory → Bool
  | _, [] => true
  | lo, (a, b) :: m => decide (lo ≤ a) && b != 0#8 && Memory.wfFrom (a + 1) m

/-- The canonical form of a store. -/
def Memory.wf (m : Memory) : Bool := Memory.wfFrom 0 m

/-- Every listed index is below `cap`. -/
def Memory.below (cap : Nat) (m : Memory) : Bool := m.all fun cell => decide (cell.1 < cap)

/-! ### Blocks and keys -/

/-- The block whose byte `j` is `f j`. -/
def blockOf (f : Nat → Byte) : Block := Vector.ofFn fun j => f j.val

/-- `Xor16` (R9). -/
def xor16 (a b : Block) : Block := Vector.ofFn fun j => a[j] ^^^ b[j]

/-- Byte `i` of a fixed-length byte sequence. -/
def byteAt {n : Nat} (v : Vector Byte n) (i : Nat) : Byte := v.getD i 0#8

/-- Set the bytes from index `i` upward of a fixed-length byte sequence; bytes beyond its end do not exist. -/
def setBytes {n : Nat} : Vector Byte n → Nat → List Byte → Vector Byte n
  | v, _, [] => v
  | v, i, b :: bs => setBytes (v.setIfInBounds i b) (i + 1) bs

/-! ### Acceptance and the two ends of a command -/

/-- The code of an error kind in STATUS.ERR (R220). -/
def ErrorKind.code : ErrorKind → BitVec 3
  | .invalidKeyLength => 1#3
  | .malformedInput => 2#3
  | .invalidPadding => 3#3
  | .invalidEncoding => 4#3
  | .illegalCommand => 5#3
  | .lengthRange => 6#3

/-- Acceptance of the command word `w` (R111). -/
def State.accept (w : Word) (s : State) : State :=
  { s with
    cmdReg := w
    busy := true
    done := false
    err := 0#3
    outLen := 0#32
    phase := .check
    bi := 0#24 }

/-- What `Complete` and `Fail` share (R114, R115): the sequencer returns to (IDLE, 0), the hidden registers are
cleared, BUSY falls and DONE rises. -/
def State.finish (len : Word) (code : BitVec 3) (s : State) : State :=
  { s with
    outLen := len
    err := code
    busy := false
    done := true
    phase := .idle
    bi := 0#24
    cv := zeroBlock
    lastp := zeroBlock
    nb := 0#21
    plen := 0#21 }

/-- `Complete(n)` (R114). -/
def State.complete (n : Nat) (s : State) : State := s.finish (BitVec.ofNat 32 n) 0#3

/-- `raise Fail(kind)` (R115, R229): taking a failure, the one operation every error kind uses. -/
def State.fail (k : ErrorKind) (s : State) : State := s.finish 0#32 k.code

/-- The host's acknowledgement of a command's end (R231), the effect of writing STATUS with bit 1 set (R24): DONE
falls; ERR and OUT_LEN keep their values. -/
def State.ackDone (s : State) : State := { s with done := false }

/-! ### The outside -/

/-- The sequencer has asked ENT and ENT has not answered (R118). -/
def State.awaitsEntropy (s : State) : Bool := s.busy && s.phase == .ivgen && s.entPort.isNone

/-- The number of the next ENT request once the outstanding one, if there is one, is over: answered or dropped. -/
def State.nextReq (s : State) : Nat := if s.awaitsEntropy then s.entReq + 1 else s.entReq

/-- ENT answers its request `req` with `r`: the answer stands at the port if that request is the outstanding one. Any other
answer, a late one to a request that reset dropped among them, is ignored (R42, R118, R262; log entry 13). -/
def State.entropyAnswer (req : Nat) (r : Block) (s : State) : State :=
  if s.awaitsEntropy ∧ req = s.entReq then { s with entPort := some r, entReq := s.nextReq } else s

/-- `rst` asserted and released (R44, R260, R262): every piece of CBCC's state has its reset value, an outstanding ENT request is
dropped, so that its number is never outstanding again. What the outside does next, and the number of the next request, is not
CBCC's state (R45, log entry 11). -/
def State.applyReset (s : State) : State :=
  { State.reset with env := s.env, entReq := s.nextReq }

end Sys2Proof.Machine
end

