-- ==== Sys2Proof/Machine/Flags.lean ====
section
/-! DEFINITION. The control and status registers as the host reads them, and the interrupt line
(spec/10_state.md R21 to R29, R43). Reserved bits read zero. -/

namespace Sys2Proof.Machine

/-- ID (R21). -/
def idWord : Word := 0x43424331#32

/-- CONFIG (R22): [20:0] = IBUF_BYTES, [31:21] = 0. -/
def configWord (c : Cores) : Word := 0#11 ++ BitVec.ofNat 21 c.ibufBytes

/-- CTRL (R23): bit 0 = IE. -/
def ctrlWord (s : State) : Word := 0#31 ++ BitVec.ofBool s.ie

/-- STATUS (R24): bit 0 = BUSY, bit 1 = DONE, bits 6:4 = ERR. -/
def statusWord (s : State) : Word :=
  0#25 ++ s.err ++ 0#2 ++ BitVec.ofBool s.done ++ BitVec.ofBool s.busy

/-- KEY_LEN (R28). -/
def keyLenWord (s : State) : Word := 0#24 ++ s.keyLen

/-- The code of a phase in SEQ[3:0] (R29). -/
def Phase.code : Phase → BitVec 4
  | .idle => 0#4
  | .check => 1#4
  | .ivgen => 2#4
  | .kdf => 3#4
  | .eblk => 4#4
  | .dblk => 5#4
  | .unpad => 6#4
  | .text => 7#4
  | .wipe => 8#4

/-- SEQ (R29): [3:0] = PHASE, [7:4] = 0, [31:8] = BI. -/
def seqWord (s : State) : Word := s.bi ++ 0#4 ++ s.phase.code

/-- The value of a register as a host read returns it (R82). -/
def csrWord (c : Cores) (s : State) : Csr → Word
  | .id => idWord
  | .config => configWord c
  | .ctrl => ctrlWord s
  | .status => statusWord s
  | .cmd => s.cmdReg
  | .inLen => s.inLen
  | .outLen => s.outLen
  | .keyLen => keyLenWord s
  | .seq => seqWord s

/-- The interrupt line (R43, R234): DONE and IE, at all times. -/
def irq (s : State) : Bool := s.done && s.ie

end Sys2Proof.Machine
end

