-- ==== Sys2Proof/Machine/Bus.lean ====
section
/-! DEFINITION. The host bus (spec/20_memory.md R60 to R72, R80, R82, R83): the address map, `HostRead` and
`HostWrite`. -/

namespace Sys2Proof.Machine

/-- What stands at a mapped offset (R62). -/
inductive Location where
  | csr (r : Csr)
  | window (w : Window)
  deriving DecidableEq, Repr

/-- A row of the address map (R62). -/
structure MapRow where
  base : Nat
  size : Nat
  what : Location
  deriving DecidableEq, Repr

/-- The mapped rows of R62; everything else is unmapped. -/
def memoryMap (c : Cores) : List MapRow :=
  [ ⟨0x000000, 4, .csr .id⟩,
    ⟨0x000004, 4, .csr .config⟩,
    ⟨0x000008, 4, .csr .ctrl⟩,
    ⟨0x00000C, 4, .csr .status⟩,
    ⟨0x000010, 4, .csr .cmd⟩,
    ⟨0x000014, 4, .csr .inLen⟩,
    ⟨0x000018, 4, .csr .outLen⟩,
    ⟨0x00001C, 4, .csr .keyLen⟩,
    ⟨0x000020, 4, .csr .seq⟩,
    ⟨0x000040, 32, .window .key⟩,
    ⟨0x000060, 16, .window .iv⟩,
    ⟨0x100000, c.ibufBytes, .window .ibuf⟩,
    ⟨0x200000, c.obufBytes, .window .obuf⟩ ]

/-- Does the row hold the bytes `off .. off+n-1` entirely? -/
def MapRow.holds (row : MapRow) (off n : Nat) : Bool :=
  decide (row.base ≤ off) && decide (off + n ≤ row.base + row.size)

/-- The region that contains the bytes `off .. off+n-1` entirely, and the index of the first in it (R82). -/
def locate (c : Cores) (off n : Nat) : Option (Location × Nat) :=
  ((memoryMap c).find? fun row => row.holds off n).map fun row => (row.what, off - row.base)

/-- Byte `i` of a window as the host reads it; OBUF is masked by OUT_LEN (R33, R80). -/
def windowByte (s : State) (w : Window) (i : Nat) : Byte :=
  match w with
  | .key => byteAt s.key i
  | .iv => byteAt s.iv i
  | .ibuf => Memory.read s.ibuf i
  | .obuf => if i < s.outLen.toNat then Memory.read s.obufs i else 0#8

/-- The bytes a window read of size `n` returns, index 0 in the low lane (R64, R65). -/
def windowBytes (s : State) (w : Window) (i n : Nat) : List Byte :=
  (List.range n).map fun k => windowByte s w (i + k)

/-- The sizes and alignments that an access may have at all (R66). -/
def accessShapeOk (off n : Nat) : Bool := n == 1 || (n == 4 && off % 4 == 0)

/-- `HostRead(off, n)` (R82). A read has no effect on the state (R70). -/
def hostRead (c : Cores) (s : State) (off n : Nat) : Response :=
  if accessShapeOk off n then
    match locate c off n with
    | none => .error
    | some (.csr r, _) => if n = 4 then .readOkay (csrWord c s r) else .error
    | some (.window w, i) =>
      if s.busy then .error else .readOkay (BitVec.ofNat 32 (leValue (windowBytes s w i n)))
  else .error

/-- The effect of an OKAY write of a register, or none where the write gets ERROR (R68, R69, R71, R83). -/
def writeCsr (s : State) (r : Csr) (v : Word) : Option State :=
  match r with
  | .id | .config | .outLen | .seq => none
  | .ctrl => some { s with ie := v.getLsbD 0 }
  | .status => some (if v.getLsbD 1 then s.ackDone else s)
  | .cmd => if s.busy then none else some (s.accept v)
  | .inLen => if s.busy then none else some { s with inLen := v }
  | .keyLen => if s.busy then none else some { s with keyLen := v.extractLsb' 0 8 }

/-- The effect of an OKAY write of window bytes, or none where the write gets ERROR (R68, R69, R83). -/
def writeWindow (s : State) (w : Window) (i : Nat) (bytes : List Byte) : Option State :=
  if s.busy then none
  else match w with
    | .key => some { s with key := setBytes s.key i bytes }
    | .iv => some { s with iv := setBytes s.iv i bytes }
    | .ibuf => some { s with ibuf := Memory.writeBytes s.ibuf i bytes }
    | .obuf => none

/-- The effect of `HostWrite(off, n, v)` (R83): the state after an OKAY, or none for ERROR. -/
def hostWrite (c : Cores) (s : State) (off n : Nat) (v : Word) : Option State :=
  if accessShapeOk off n then
    match locate c off n with
    | none => none
    | some (.csr r, _) => if n = 4 then writeCsr s r v else none
    | some (.window w, i) => writeWindow s w i ((wordBytes v).take n)
  else none

/-- One host access: its effect, and its response on the bus (R61). An ERROR changes nothing of CBCC. -/
def hostAccess (c : Cores) (a : HostAccess) (s : State) : State :=
  match a with
  | .read off n => { s with busResp := some (hostRead c s off.toNat n) }
  | .write off n v =>
    match hostWrite c s off.toNat n v with
    | some s' => { s' with busResp := some .writeOkay }
    | none => { s with busResp := some .error }

end Sys2Proof.Machine
end

