-- ==== Sys2Proof/Machine/DataPath.lean ====
section
/-! DEFINITION. The pure functions of the data path (spec/00_scope.md R10 to R19): padding, chaining, unpadding, UTF-8
validity, the container. They are what the sequencer's steps add up to (spec/40_sequencer.md R124). -/

namespace Sys2Proof.Machine

/-- The pad value `p = 16 - (n mod 16)` for a message of length `n` (R10): 1..16. -/
def padLength (n : Nat) : Nat := 16 - n % 16

/-- The pad byte for a message of length `n` (R10). -/
def padByte (n : Nat) : Byte := BitVec.ofNat 8 (padLength n)

/-- `Pad(m)` (R10). -/
def pad (m : List Byte) : List Byte := m ++ List.replicate (padLength m.length) (padByte m.length)

/-- `NBenc(n)`, the number of blocks of a padded message (R10). -/
def encBlocks (n : Nat) : Nat := n / 16 + 1

/-- `PadBlock(m, i)` (R11). -/
def padBlock (m : List Byte) (i : Nat) : Block :=
  blockOf fun j => if 16 * i + j < m.length then m.getD (16 * i + j) 0#8 else padByte m.length

/-- Block `i` of a byte sequence: `x[16i .. 16i+16)` (R12). -/
def blockAt (x : List Byte) (i : Nat) : Block := blockOf fun j => x.getD (16 * i + j) 0#8

/-- The whole blocks of a byte sequence, in order (R12, R13). -/
def splitBlocks (x : List Byte) : List Block := (List.range (x.length / 16)).map (blockAt x)

/-- The bytes of a list of blocks, in order. -/
def joinBlocks (bs : List Block) : List Byte := bs.flatMap Vector.toList

/-- The chained encipherment of R12: each block is XORed with the previous ciphertext block, the first with the
chaining value it starts from. -/
def cbcEncryptBlocks (enc : Block → Block) : Block → List Block → List Block
  | _, [] => []
  | prev, x :: xs => let c := enc (xor16 x prev); c :: cbcEncryptBlocks enc c xs

/-- The chained decipherment of R13. -/
def cbcDecryptBlocks (dec : Block → Block) : Block → List Block → List Block
  | _, [] => []
  | prev, c :: cs => xor16 (dec c) prev :: cbcDecryptBlocks dec c cs

/-- `CbcEncrypt(k, iv, x)` (R12). -/
def cbcEncrypt (c : Cores) (k : Key) (iv : Block) (x : List Byte) : List Byte :=
  joinBlocks (cbcEncryptBlocks (c.bcEnc k) iv (splitBlocks x))

/-- `CbcDecrypt(k, iv, c)` (R13). -/
def cbcDecrypt (c : Cores) (k : Key) (iv : Block) (x : List Byte) : List Byte :=
  joinBlocks (cbcDecryptBlocks (c.bcDec k) iv (splitBlocks x))

/-- The padding test on the last bytes of a padded sequence (R14, R183): the pad value `p` when `1 <= p <= 16` and the last
`p` bytes all equal `p`. -/
def padOf (x : List Byte) : Option Nat :=
  let last := x.getD (x.length - 1) 0#8
  let p := last.toNat
  if p = 0 then none
  else if p > 16 then none
  else if (List.range p).any fun k => x.getD (x.length - 1 - k) 0#8 != last then none
  else some p

/-- `Unpad(x)` (R14). -/
def unpad (x : List Byte) : Except ErrorKind (List Byte) :=
  match padOf x with
  | none => .error .invalidPadding
  | some p => .ok (x.take (x.length - p))

/-- `BlobLen(n)` (R16). -/
def blobLen (n : Nat) : Nat := 16 + 16 * (n / 16 + 1)

/-- `EncFn(k, iv, m)` (R16): the container. -/
def encFn (c : Cores) (k : Key) (iv : Block) (m : List Byte) : List Byte :=
  iv.toList ++ cbcEncrypt c k iv (pad m)

/-- `DecFn(k, blob)` (R17). -/
def decFn (c : Cores) (k : Key) (blob : List Byte) : Except ErrorKind (List Byte) :=
  if blob.length < 32 ∨ (blob.length - 16) % 16 ≠ 0 then .error .malformedInput
  else unpad (cbcDecrypt c k (blockAt blob 0) (blob.drop 16))

/-- `DeriveKey(s) = HASH256(s)` (R19). -/
def deriveKey (c : Cores) (s : List Byte) : Key := c.hash256 s

/-! ### UTF-8 (R15) -/

/-- A row of R15's table: the inclusive range of each byte of the encoding of one code point. -/
abbrev Utf8Row := List (Nat × Nat)

/-- The table of R15. -/
def utf8Table : List Utf8Row :=
  [ [(0x00, 0x7F)],
    [(0xC2, 0xDF), (0x80, 0xBF)],
    [(0xE0, 0xE0), (0xA0, 0xBF), (0x80, 0xBF)],
    [(0xE1, 0xEC), (0x80, 0xBF), (0x80, 0xBF)],
    [(0xED, 0xED), (0x80, 0x9F), (0x80, 0xBF)],
    [(0xEE, 0xEF), (0x80, 0xBF), (0x80, 0xBF)],
    [(0xF0, 0xF0), (0x90, 0xBF), (0x80, 0xBF), (0x80, 0xBF)],
    [(0xF1, 0xF3), (0x80, 0xBF), (0x80, 0xBF), (0x80, 0xBF)],
    [(0xF4, 0xF4), (0x80, 0x8F), (0x80, 0xBF), (0x80, 0xBF)] ]

/-- The bytes fill the row exactly. -/
def fitsRow : Utf8Row → List Byte → Bool
  | [], [] => true
  | (lo, hi) :: row, b :: bs => decide (lo ≤ b.toNat) && decide (b.toNat ≤ hi) && fitsRow row bs
  | _, _ => false

/-- One well-formed encoded code point (R15). -/
def utf8Char (bs : List Byte) : Bool := utf8Table.any fun row => fitsRow row bs

/-- `Utf8Valid(t)` (R15), read from the front: the first one to four bytes are an encoded code point and what follows
is valid. The ranges of the first byte fix the length, so no two of the branches can hold together. -/
def utf8Valid : List Byte → Bool
  | [] => true
  | a :: t =>
    (utf8Char [a] && utf8Valid t) ||
    match t with
    | [] => false
    | b :: t =>
      (utf8Char [a, b] && utf8Valid t) ||
      match t with
      | [] => false
      | c :: t =>
        (utf8Char [a, b, c] && utf8Valid t) ||
        match t with
        | [] => false
        | d :: t => utf8Char [a, b, c, d] && utf8Valid t

end Sys2Proof.Machine
end

