-- ==== Sys2Proof/Machine/Operands.lean ====
section
/-! DEFINITION. How a command gets its operands and stores its result (spec/20_memory.md R73), and the boundary checks
of phase CHECK (spec/40_sequencer.md R112). -/

namespace Sys2Proof.Machine

/-- `MemRead(IBUF, i, n)` (R73): requires `i + n <= IN_LEN <= IBUF_BYTES`. -/
def readIbuf (c : Cores) (s : State) (i n : Nat) : Option (List Byte) :=
  if i + n ≤ s.inLen.toNat ∧ s.inLen.toNat ≤ c.ibufBytes then some (Memory.slice s.ibuf i n) else none

/-- `MemWrite(OBUF, i, n, v)` (R73): requires `i + n <= OBUF_BYTES`. -/
def writeObuf (c : Cores) (i : Nat) (v : List Byte) (s : State) : Option State :=
  if i + v.length ≤ c.obufBytes then some { s with obufs := Memory.writeBytes s.obufs i v } else none

/-- The read of `OBUFS[0 .. PLEN)` (R73, phase TEXT). -/
def readObufs (c : Cores) (s : State) : Option (List Byte) :=
  if s.plen.toNat ≤ c.obufBytes then some (Memory.slice s.obufs 0 s.plen.toNat) else none

/-- The block that sixteen bytes make. -/
def blockOfBytes (bs : List Byte) : Block := blockOf fun j => bs.getD j 0#8

/-- The plaintext bytes of block BI (R73, EBLK): up to sixteen, fewer in the last block; no read is made where
none is left. -/
def plainBytes (c : Cores) (s : State) : Option (List Byte) :=
  let lo := 16 * s.bi.toNat
  if lo < s.inLen.toNat then readIbuf c s lo (min 16 (s.inLen.toNat - lo)) else some []

/-- The padded plaintext block BI (R163, R11): the plaintext bytes, then the pad value in every position they leave. -/
def plainBlock (c : Cores) (s : State) : Option Block :=
  (plainBytes c s).map fun m => blockOf fun j => m.getD j (padByte s.inLen.toNat)

/-- Ciphertext block BI of the container (R182). -/
def cipherBlock (c : Cores) (s : State) : Option Block :=
  (readIbuf c s (16 + 16 * s.bi.toNat) 16).map blockOfBytes

/-! ### The checks of R112 -/

/-- A boundary check: the error kind it raises, if it fails. -/
abbrev Check := State → Option ErrorKind

/-- Check 2: IN_LEN beyond the buffer (R226). -/
def lengthCheck (c : Cores) : Check := fun s =>
  if s.inLen.toNat > c.ibufBytes then some .lengthRange else none

/-- Check 3: a declared key length other than 32 (R221). -/
def keyCheck : Check := fun s => if s.keyLen ≠ 32#8 then some .invalidKeyLength else none

/-- Check 4: a container too short or not block aligned (R222). -/
def containerCheck : Check := fun s =>
  if s.inLen.toNat < 32 ∨ (s.inLen.toNat - 16) % 16 ≠ 0 then some .malformedInput else none

/-- Make checks in order; the first that fails ends the command, else go on (R112). -/
def checked : List Check → (State → Result) → State → Result
  | [], k, s => k s
  | ch :: chs, k, s =>
    match ch s with
    | some kind => .next (s.fail kind)
    | none => checked chs k s

end Sys2Proof.Machine
end

