-- ==== Sys2Proof/Machine/Sequencer.lean ====
section
/-! DEFINITION. The sequencer's steps, one per phase (spec/40_sequencer.md R113, R119, R120). A command's own files give the
three entries of the table that depend on the command: its CHECK step, what follows its draw, what follows its
unpadding. -/

namespace Sys2Proof.Machine

/-- Go to a phase (the `PHASE <- X` of R113). -/
def State.enter (p : Phase) (s : State) : State := { s with phase := p }

/-- `EncStart(v)` (R161). The write of sixteen bytes at index 0 fits OBUFS, whose size is IBUF_BYTES + 32. -/
def State.encStart (v : Block) (s : State) : State :=
  { s with
    cv := v
    obufs := Memory.writeBytes s.obufs 0 v.toList
    nb := BitVec.ofNat 21 (encBlocks s.inLen.toNat)
    bi := 0#24
    phase := .eblk }

/-- `DecStart` (R181), made after the four checks, so that the read of `IBUF[0..16)` is inside the operand. -/
def State.decStart (s : State) : State :=
  { s with
    cv := blockOfBytes (Memory.slice s.ibuf 0 16)
    nb := BitVec.ofNat 21 ((s.inLen.toNat - 16) / 16)
    bi := 0#24
    phase := .dblk }

/-- The IVGEN step (R150, R118): while ENT has not answered, nothing changes; with the answer `r`, IV takes it and the command
goes on. -/
def ivgenStep (afterDraw : Block → State → Result) (s : State) : Result :=
  match s.entPort with
  | none => .next s
  | some r => afterDraw r { s with iv := r, entPort := none }

/-- The KDF step (R140, R117). -/
def kdfStep (c : Cores) (s : State) : Result :=
  match readIbuf c s 0 s.inLen.toNat with
  | none => .fault .readRange
  | some m => .next ({ s with key := c.hash256 m, keyLen := 32#8 }.complete 0)

/-- The end of an EBLK step: the next block, or the end of the command (R163). -/
def State.afterEblk (s : State) : State :=
  if s.bi.toNat = s.nb.toNat then s.complete (16 + 16 * s.nb.toNat) else s

/-- The EBLK step (R163). -/
def eblkStep (c : Cores) (s : State) : Result :=
  match plainBlock c s with
  | none => .fault .readRange
  | some p =>
    let x := c.bcEnc s.key (xor16 p s.cv)
    match writeObuf c (16 + 16 * s.bi.toNat) x.toList s with
    | none => .fault .writeRange
    | some s' => .next ({ s' with cv := x, bi := s.bi + 1#24 }.afterEblk)

/-- The end of a DBLK step: the next block, or the padding test (R182). -/
def State.afterDblk (s : State) : State :=
  if s.bi.toNat = s.nb.toNat then { s with phase := .unpad } else s

/-- The DBLK step (R182). -/
def dblkStep (c : Cores) (s : State) : Result :=
  match cipherBlock c s with
  | none => .fault .readRange
  | some ct =>
    let p := xor16 (c.bcDec s.key ct) s.cv
    match writeObuf c (16 * s.bi.toNat) p.toList s with
    | none => .fault .writeRange
    | some s' => .next ({ s' with lastp := p, cv := ct, bi := s.bi + 1#24 }.afterDblk)

/-- The UNPAD step (R183). The padding test reads LASTP only. -/
def unpadStep (afterUnpad : State → Result) (s : State) : Result :=
  match padOf s.lastp.toList with
  | none => .next (s.fail .invalidPadding)
  | some p => afterUnpad { s with plen := BitVec.ofNat 21 (16 * s.nb.toNat - p) }

/-- The TEXT step (R202). -/
def textStep (c : Cores) (s : State) : Result :=
  match readObufs c s with
  | none => .fault .readRange
  | some t => if utf8Valid t then .next (s.complete s.plen.toNat) else .next (s.fail .invalidEncoding)

/-- The clearing of R210's WIPE step, before its `Complete(0)`. -/
def State.wipe (s : State) : State :=
  { s with key := zeroKey, keyLen := 0#8, iv := zeroBlock, ibuf := [], inLen := 0#32, obufs := [] }

/-- The WIPE step (R210). -/
def wipeStep (s : State) : Result := .next (s.wipe.complete 0)

/-- What IVGEN does after the draw for a command other than GENIV (R150, R162). -/
def thenEncrypt (r : Block) (s : State) : Result := .next (s.encStart r)

/-- What UNPAD does after the test for a command other than DECT (R183). -/
def thenDeliver (s : State) : Result := .next (s.complete s.plen.toNat)

/-- The transition table (R120): PHASE selects the step. In IDLE none is enabled and nothing changes. -/
def phaseStep (c : Cores) (check : State → Result) (afterDraw : Block → State → Result)
    (afterUnpad : State → Result) (s : State) : Result :=
  match s.phase with
  | .idle => .next s
  | .check => check s
  | .ivgen => ivgenStep afterDraw s
  | .kdf => kdfStep c s
  | .eblk => eblkStep c s
  | .dblk => dblkStep c s
  | .unpad => unpadStep afterUnpad s
  | .text => textStep c s
  | .wipe => wipeStep s

/-- The step of an illegal command word (R95, R225): CHECK fails before any other check. -/
def illegalStep (c : Cores) (s : State) : Result :=
  phaseStep c (fun s => .next (s.fail .illegalCommand)) thenEncrypt thenDeliver s

end Sys2Proof.Machine
end

