-- ==== Sys2Proof/Machine/Decrypt.lean ====
section
/-! DEFINITION. DEC (spec/44_decrypt.md R180 to R183). -/

namespace Sys2Proof.Machine

/-- The sequencer step of a decryption: checks 2, 3 and 4, `DecStart`, then DBLK and UNPAD; what follows the unpadding is the
command's (R180, R183). -/
def decryptStep (c : Cores) (afterUnpad : State → Result) (s : State) : Result :=
  phaseStep c (checked [lengthCheck c, keyCheck, containerCheck] fun s => .next s.decStart)
    thenEncrypt afterUnpad s

/-- DEC on this instance: the unpadded plaintext is delivered. -/
def execDec (s : State) : Result := decryptStep Config.cores thenDeliver s

end Sys2Proof.Machine
end

