-- ==== Sys2Proof/Machine/Encrypt.lean ====
section
/-! DEFINITION. ENC (spec/43_encrypt.md R160 to R163). -/

namespace Sys2Proof.Machine

/-- Dispatch of ENC and ENCT (R113): draw the IV, or start with the IV register. -/
def startEncrypt (ivs : IvSelect) (s : State) : Result :=
  match ivs with
  | .generate => .next (s.enter .ivgen)
  | .supplied => .next (s.encStart s.iv)

/-- The sequencer step of an encryption: checks 2 and 3, dispatch, then IVGEN and EBLK (R160). -/
def encryptStep (c : Cores) (ivs : IvSelect) (s : State) : Result :=
  phaseStep c (checked [lengthCheck c, keyCheck] (startEncrypt ivs)) thenEncrypt thenDeliver s

/-- ENC on this instance. -/
def execEnc (ivs : IvSelect) (s : State) : Result := encryptStep Config.cores ivs s

end Sys2Proof.Machine
end

