-- ==== Sys2Proof/Machine/IvGeneration.lean ====
section
/-! DEFINITION. GENIV (spec/42_iv_generation.md R150). -/

namespace Sys2Proof.Machine

/-- GENIV's sequencer step: no check but the decoding, then IVGEN, which ends the command (R112, R113, R150). -/
def genivStep (c : Cores) (s : State) : Result :=
  phaseStep c (fun s => .next (s.enter .ivgen)) (fun _ s => .next (s.complete 0)) thenDeliver s

/-- GENIV on this instance. -/
def execGeniv (s : State) : Result := genivStep Config.cores s

end Sys2Proof.Machine
end

