-- ==== Sys2Proof/Machine/KeyDerivation.lean ====
section
/-! DEFINITION. DKEY (spec/41_key_derivation.md R140). -/

namespace Sys2Proof.Machine

/-- DKEY's sequencer step: checks 1 and 2 only, then KDF (R112, R113, R140). -/
def dkeyStep (c : Cores) (s : State) : Result :=
  phaseStep c (checked [lengthCheck c] fun s => .next (s.enter .kdf)) thenEncrypt thenDeliver s

/-- DKEY on this instance. -/
def execDkey (s : State) : Result := dkeyStep Config.cores s

end Sys2Proof.Machine
end

