-- ==== Sys2Proof/Machine/System.lean ====
section
/-! DEFINITION. ZERO (spec/46_system.md R210). -/

namespace Sys2Proof.Machine

/-- ZERO's sequencer step: no check but the decoding, then WIPE (R112, R113, R210). -/
def zeroStep (c : Cores) (s : State) : Result :=
  phaseStep c (fun s => .next (s.enter .wipe)) thenEncrypt thenDeliver s

/-- ZERO on this instance. -/
def execZero (s : State) : Result := zeroStep Config.cores s

end Sys2Proof.Machine
end

