-- ==== Sys2Proof/Machine/TextWrappers.lean ====
section
/-! DEFINITION. ENCT and DECT (spec/45_text_wrappers.md R200 to R202). -/

namespace Sys2Proof.Machine

/-- ENCT on this instance: the steps of ENC; the input is not tested (R200). -/
def execEnct (ivs : IvSelect) (s : State) : Result := encryptStep Config.cores ivs s

/-- What UNPAD does after the test for DECT: the UTF-8 test follows (R183, R201). -/
def thenTest (s : State) : Result := .next (s.enter .text)

/-- DECT on this instance: the steps of DEC, then TEXT (R201). -/
def execDect (s : State) : Result := decryptStep Config.cores thenTest s

end Sys2Proof.Machine
end

