-- ==== Sys2Proof/Machine/Dispatch.lean ====
section
/-! DEFINITION. exec: one arm per command. `exec i s` is the sequencer step of the command `i` in the phase that `s` is in
(spec/40_sequencer.md R110, R119, R120). -/

namespace Sys2Proof.Machine

def exec (i : Instr) (s : State) : Host.Outcome State Fault Refusal :=
  match i with
  | .dkey => Sys2Proof.Machine.execDkey s
  | .geniv => Sys2Proof.Machine.execGeniv s
  | .enc ivs => Sys2Proof.Machine.execEnc ivs s
  | .dec => Sys2Proof.Machine.execDec s
  | .enct ivs => Sys2Proof.Machine.execEnct ivs s
  | .dect => Sys2Proof.Machine.execDect s
  | .zero => Sys2Proof.Machine.execZero s

end Sys2Proof.Machine
end

