-- ==== Sys2Proof/Machine/Step.lean ====
section
/-! DEFINITION. One step of the machine: the next event of the outside, or, when the outside does nothing more, the sequencer
(spec/40_sequencer.md R110, R118, R122). -/

namespace Sys2Proof.Machine

/-- A sequencer step (R110 (b)): enabled only while BUSY = 1, it runs the command that CMDREG decodes to; an illegal word
has a step of its own (R95, R112). -/
def sequencerStep (s : State) : Host.Outcome State Fault Refusal :=
  if s.busy then
    match decode s.cmdReg with
    | .ok i => exec i s
    | .error _ => illegalStep Config.cores s
  else .next s

/-- One event of the outside. -/
def handleEvent (e : Event) (s : State) : Host.Outcome State Fault Refusal :=
  match e with
  | .access a => .next (hostAccess Config.cores a s)
  | .sequencer => sequencerStep s
  | .entropy req r => .next (s.entropyAnswer req r)
  | .reset => .next s.applyReset

/-- With nothing scheduled, the sequencer moves; where it waits for ENT, ENT answers that request with a free draw, as R118
assumes it does after a finite time. -/
def runAlone (s : State) : Host.Outcome State Fault Refusal :=
  if s.awaitsEntropy then
    .next (s.entropyAnswer s.entReq (Config.entDraw s.entReq))
  else sequencerStep s

/-- One step of the machine. -/
def step (s : State) : Host.Outcome State Fault Refusal :=
  match s.env with
  | [] => runAlone s
  | e :: rest => handleEvent e { s with env := rest }

/-- The state in which the word `w` has just been accepted (R111) and the very next step is the sequencer's: CMDREG holds the word, as
a bus write of its bytes leaves it (R65); where the outside has more to do, the sequencer comes first (log entry 8). -/
def State.withFetchWord (s : State) (nbits w : Nat) : State :=
  { s.accept (BitVec.ofNat 32 (leValue (wordBytes (BitVec.ofNat 32 (w % 2 ^ nbits))))) with
    env := match s.env with
      | [] => []
      | e :: rest => .sequencer :: e :: rest }

end Sys2Proof.Machine
end

