-- ==== Sys2Proof/Machine/Script.lean ====
section
/-! DEFINITION. The host-script notation as bus accesses (spec/30_encoding.md R100 to R102). The script is outside CBCC (spec/10_state.md R47);
this file says which accesses a statement stands for. -/

namespace Sys2Proof.Machine

/-- The offset of a register (R62, R100). -/
def csrOffset : Csr → Nat
  | .id => 0x000
  | .config => 0x004
  | .ctrl => 0x008
  | .status => 0x00C
  | .cmd => 0x010
  | .inLen => 0x014
  | .outLen => 0x018
  | .keyLen => 0x01C
  | .seq => 0x020

/-- The base of a window (R62, R100). -/
def windowBase : Window → Nat
  | .key => 0x040
  | .iv => 0x060
  | .ibuf => 0x100000
  | .obuf => 0x200000

/-- `base(win)+i` as an offset of R60. DESIGN CHOICE (log entry 15): a sum beyond 0x3FFFFF is no offset of R60, R100 says nothing of such
an index, and the model takes the sum modulo 2^22, so that OBUF+0x200040 is the offset of KEY[0]. -/
def windowOffset (w : Window) (i : Nat) : Offset := BitVec.ofNat 22 (windowBase w + i)

/-- `HostRead(offset(reg), 4)`. -/
def readCsr (r : Csr) : HostAccess := .read (BitVec.ofNat 22 (csrOffset r)) 4

/-- `HostWrite(offset(reg), 4, v)`. -/
def assignCsr (r : Csr) (v : Word) : HostAccess := .write (BitVec.ofNat 22 (csrOffset r)) 4 v

/-- `HostRead(base(win)+i, 1)`. -/
def readByte (w : Window) (i : Nat) : HostAccess := .read (windowOffset w i) 1

/-- `HostWrite(base(win)+i, 1, b)`. -/
def assignByte (w : Window) (i : Nat) (b : Byte) : HostAccess :=
  .write (windowOffset w i) 1 (b.setWidth 32)

/-- The byte writes of `WRB win+i, bytes`, upward (R100). -/
def assignBytes (w : Window) : Nat → List Byte → List HostAccess
  | _, [] => []
  | i, b :: bs => assignByte w i b :: assignBytes w (i + 1) bs

/-- `WR IN_LEN` after the bytes: `LDIN` (R102). -/
def loadInput (bytes : List Byte) : List HostAccess :=
  assignBytes .ibuf 0 bytes ++ [assignCsr .inLen (BitVec.ofNat 32 bytes.length)]

/-- The copying of `MVOI` (R102): read OBUF+i, write what it returned to IBUF+i, upward. -/
def copyBytes : Nat → List Byte → List HostAccess
  | _, [] => []
  | i, b :: bs => readByte .obuf i :: assignByte .ibuf i b :: copyBytes (i + 1) bs

/-- `CMD m` (R100, R101). -/
def issue (i : Instr) : HostAccess := assignCsr .cmd (encode i)

/-- `WAIT` with `polls` reads before the one that shows DONE (R100). -/
def awaitDone (polls : Nat) : List HostAccess := List.replicate (polls + 1) (readCsr .status)

/-- The bus accesses of a statement, in order (R100, R102); an index beyond the offset space as `windowOffset` takes it. -/
def stmtAccesses : Stmt → List HostAccess
  | .wr r v => [assignCsr r v]
  | .rd r => [readCsr r]
  | .wrb w i bytes => assignBytes w i bytes
  | .wrw w i v => [.write (windowOffset w i) 4 v]
  | .rdb w i n => (List.range n).map fun k => readByte w (i + k)
  | .cmd i => [issue i]
  | .wait polls => awaitDone polls
  | .ack => [assignCsr .status 0x00000002#32]
  | .ldin bytes => loadInput bytes
  | .ldkey key => assignBytes .key 0 key.toList ++ [assignCsr .keyLen 32#32]
  | .ldiv iv => assignBytes .iv 0 iv.toList
  | .mvoi out =>
    readCsr .outLen :: copyBytes 0 out ++ [assignCsr .inLen (BitVec.ofNat 32 out.length)]
  | .encp pass data p q =>
    loadInput pass ++ [issue .dkey] ++ awaitDone p ++ loadInput data ++ [issue (.enc .generate)] ++ awaitDone q
  | .decp pass blob p q =>
    loadInput pass ++ [issue .dkey] ++ awaitDone p ++ loadInput blob ++ [issue .dec] ++ awaitDone q

/-- The host's accesses one after another. -/
def hostAccesses (c : Cores) : List HostAccess → State → State
  | [], s => s
  | a :: as, s => hostAccesses c as (hostAccess c a s)

/-- What the host can read of the result: `OBUF[0 .. OUT_LEN)` through the window (R80). -/
def readableOutput (s : State) : List Byte := windowBytes s .obuf 0 s.outLen.toNat

end Sys2Proof.Machine
end

