-- ==== Sys2Proof/Safety.lean ====
section
/-! DEFINITION. What counts as a legal state and a safe run, in the terms the claims use: the invariants of
spec/10_state.md R46, the stronger invariant that every step keeps, and runs of the machine. -/

namespace Sys2Proof.Machine

/-- The invariants that R46 gives for every reachable state, one field for each of its clauses. -/
structure State.Legal (c : Cores) (s : State) : Prop where
  busy_iff : s.busy = true ↔ s.phase ≠ .idle
  busy_quiet : s.busy = true → s.done = false ∧ s.err = 0#3 ∧ s.outLen = 0#32
  failed_empty : s.err ≠ 0#3 → s.outLen = 0#32
  idle_clear : s.phase = .idle →
    s.bi = 0#24 ∧ s.cv = zeroBlock ∧ s.lastp = zeroBlock ∧ s.nb = 0#21 ∧ s.plen = 0#21
  out_le : s.outLen.toNat ≤ c.obufBytes
  bi_le : s.bi.toNat ≤ s.nb.toNat
  phase_le : s.phase.code.toNat ≤ 8
  err_le : s.err.toNat ≤ 6
  irq_iff : irq s = true ↔ s.done = true ∧ s.ie = true

/-- The hidden registers before a cipher loop starts: all zero, as the last command's end left them (R46, R114). -/
def State.hiddenClear (s : State) : Prop :=
  s.bi = 0#24 ∧ s.cv = zeroBlock ∧ s.lastp = zeroBlock ∧ s.nb = 0#21 ∧ s.plen = 0#21

/-- The operand of a cipher command that passed checks 2 and 3 (R112). -/
def State.cipherOperandOk (c : Cores) (s : State) : Prop :=
  s.inLen.toNat ≤ c.ibufBytes ∧ s.keyLen = 32#8

/-- The container of a decryption that passed checks 2, 3 and 4 (R112), and its block count (R181). -/
def State.containerOk (c : Cores) (s : State) : Prop :=
  s.cipherOperandOk c ∧ 32 ≤ s.inLen.toNat ∧ s.inLen.toNat % 16 = 0 ∧
    s.nb.toNat = (s.inLen.toNat - 16) / 16

/-- The accepted word is ENC or ENCT. -/
def State.encrypts (s : State) : Prop :=
  ∃ ivs, decode s.cmdReg = .ok (.enc ivs) ∨ decode s.cmdReg = .ok (.enct ivs)

/-- The accepted word is DEC or DECT. -/
def State.decrypts (s : State) : Prop :=
  decode s.cmdReg = .ok .dec ∨ decode s.cmdReg = .ok .dect

/-- What holds in each phase of a command (R29, R112, R113, R120, R161, R181, R183). -/
def State.phaseOk (c : Cores) (s : State) : Prop :=
  match s.phase with
  | .idle => s.hiddenClear
  | .check => s.hiddenClear
  | .ivgen => s.hiddenClear ∧
      (decode s.cmdReg = .ok .geniv ∨ (s.encrypts ∧ s.cipherOperandOk c))
  | .kdf => s.hiddenClear ∧ decode s.cmdReg = .ok .dkey ∧ s.inLen.toNat ≤ c.ibufBytes
  | .eblk => s.encrypts ∧ s.cipherOperandOk c ∧ s.nb.toNat = s.inLen.toNat / 16 + 1 ∧
      s.bi.toNat < s.nb.toNat ∧ s.lastp = zeroBlock ∧ s.plen = 0#21
  | .dblk => s.decrypts ∧ s.containerOk c ∧ s.bi.toNat < s.nb.toNat ∧ s.plen = 0#21
  | .unpad => s.decrypts ∧ s.containerOk c ∧ s.bi = s.nb.setWidth 24 ∧ s.plen = 0#21
  | .text => decode s.cmdReg = .ok .dect ∧ s.containerOk c ∧ s.bi = s.nb.setWidth 24 ∧
      s.plen.toNat < 16 * s.nb.toNat
  | .wipe => s.hiddenClear ∧ decode s.cmdReg = .ok .zero

/-- The invariant that every step keeps: R46, the stores in their canonical form and inside their capacity, an ENT answer only
where one was asked for, and the facts of the phase. -/
structure State.Inv (c : Cores) (s : State) : Prop where
  legal : s.Legal c
  ibuf_wf : Memory.wf s.ibuf = true
  ibuf_below : Memory.below c.ibufBytes s.ibuf = true
  obufs_wf : Memory.wf s.obufs = true
  obufs_below : Memory.below c.obufBytes s.obufs = true
  entropy_asked : s.entPort.isSome = true → s.phase = .ivgen
  phase_ok : s.phaseOk c

/-- `n` steps of the machine, ending early where a step stops it: the host's `Host.Core.run` at this machine. -/
def run : Nat → State → Result
  | 0, s => .next s
  | n + 1, s =>
    match step s with
    | .next t => run n t
    | .fault r => .fault r
    | .refused r => .refused r

/-- The operand `IBUF[0 .. IN_LEN)` (R32). -/
def operand (s : State) : List Byte := Memory.slice s.ibuf 0 s.inLen.toNat

/-- One encoded code point, by the rows of R15's table, each range written out. -/
def wellFormedCodePoint (bs : List Byte) : Prop :=
  let within (lo hi : Nat) (b : Byte) : Prop := lo ≤ b.toNat ∧ b.toNat ≤ hi
  let cont (b : Byte) : Prop := within 0x80 0xBF b
  (∃ a, bs = [a] ∧ within 0x00 0x7F a) ∨
  (∃ a b, bs = [a, b] ∧ within 0xC2 0xDF a ∧ cont b) ∨
  (∃ a b c, bs = [a, b, c] ∧ within 0xE0 0xE0 a ∧ within 0xA0 0xBF b ∧ cont c) ∨
  (∃ a b c, bs = [a, b, c] ∧ within 0xE1 0xEC a ∧ cont b ∧ cont c) ∨
  (∃ a b c, bs = [a, b, c] ∧ within 0xED 0xED a ∧ within 0x80 0x9F b ∧ cont c) ∨
  (∃ a b c, bs = [a, b, c] ∧ within 0xEE 0xEF a ∧ cont b ∧ cont c) ∨
  (∃ a b c d, bs = [a, b, c, d] ∧ within 0xF0 0xF0 a ∧ within 0x90 0xBF b ∧ cont c ∧ cont d) ∨
  (∃ a b c d, bs = [a, b, c, d] ∧ within 0xF1 0xF3 a ∧ cont b ∧ cont c ∧ cont d) ∨
  (∃ a b c d, bs = [a, b, c, d] ∧ within 0xF4 0xF4 a ∧ within 0x80 0x8F b ∧ cont c ∧ cont d)

/-- What a command started in `s` may rely on (R46): BUSY = 0, no ENT answer pending, the stores in their canonical form and
inside their capacity. STATUS, OUT_LEN, SEQ and the hidden registers CV, LASTP, NB and PLEN may hold anything. -/
structure State.AtRest (c : Cores) (s : State) : Prop where
  idle : s.busy = false
  no_answer : s.entPort = none
  ibuf_wf : Memory.wf s.ibuf = true
  ibuf_below : Memory.below c.ibufBytes s.ibuf = true
  obufs_wf : Memory.wf s.obufs = true
  obufs_below : Memory.below c.obufBytes s.obufs = true

/-- The command words that consume an ENT draw (R118): GENIV, ENC.G and ENCT.G. -/
def drawsEntropy (w : Word) : Prop :=
  decode w = .ok .geniv ∨ decode w = .ok (.enc .generate) ∨ decode w = .ok (.enct .generate)

/-- The hidden registers of `t` that may differ from those of `s` when a sequencer step of phase `p` that does not end the command
leads from `s` to `t` (spec/10_state.md R48, by the phase that writes each register). -/
def hiddenFrame (p : Phase) (s t : State) : Prop :=
  (p ∉ [Phase.check, .ivgen, .eblk, .dblk] → t.cv = s.cv) ∧
  (p ≠ .dblk → t.lastp = s.lastp) ∧
  (p ∉ [Phase.check, .ivgen] → t.nb = s.nb) ∧
  (p ≠ .unpad → t.plen = s.plen) ∧
  (p ∉ [Phase.check, .ivgen, .eblk, .dblk] → t.bi = s.bi) ∧
  (p ∉ [Phase.check, .ivgen, .dblk, .unpad] → t.phase = s.phase)

/-- ENC, or its text wrapper ENCT. -/
def encryptCommand (text : Bool) (ivs : IvSelect) : Instr := if text then .enct ivs else .enc ivs

/-- The padded plaintext that a decryption recovers from the container in IBUF (R13, R17). -/
def recoveredPadded (c : Cores) (s : State) : List Byte :=
  cbcDecrypt c s.key (blockAt (operand s) 0) ((operand s).drop 16)

end Sys2Proof.Machine
end

