-- ==== Sys2Proof/Certificates/Slice0/Obligations.lean ====
section
/-! DEFINITION. The statements about CBCC for the provers, each with the rule of spec/ it formalises. -/

open Sys2Proof Sys2Proof.Machine

/-! ### The command word -/

/-- R94: the nine legal words, each with its command, and no others. -/
def Obligations.LegalWordsAreTheTable : Prop :=
  ∀ (w : Word) (i : Instr), decode w = .ok i ↔
    (w, i) ∈ [(0x00000001#32, Instr.dkey), (0x00000002#32, .geniv),
      (0x00000003#32, .enc .generate), (0x00000103#32, .enc .supplied), (0x00000004#32, .dec),
      (0x00000005#32, .enct .generate), (0x00000105#32, .enct .supplied),
      (0x00000006#32, .dect), (0x00000007#32, .zero)]

/-- 30_encoding.md R95: which words are illegal, by their fields. -/
def Obligations.IllegalWordsByField : Prop :=
  ∀ w : Word, decodeCommand w = none ↔
    w.extractLsb' 9 23 ≠ 0#23 ∨ w.extractLsb' 0 8 = 0#8 ∨ 8 ≤ (w.extractLsb' 0 8).toNat ∨
      (w.getLsbD 8 = true ∧ w.extractLsb' 0 8 ≠ 0x03#8 ∧ w.extractLsb' 0 8 ≠ 0x05#8)

/-- 30_encoding.md R90, R94, R99 and 20_memory.md R65: decoder and encoder agree in both directions, on bytes, whatever
follows the command word. -/
def Obligations.DecoderAndEncoderAgreeOnBytes : Prop :=
  ∀ (i : Instr) (bs rest : List Byte), i.wellFormed = true →
    (decodeBytes bs = .ok (i, rest) ↔ bs = encodeBytes i ++ rest)

/-- 30_encoding.md R94: words written out bit by bit (RSV, IVS, OP) decode to the command of their row. -/
def Obligations.WrittenOutWordsDecode : Prop :=
  decode 0b00000000000000000000000000000001#32 = .ok .dkey ∧
  decode 0b00000000000000000000000000000010#32 = .ok .geniv ∧
  decode 0b00000000000000000000000100000011#32 = .ok (.enc .supplied) ∧
  decode 0b00000000000000000000000000000100#32 = .ok .dec ∧
  decode 0b00000000000000000000000000000101#32 = .ok (.enct .generate) ∧
  decode 0b00000000000000000000000000000110#32 = .ok .dect ∧
  decode 0b00000000000000000000000000000111#32 = .ok .zero

/-! ### Steps -/

/-- 40_sequencer.md R110, R120: with BUSY = 1, a step in which the sequencer moves runs the decoded command; a scheduled sequencer
event is used up. With BUSY = 0 no sequencer step is enabled and nothing changes. In every state a scheduled host access is made, and used up. The schedule is
the model's (log entry 5). -/
def Obligations.StepRunsTheDecodedCommand : Prop :=
  (∀ (s : State) (i : Instr), decode s.cmdReg = .ok i → s.busy = true → i.wellFormed = true →
    (s.env = [] → ¬ (s.phase = .ivgen ∧ s.entPort = none) → step s = exec i s) ∧
    (∀ rest, s.env = .sequencer :: rest → step s = exec i { s with env := rest })) ∧
  (∀ s : State, s.busy = false →
    (s.env = [] → step s = .next s) ∧
    (∀ rest, s.env = .sequencer :: rest → step s = .next { s with env := rest })) ∧
  (∀ (s : State) (a : HostAccess) (rest : List Event), s.env = .access a :: rest →
    step s = .next (hostAccess Config.cores a { s with env := rest }))

/-- R111: acceptance of a command word, and its loss while BUSY = 1. -/
def Obligations.AcceptanceOfACommand : Prop :=
  ∀ (s : State) (w : Word),
    (s.busy = false →
      hostAccess Config.cores (.write 0x010#22 4 w) s =
        { s with cmdReg := w, busy := true, done := false, err := 0#3, outLen := 0#32, phase := .check,
                 bi := 0#24, busResp := some .writeOkay }) ∧
    (s.busy = true →
      hostAccess Config.cores (.write 0x010#22 4 w) s = { s with busResp := some .error })

/-- 30_encoding.md R95 and 60_exceptions.md R225: an illegal word is accepted, and its CHECK step fails it with code 5 before
any other check; everything else stays. -/
def Obligations.IllegalWordFailsInCheck : Prop :=
  ∀ (s : State) (w : Word), decodeCommand w = none → s.env = [] →
    run 1 (s.accept w) = .next { s with
      cmdReg := w, busy := false, done := true, err := 5#3, outLen := 0#32, phase := .idle, bi := 0#24,
      cv := zeroBlock, lastp := zeroBlock, nb := 0#21, plen := 0#21 }

/-- R112, R113: the CHECK step of every command: its checks in order, then its dispatch. -/
def Obligations.CheckStepInOrder : Prop :=
  ∀ (i : Instr) (s : State), s.phase = .check →
    let cipher : Prop := i ≠ .dkey ∧ i ≠ .geniv ∧ i ≠ .zero
    (i ≠ .geniv → i ≠ .zero → Config.ibufBytes < s.inLen.toNat →
      exec i s = .next (s.fail .lengthRange)) ∧
    (s.inLen.toNat ≤ Config.ibufBytes → cipher → s.keyLen ≠ 32#8 →
      exec i s = .next (s.fail .invalidKeyLength)) ∧
    (s.inLen.toNat ≤ Config.ibufBytes → s.keyLen = 32#8 → (i = .dec ∨ i = .dect) →
      (s.inLen.toNat < 32 ∨ (s.inLen.toNat - 16) % 16 ≠ 0) →
      exec i s = .next (s.fail .malformedInput)) ∧
    (i = .geniv → exec i s = .next { s with phase := .ivgen }) ∧
    (i = .zero → exec i s = .next { s with phase := .wipe }) ∧
    (s.inLen.toNat ≤ Config.ibufBytes → i = .dkey → exec i s = .next { s with phase := .kdf }) ∧
    (s.inLen.toNat ≤ Config.ibufBytes → s.keyLen = 32#8 → (i = .enc .generate ∨ i = .enct .generate) →
      exec i s = .next { s with phase := .ivgen }) ∧
    (s.inLen.toNat ≤ Config.ibufBytes → s.keyLen = 32#8 → (i = .enc .supplied ∨ i = .enct .supplied) →
      exec i s = .next (s.encStart s.iv)) ∧
    (s.inLen.toNat ≤ Config.ibufBytes → s.keyLen = 32#8 → (i = .dec ∨ i = .dect) →
      32 ≤ s.inLen.toNat → (s.inLen.toNat - 16) % 16 = 0 →
      exec i s = .next s.decStart)

/-- R161, R181: what `EncStart(v)` and `DecStart` set: the chaining value, the block count, the first loop phase, and for `EncStart` the
raw IV at the front of the output store. -/
def Obligations.CipherStartsSetTheChain : Prop :=
  (∀ (s : State) (v : Block), s.inLen.toNat ≤ Config.ibufBytes →
    (s.encStart v).cv = v ∧ (s.encStart v).nb.toNat = s.inLen.toNat / 16 + 1 ∧
    (s.encStart v).bi = 0#24 ∧ (s.encStart v).phase = .eblk ∧
    (Memory.wf s.obufs = true → Memory.slice (s.encStart v).obufs 0 16 = v.toList) ∧
    (∀ a, 16 ≤ a → Memory.read (s.encStart v).obufs a = Memory.read s.obufs a) ∧
    s.encStart v =
      { s with cv := v, obufs := (s.encStart v).obufs, nb := (s.encStart v).nb, bi := 0#24, phase := .eblk }) ∧
  (∀ s : State, 32 ≤ s.inLen.toNat → s.inLen.toNat ≤ Config.ibufBytes → s.inLen.toNat % 16 = 0 →
    s.decStart.cv.toList = Memory.slice s.ibuf 0 16 ∧
    16 * s.decStart.nb.toNat = s.inLen.toNat - 16 ∧ 1 ≤ s.decStart.nb.toNat ∧
    s.decStart = { s with cv := s.decStart.cv, nb := s.decStart.nb, bi := 0#24, phase := .dblk })

/-- 41_key_derivation.md R140: the KDF step of DKEY, the whole next state. -/
def Obligations.DkeyDerivesTheKey : Prop :=
  ∀ s : State, s.phase = .kdf → s.inLen.toNat ≤ Config.ibufBytes →
    exec .dkey s = .next { s with
      key := Config.hash256 (operand s), keyLen := 32#8,
      outLen := 0#32, err := 0#3, busy := false, done := true, phase := .idle, bi := 0#24,
      cv := zeroBlock, lastp := zeroBlock, nb := 0#21, plen := 0#21 }

/-- 42_iv_generation.md R150 and 43_encrypt.md R162: the IVGEN step once ENT has answered `r`, the whole next state: IV takes the draw; GENIV
ends, ENC and ENCT start with it. -/
def Obligations.IvgenTakesTheDraw : Prop :=
  ∀ (s : State) (r : Block) (ivs : IvSelect), s.phase = .ivgen → s.entPort = some r →
    exec .geniv s = .next { s with
      iv := r, entPort := none,
      outLen := 0#32, err := 0#3, busy := false, done := true, phase := .idle, bi := 0#24,
      cv := zeroBlock, lastp := zeroBlock, nb := 0#21, plen := 0#21 } ∧
    (let t := { s with
      iv := r, entPort := none, cv := r, nb := BitVec.ofNat 21 (s.inLen.toNat / 16 + 1), bi := 0#24, phase := .eblk,
      obufs := Memory.writeBytes s.obufs 0 r.toList }
     exec (.enc ivs) s = .next t ∧ exec (.enct ivs) s = .next t)

/-- 40_sequencer.md R118: while ENT has not answered, IVGEN holds and nothing changes; an answer stands at the port until the
step takes it; an answer nobody waits for, or to another request than the outstanding one, is ignored (70_reset_and_hazards.md R262). The
port and the numbers of its requests are the model's (log entries 4, 13). -/
def Obligations.IvgenWaitsForEntropy : Prop :=
  ∀ (s : State) (i : Instr) (r : Block),
    (s.phase = .ivgen → s.entPort = none → exec i s = .next s ∧ sequencerStep s = .next s) ∧
    (s.phase = .ivgen → s.entPort = none → s.busy = true →
      handleEvent (.entropy s.entReq r) s = .next { s with entPort := some r, entReq := s.entReq + 1 }) ∧
    (∀ req, (s.phase ≠ .ivgen ∨ s.busy = false ∨ s.entPort.isSome = true ∨ req ≠ s.entReq) →
      handleEvent (.entropy req r) s = .next s)

/-- R163: the EBLK step of ENC and ENCT, the whole next state: block BI of the padded plaintext, chained, enciphered
and stored; after the last block the command completes. -/
def Obligations.EblkEncryptsOneBlock : Prop :=
  ∀ (s : State) (ivs : IvSelect), s.phase = .eblk → s.inLen.toNat ≤ Config.ibufBytes →
    s.nb.toNat = s.inLen.toNat / 16 + 1 → s.bi.toNat < s.nb.toNat →
    let c := Config.cipher s.key (xor16 (padBlock (operand s) s.bi.toNat) s.cv)
    let t := { s with obufs := Memory.writeBytes s.obufs (16 + 16 * s.bi.toNat) c.toList, cv := c, bi := s.bi + 1#24 }
    let t' := if s.bi.toNat + 1 = s.nb.toNat then t.complete (16 + 16 * s.nb.toNat) else t
    exec (.enc ivs) s = .next t' ∧ exec (.enct ivs) s = .next t' ∧
    (∀ a, a < 16 + 16 * s.bi.toNat ∨ 32 + 16 * s.bi.toNat ≤ a → Memory.read t'.obufs a = Memory.read s.obufs a) ∧
    (∀ a, Memory.read t'.ibuf a = Memory.read s.ibuf a)

/-- R182: the DBLK step of DEC and DECT, the whole next state: ciphertext block BI deciphered, unchained and stored; after
the last block comes UNPAD. -/
def Obligations.DblkDecryptsOneBlock : Prop :=
  ∀ s : State, s.phase = .dblk → s.containerOk Config.cores → s.bi.toNat < s.nb.toNat →
    let c := blockAt (operand s) (s.bi.toNat + 1)
    let p := xor16 ((Config.cipher s.key).symm c) s.cv
    let t := { s with obufs := Memory.writeBytes s.obufs (16 * s.bi.toNat) p.toList, lastp := p, cv := c, bi := s.bi + 1#24 }
    let t' := if s.bi.toNat + 1 = s.nb.toNat then { t with phase := .unpad } else t
    exec .dec s = .next t' ∧ exec .dect s = .next t' ∧
    (∀ a, a < 16 * s.bi.toNat ∨ 16 + 16 * s.bi.toNat ≤ a → Memory.read t'.obufs a = Memory.read s.obufs a) ∧
    (∀ a, Memory.read t'.ibuf a = Memory.read s.ibuf a)

/-- R183: the UNPAD step of DEC and DECT on LASTP: the three failures, else PLEN and the delivery (DEC) or the text test (DECT). -/
def Obligations.UnpadTestsTheLastBlock : Prop :=
  ∀ s : State, s.phase = .unpad → 1 ≤ s.nb.toNat → 16 * s.nb.toNat ≤ Config.cores.obufBytes →
    let p := (byteAt s.lastp 15).toNat
    let bad := p = 0 ∨ 16 < p ∨ ∃ j, 16 - p ≤ j ∧ j ≤ 15 ∧ (byteAt s.lastp j).toNat ≠ p
    (bad → exec .dec s = .next (s.fail .invalidPadding) ∧ exec .dect s = .next (s.fail .invalidPadding)) ∧
    (¬ bad →
      exec .dec s = .next (s.complete (16 * s.nb.toNat - p)) ∧
      exec .dect s = .next { s with plen := BitVec.ofNat 21 (16 * s.nb.toNat - p), phase := .text } ∧
      (BitVec.ofNat 21 (16 * s.nb.toNat - p)).toNat = 16 * s.nb.toNat - p)

/-- R202: the TEXT step of DECT: the unpadded plaintext in the store is tested; OUT_LEN becomes PLEN, or the command fails
with InvalidEncoding. -/
def Obligations.TextTestsTheEncoding : Prop :=
  ∀ s : State, s.phase = .text → s.plen.toNat ≤ Config.cores.obufBytes →
    let t := Memory.slice s.obufs 0 s.plen.toNat
    (utf8Valid t = true → exec .dect s = .next (s.complete s.plen.toNat)) ∧
    (utf8Valid t = false → exec .dect s = .next (s.fail .invalidEncoding))

/-- 46_system.md R210: the WIPE step of ZERO, the whole next state; CTRL and CMDREG stay. -/
def Obligations.ZeroWipesTheSecrets : Prop :=
  ∀ s : State, s.phase = .wipe →
    exec .zero s = .next { s with
      key := zeroKey, keyLen := 0#8, iv := zeroBlock, ibuf := [], inLen := 0#32, obufs := [],
      outLen := 0#32, err := 0#3, busy := false, done := true, phase := .idle, bi := 0#24,
      cv := zeroBlock, lastp := zeroBlock, nb := 0#21, plen := 0#21 }

/-- R114: what `Complete(n)` writes, and nothing else; R115 and 60_exceptions.md R220 for `Fail(kind)`. -/
def Obligations.CommandEndsWriteWhatTheySay : Prop :=
  ∀ (s : State) (n : Nat) (k : ErrorKind),
    s.complete n = { s with
      outLen := BitVec.ofNat 32 n, err := 0#3, busy := false, done := true, phase := .idle, bi := 0#24,
      cv := zeroBlock, lastp := zeroBlock, nb := 0#21, plen := 0#21 } ∧
    s.fail k = { s with
      outLen := 0#32,
      err := (match k with
        | .invalidKeyLength => 1#3 | .malformedInput => 2#3 | .invalidPadding => 3#3
        | .invalidEncoding => 4#3 | .illegalCommand => 5#3 | .lengthRange => 6#3),
      busy := false, done := true, phase := .idle, bi := 0#24,
      cv := zeroBlock, lastp := zeroBlock, nb := 0#21, plen := 0#21 }

/-- 40_sequencer.md R120: from a state that meets the invariant, the sequencer's step goes where the table says. -/
def Obligations.TransitionsFollowTheTable : Prop :=
  ∀ s t : State, s.Inv Config.cores → s.busy = true → sequencerStep s = .next t →
    match s.phase with
    | .idle => False
    | .check => t.bi = 0#24 ∧ t.phase ∈ [Phase.idle, .kdf, .ivgen, .eblk, .dblk, .wipe]
    | .ivgen =>
      (s.entPort = none ∧ t = s) ∨
      (s.entPort.isSome = true ∧ t.bi = 0#24 ∧
        (decode s.cmdReg = .ok .geniv → t.phase = .idle) ∧ (decode s.cmdReg ≠ .ok .geniv → t.phase = .eblk))
    | .kdf => t.phase = .idle ∧ t.bi = 0#24
    | .eblk =>
      (s.bi.toNat + 1 < s.nb.toNat → t.phase = .eblk ∧ t.bi = s.bi + 1#24) ∧
      (s.bi.toNat + 1 = s.nb.toNat → t.phase = .idle ∧ t.bi = 0#24)
    | .dblk =>
      (s.bi.toNat + 1 < s.nb.toNat → t.phase = .dblk ∧ t.bi = s.bi + 1#24) ∧
      (s.bi.toNat + 1 = s.nb.toNat → t.phase = .unpad ∧ t.bi.toNat = s.nb.toNat)
    | .unpad =>
      (t.phase = .idle ∧ t.bi = 0#24) ∨
      (decode s.cmdReg = .ok .dect ∧ t.phase = .text ∧ t.bi.toNat = s.nb.toNat)
    | .text => t.phase = .idle ∧ t.bi = 0#24
    | .wipe => t.phase = .idle ∧ t.bi = 0#24

/-- 10_state.md R48: the frame of every command's sequencer step, by its phase: a clause for every field of State. A step that ends the
command (R114, R115) sets BUSY, DONE, SEQ and the hidden registers as every end does; any other leaves STATUS and OUT_LEN and changes SEQ and
the hidden registers only in the phases of `hiddenFrame`. The bytes of the output store each phase stores to are at the index the meanings use. -/
def Obligations.SequencerFrame : Prop :=
  ∀ (i : Instr) (s t : State), exec i s = .next t →
    t.ie = s.ie ∧ t.cmdReg = s.cmdReg ∧ t.env = s.env ∧ t.entReq = s.entReq ∧ t.busResp = s.busResp ∧
    ((t.busy = s.busy ∧ t.done = s.done ∧ t.err = s.err ∧ t.outLen = s.outLen ∧ hiddenFrame s.phase s t) ∨
      (t.busy = false ∧ t.done = true ∧ t.phase = .idle ∧ t.hiddenClear ∧ (t.err ≠ 0#3 → t.outLen = 0#32))) ∧
    (s.phase ≠ .wipe → t.inLen = s.inLen ∧ ∀ a, Memory.read t.ibuf a = Memory.read s.ibuf a) ∧
    (s.phase ≠ .wipe → s.phase ≠ .kdf → t.key = s.key ∧ t.keyLen = s.keyLen) ∧
    (s.phase ≠ .wipe → s.phase ≠ .ivgen → t.iv = s.iv ∧ t.entPort = s.entPort) ∧
    (∀ a, (match s.phase with
        | .idle | .kdf | .unpad | .text => True
        | .check | .ivgen => 16 ≤ a
        | .eblk => a < 16 + 16 * s.bi.toNat ∨ 16 + 16 * s.bi.toNat + 16 ≤ a
        | .dblk => a < 16 * s.bi.toNat ∨ 16 * s.bi.toNat + 16 ≤ a
        | .wipe => False) → Memory.read t.obufs a = Memory.read s.obufs a)

/-! ### Whole commands -/

/-- 41_key_derivation.md R140, 42_iv_generation.md R150, 46_system.md R210 and 40_sequencer.md R124, R126: DKEY, GENIV and ZERO from acceptance to their
end, the whole final state; ENT answers GENIV's request with `r` after CHECK. -/
def Obligations.ShortCommandsRunToTheirEnd : Prop :=
  ∀ (s : State) (r : Block),
    (s.env = [] → s.inLen.toNat ≤ Config.ibufBytes →
      run 2 (s.accept (encode .dkey)) =
        .next ({ s.accept (encode .dkey) with key := Config.hash256 (operand s), keyLen := 32#8 }.complete 0)) ∧
    (s.env = [] → Config.ibufBytes < s.inLen.toNat →
      run 1 (s.accept (encode .dkey)) = .next ((s.accept (encode .dkey)).fail .lengthRange)) ∧
    (s.env = [.sequencer, .entropy s.entReq r] → s.entPort = none →
      run 3 (s.accept (encode .geniv)) =
        .next ({ s.accept (encode .geniv) with iv := r, env := [], entReq := s.entReq + 1 }.complete 0)) ∧
    (s.env = [] →
      run 2 (s.accept (encode .zero)) =
        .next ({ s.accept (encode .zero) with
          key := zeroKey, keyLen := 0#8, iv := zeroBlock, ibuf := [], inLen := 0#32, obufs := [] }.complete 0))

/-- 43_encrypt.md R160 to R163, R200 and 40_sequencer.md R126: ENC.S and ENCT.S from acceptance to the end, the whole final state: the
container of `EncFn` stands in the store from index 0. -/
def Obligations.EncryptSuppliedRunsToItsEnd : Prop :=
  ∀ (s : State) (text : Bool), s.env = [] → s.inLen.toNat ≤ Config.ibufBytes → s.keyLen = 32#8 →
    let a := s.accept (encode (encryptCommand text .supplied))
    run (1 + encBlocks s.inLen.toNat) a =
      .next ({ a with obufs := Memory.writeBytes s.obufs 0 (encFn Config.cores s.key s.iv (operand s)) }.complete
        (blobLen s.inLen.toNat))

/-- 43_encrypt.md R160 to R163 and 40_sequencer.md R118, R126: ENC.G and ENCT.G from acceptance to the end, ENT answering `r`, the
whole final state. -/
def Obligations.EncryptGeneratedRunsToItsEnd : Prop :=
  ∀ (s : State) (text : Bool) (r : Block), s.env = [.sequencer, .entropy s.entReq r] → s.entPort = none →
    s.inLen.toNat ≤ Config.ibufBytes → s.keyLen = 32#8 →
    let a := s.accept (encode (encryptCommand text .generate))
    run (3 + encBlocks s.inLen.toNat) a =
      .next ({ a with
        iv := r, env := [], entReq := s.entReq + 1,
        obufs := Memory.writeBytes s.obufs 0 (encFn Config.cores s.key r (operand s)) }.complete
        (blobLen s.inLen.toNat))

/-- R165: the result law of ENC, as the host reads it, for a supplied and for a drawn IV (and for ENCT, R200). -/
def Obligations.EncryptResultLaw : Prop :=
  ∀ (s : State) (text : Bool) (r : Block), s.entPort = none → s.inLen.toNat ≤ Config.ibufBytes →
    s.keyLen = 32#8 → Memory.wf s.obufs = true →
    (s.env = [] → ∃ t, run (1 + encBlocks s.inLen.toNat) (s.accept (encode (encryptCommand text .supplied))) = .next t ∧
      t.busy = false ∧ t.done = true ∧ t.err = 0#3 ∧ t.outLen.toNat = blobLen s.inLen.toNat ∧
      readableOutput t = encFn Config.cores s.key s.iv (operand s) ∧
      (readableOutput t).take 16 = s.iv.toList) ∧
    (s.env = [.sequencer, .entropy s.entReq r] →
      ∃ t, run (3 + encBlocks s.inLen.toNat) (s.accept (encode (encryptCommand text .generate))) = .next t ∧
      t.busy = false ∧ t.done = true ∧ t.err = 0#3 ∧ t.outLen.toNat = blobLen s.inLen.toNat ∧
      readableOutput t = encFn Config.cores s.key r (operand s) ∧
      t.iv = r ∧ (readableOutput t).take 16 = t.iv.toList)

/-- 44_decrypt.md R180 to R183 and 40_sequencer.md R126: DEC from acceptance to the end, the whole final state. -/
def Obligations.DecryptRunsToItsEnd : Prop :=
  ∀ s : State, s.env = [] → s.inLen.toNat ≤ Config.ibufBytes → s.keyLen = 32#8 →
    32 ≤ s.inLen.toNat → s.inLen.toNat % 16 = 0 →
    let a := { s.accept (encode .dec) with
      obufs := Memory.writeBytes s.obufs 0 (recoveredPadded Config.cores s) }
    run (2 + (s.inLen.toNat - 16) / 16) (s.accept (encode .dec)) =
      .next (match unpad (recoveredPadded Config.cores s) with
        | .error k => a.fail k
        | .ok m => a.complete m.length)

/-- 45_text_wrappers.md R201, R202 and 40_sequencer.md R126: DECT from acceptance to the end, the whole final state: the steps of DEC, then the UTF-8 test. -/
def Obligations.DecryptTextRunsToItsEnd : Prop :=
  ∀ s : State, s.env = [] → s.inLen.toNat ≤ Config.ibufBytes → s.keyLen = 32#8 →
    32 ≤ s.inLen.toNat → s.inLen.toNat % 16 = 0 → Memory.wf s.obufs = true →
    let a := { s.accept (encode .dect) with
      obufs := Memory.writeBytes s.obufs 0 (recoveredPadded Config.cores s) }
    run (3 + (s.inLen.toNat - 16) / 16) (s.accept (encode .dect)) =
      .next (match unpad (recoveredPadded Config.cores s) with
        | .error k => a.fail k
        | .ok m => if utf8Valid m then a.complete m.length else a.fail .invalidEncoding)

/-- R185: the result law of DEC, as the host reads it, for every container that passes checks 1 to 3. -/
def Obligations.DecryptResultLaw : Prop :=
  ∀ s : State, s.env = [] → s.inLen.toNat ≤ Config.ibufBytes → s.keyLen = 32#8 → Memory.wf s.obufs = true →
    ∃ n t, run n (s.accept (encode .dec)) = .next t ∧ t.busy = false ∧ t.done = true ∧
      match decFn Config.cores s.key (operand s) with
      | .error .malformedInput => t.err = 2#3 ∧ t.outLen = 0#32
      | .error .invalidPadding => t.err = 3#3 ∧ t.outLen = 0#32
      | .error _ => False
      | .ok m => t.err = 0#3 ∧ t.outLen.toNat = m.length ∧ readableOutput t = m

/-- 44_decrypt.md R186: the round trip in hardware: encrypt (supplied IV, or drawn), MVOI, decrypt, and the plaintext is back. -/
def Obligations.HardwareRoundTrip : Prop :=
  ∀ (s : State) (text : Bool) (ivs : IvSelect) (r : Block), s.entPort = none → s.inLen.toNat + 32 ≤ Config.ibufBytes →
    s.keyLen = 32#8 → Memory.wf s.ibuf = true → Memory.wf s.obufs = true → s.busy = false →
    s.env = (match ivs with | .supplied => [] | .generate => [.sequencer, .entropy s.entReq r]) →
    ∃ n₁ n₂ t₁ t₂,
      run n₁ (hostAccess Config.cores (issue (encryptCommand text ivs)) s) = .next t₁ ∧ t₁.busy = false ∧ t₁.done = true ∧
      run n₂ (hostAccess Config.cores (issue .dec)
        (hostAccesses Config.cores (stmtAccesses (.mvoi (readableOutput t₁))) t₁)) = .next t₂ ∧
      t₂.busy = false ∧ t₂.done = true ∧ t₂.err = 0#3 ∧ t₂.outLen = s.inLen ∧ readableOutput t₂ = operand s

/-- 43_encrypt.md R166 and 42_iv_generation.md R152: GENIV with the draw `r` followed by ENC.S ends as ENC.G with the draw `r`, but for
CMDREG. -/
def Obligations.GenerateThenSupplyIsGenerate : Prop :=
  ∀ (s : State) (text : Bool) (r : Block), s.env = [.sequencer, .entropy s.entReq r] → s.entPort = none →
    s.inLen.toNat ≤ Config.ibufBytes → s.keyLen = 32#8 →
    ∃ t₁ t₂ t₃, run (3 + encBlocks s.inLen.toNat) (s.accept (encode (encryptCommand text .generate))) = .next t₁ ∧
      run 3 (s.accept (encode .geniv)) = .next t₂ ∧
      run (1 + encBlocks s.inLen.toNat) (t₂.accept (encode (encryptCommand text .supplied))) = .next t₃ ∧
      t₁.done = true ∧ t₁.iv = r ∧ { t₁ with cmdReg := t₃.cmdReg } = t₃

/-- 40_sequencer.md R122 (with R118 for ENT): every accepted command ends after finitely many steps, with DONE = 1. -/
def Obligations.EveryCommandEnds : Prop :=
  ∀ s : State, s.Inv Config.cores → s.env = [] → s.busy = true →
    ∃ n t, run n s = .next t ∧ t.busy = false ∧ t.done = true

/-- 40_sequencer.md R123: what a command leaves for the host depends only on the operand registers, the operand, CTRL and the draw. Two
machines at rest that agree on these end alike, step for step, whatever their hidden registers, STATUS, SEQ, OUT_LEN and output stores
hold, whatever lies in IBUF beyond the operand, and however many ENT requests came before. A word that draws takes its draw from the schedule (log entries 4, 5). -/
def Obligations.CommandsAreStateless : Prop :=
  ∀ (s₁ s₂ : State) (w : Word) (r : Block) (n : Nat) (t₁ : State),
    s₁.AtRest Config.cores → s₂.AtRest Config.cores →
    ((¬ drawsEntropy w ∧ s₁.env = [] ∧ s₂.env = []) ∨
      (s₁.env = [.sequencer, .entropy s₁.entReq r] ∧ s₂.env = [.sequencer, .entropy s₂.entReq r])) →
    s₁.inLen = s₂.inLen → s₁.keyLen = s₂.keyLen → s₁.key = s₂.key → s₁.iv = s₂.iv → s₁.ie = s₂.ie →
    operand s₁ = operand s₂ →
    run n (s₁.accept w) = .next t₁ → t₁.busy = false →
    ∃ t₂, run n (s₂.accept w) = .next t₂ ∧ t₂.busy = false ∧ t₂.done = t₁.done ∧ t₂.err = t₁.err ∧ t₂.outLen = t₁.outLen ∧
      t₂.key = t₁.key ∧ t₂.keyLen = t₁.keyLen ∧ t₂.iv = t₁.iv ∧ t₂.inLen = t₁.inLen ∧ t₂.ie = t₁.ie ∧
      t₂.cmdReg = t₁.cmdReg ∧ t₂.phase = t₁.phase ∧ t₂.bi = t₁.bi ∧
      operand t₂ = operand t₁ ∧ readableOutput t₂ = readableOutput t₁

/-! ### Invariants -/

/-- The invariant holds after reset. -/
def Obligations.ResetMeetsTheInvariant : Prop := State.reset.Inv Config.cores

/-- Every step from a state that meets the invariant, whatever the outside does, gives a state that meets it. -/
def Obligations.EveryStepKeepsTheInvariant : Prop :=
  ∀ s t : State, s.Inv Config.cores → step s = .next t → t.Inv Config.cores

/-- 20_memory.md R73 (none can fault) and 40_sequencer.md R122 (no deadlock): from a state that meets the invariant, every step
answers a next state. -/
def Obligations.NoStepStopsTheMachine : Prop :=
  ∀ s : State, s.Inv Config.cores → ∃ t, step s = .next t

/-- R46: its invariants hold in every state reached from reset, whatever the outside does. -/
def Obligations.ReachableStatesAreLegal : Prop :=
  ∀ (events : List Event) (n : Nat) (t : State),
    run n { State.reset with env := events } = .next t → t.Legal Config.cores

/-- 60_exceptions.md R230: a sequencer step that ends a command with a failure changes nothing but STATUS, OUT_LEN, SEQ and the hidden registers. -/
def Obligations.FailuresArePrecise : Prop :=
  ∀ s t : State, s.Inv Config.cores → s.busy = true → sequencerStep s = .next t → t.err ≠ 0#3 →
    t = { s with
      outLen := 0#32, err := t.err, busy := false, done := true, phase := .idle, bi := 0#24,
      cv := zeroBlock, lastp := zeroBlock, nb := 0#21, plen := 0#21 }

/-- 44_decrypt.md R188 and 10_state.md R33: between acceptance and completion, and after a failure, no byte of the output
store can be read. -/
def Obligations.NoPartialOutput : Prop :=
  ∀ (s : State) (off : Offset) (n : Nat), s.Inv Config.cores → (s.busy = true ∨ s.err ≠ 0#3) →
    0x200000 ≤ off.toNat →
    hostRead Config.cores s off.toNat n = .error ∨ hostRead Config.cores s off.toNat n = .readOkay 0#32

/-! ### The host bus -/

/-- R69: the accesses that get OKAY while BUSY = 1, exactly; every other gets ERROR and changes nothing. -/
def Obligations.BusyLockout : Prop :=
  ∀ (s : State) (a : HostAccess), s.busy = true →
    let okay : Prop := match a with
      | .read off n => n = 4 ∧ off.toNat % 4 = 0 ∧ off.toNat ≤ 0x020
      | .write off n _ => n = 4 ∧ (off = 0x008#22 ∨ off = 0x00C#22)
    (okay → match a with
      | .read _ _ => ∃ x, (hostAccess Config.cores a s).busResp = some (.readOkay x)
      | .write _ _ _ => (hostAccess Config.cores a s).busResp = some .writeOkay) ∧
    (¬ okay → hostAccess Config.cores a s = { s with busResp := some .error })

/-- 40_sequencer.md R110, R121: while a command runs, a host access can change nothing but the interrupt enable (DONE is 0 then). -/
def Obligations.HostCannotDisturbACommand : Prop :=
  ∀ (s : State) (a : HostAccess), s.busy = true → s.done = false →
    ∃ b r, hostAccess Config.cores a s = { s with ie := b, busResp := some r }

/-- 20_memory.md R61, R70: a read has no side effect and its response is what `HostRead` answers (R82); an access that gets ERROR
changes no state of CBCC; a write gets OKAY or ERROR. Where the response is kept is the model's choice (log entry 6). -/
def Obligations.ReadsAndErrorsChangeNothing : Prop :=
  (∀ (s : State) (off : Offset) (n : Nat),
    hostAccess Config.cores (.read off n) s = { s with busResp := some (hostRead Config.cores s off.toNat n) }) ∧
  (∀ (s : State) (a : HostAccess), (hostAccess Config.cores a s).busResp = some .error →
    hostAccess Config.cores a s = { s with busResp := some .error }) ∧
  (∀ (s : State) (off : Offset) (n : Nat) (v : Word),
    (hostAccess Config.cores (.write off n v) s).busResp = some .writeOkay ∨
      (hostAccess Config.cores (.write off n v) s).busResp = some .error)

/-- 20_memory.md R62, R64, R66, R67, R68: with BUSY = 0, the reads and the writes that get OKAY are exactly those of a mapped, rightly sized
and aligned location, for a write a writable one; every other gets ERROR. -/
def Obligations.MappedAccessesAreOkay : Prop :=
  ∀ (s : State) (off : Offset) (n : Nat) (v : Word), s.busy = false →
    let writable : Prop := (0x040 ≤ off.toNat ∧ off.toNat < 0x070) ∨
      (0x100000 ≤ off.toNat ∧ off.toNat < 0x100000 + Config.ibufBytes)
    let window : Prop := writable ∨ (0x200000 ≤ off.toNat ∧ off.toNat < 0x200000 + Config.cores.obufBytes)
    let writableCsr : Prop := off.toNat = 0x008 ∨ off.toNat = 0x00C ∨ off.toNat = 0x010 ∨ off.toNat = 0x014 ∨ off.toNat = 0x01C
    let readOk : Prop := (n = 1 ∧ window) ∨ (n = 4 ∧ off.toNat % 4 = 0 ∧ (off.toNat ≤ 0x020 ∨ window))
    let writeOk : Prop := (n = 1 ∧ writable) ∨ (n = 4 ∧ off.toNat % 4 = 0 ∧ (writableCsr ∨ writable))
    let afterRead := (hostAccess Config.cores (.read off n) s).busResp
    let afterWrite := (hostAccess Config.cores (.write off n v) s).busResp
    (readOk → ∃ x, afterRead = some (.readOkay x)) ∧ (¬ readOk → afterRead = some .error) ∧
    (writeOk → afterWrite = some .writeOkay) ∧ (¬ writeOk → afterWrite = some .error)

/-- 10_state.md R21 to R29: the value of every register as the host reads it, field by field, with the code of every phase. -/
def Obligations.RegisterReadValues : Prop :=
  ∀ s : State,
    let phaseCode : Nat := match s.phase with
      | .idle => 0 | .check => 1 | .ivgen => 2 | .kdf => 3 | .eblk => 4 | .dblk => 5 | .unpad => 6 | .text => 7 | .wipe => 8
    hostRead Config.cores s 0x000 4 = .readOkay 0x43424331#32 ∧
    (∃ v, hostRead Config.cores s 0x004 4 = .readOkay v ∧ v.toNat = Config.ibufBytes) ∧
    (∃ v, hostRead Config.cores s 0x008 4 = .readOkay v ∧ v.toNat = s.ie.toNat) ∧
    (∃ v, hostRead Config.cores s 0x00C 4 = .readOkay v ∧
      v.toNat = s.busy.toNat + 2 * s.done.toNat + 16 * s.err.toNat) ∧
    hostRead Config.cores s 0x010 4 = .readOkay s.cmdReg ∧
    hostRead Config.cores s 0x014 4 = .readOkay s.inLen ∧
    hostRead Config.cores s 0x018 4 = .readOkay s.outLen ∧
    (∃ v, hostRead Config.cores s 0x01C 4 = .readOkay v ∧ v.toNat = s.keyLen.toNat) ∧
    (∃ v, hostRead Config.cores s 0x020 4 = .readOkay v ∧ v.toNat = phaseCode + 256 * s.bi.toNat)

/-- 10_state.md R21 to R29 and 20_memory.md R68, R69, R71, R83: the effect of a write of each of the nine registers: CTRL and STATUS at any
time, CMD, IN_LEN and KEY_LEN while BUSY = 0 (ERROR while BUSY = 1), the four read-only registers never. -/
def Obligations.RegisterWriteEffects : Prop :=
  ∀ (s : State) (v : Word),
    hostWrite Config.cores s 0x008 4 v = some { s with ie := v.getLsbD 0 } ∧
    hostWrite Config.cores s 0x00C 4 v = some { s with done := s.done && !v.getLsbD 1 } ∧
    (s.busy = false →
      hostWrite Config.cores s 0x010 4 v = some { s with
        cmdReg := v, busy := true, done := false, err := 0#3, outLen := 0#32, phase := .check, bi := 0#24 } ∧
      hostWrite Config.cores s 0x014 4 v = some { s with inLen := v } ∧
      hostWrite Config.cores s 0x01C 4 v = some { s with keyLen := v.setWidth 8 }) ∧
    (s.busy = true →
      hostWrite Config.cores s 0x010 4 v = none ∧ hostWrite Config.cores s 0x014 4 v = none ∧
      hostWrite Config.cores s 0x01C 4 v = none) ∧
    hostWrite Config.cores s 0x000 4 v = none ∧ hostWrite Config.cores s 0x004 4 v = none ∧
    hostWrite Config.cores s 0x018 4 v = none ∧ hostWrite Config.cores s 0x020 4 v = none

/-- 20_memory.md R64, R65 and 10_state.md R30 to R33: a byte read of a window answers the byte that stands there, the OBUF window under its
mask; a word read is its four byte reads; a word write is its four byte writes, lowest offset first with bits [7:0]. -/
def Obligations.WordAccessIsFourByteAccesses : Prop :=
  ∀ (s : State) (w : Window) (i : Nat) (v : Word), s.busy = false → i % 4 = 0 → i + 4 ≤ w.size Config.ibufBytes →
    let at_ := windowBase w + i
    let b (k : Nat) : Word := (v.extractLsb' (8 * k) 8).setWidth 32
    let stored (k : Nat) : Byte := match w with
      | .key => byteAt s.key (i + k)
      | .iv => byteAt s.iv (i + k)
      | .ibuf => Memory.read s.ibuf (i + k)
      | .obuf => if i + k < s.outLen.toNat then Memory.read s.obufs (i + k) else 0#8
    (hostWrite Config.cores s at_ 4 v =
      (((hostWrite Config.cores s at_ 1 (b 0)).bind fun s => hostWrite Config.cores s (at_ + 1) 1 (b 1)).bind
        fun s => hostWrite Config.cores s (at_ + 2) 1 (b 2)).bind
        fun s => hostWrite Config.cores s (at_ + 3) 1 (b 3)) ∧
    (∀ k, k < 4 → hostRead Config.cores s (at_ + k) 1 = .readOkay ((stored k).setWidth 32)) ∧
    ∃ x : Word, hostRead Config.cores s at_ 4 = .readOkay x ∧
      x.toNat = (stored 0).toNat + 2 ^ 8 * (stored 1).toNat + 2 ^ 16 * (stored 2).toNat + 2 ^ 24 * (stored 3).toNat

/-- 20_memory.md R65, R83: a byte write of a writable window gets OKAY, the host reads the byte back there, every other byte of every window
reads as before, and nothing but KEY, IV and IBUF can differ. -/
def Obligations.WindowByteReadBack : Prop :=
  ∀ (s : State) (w : Window) (i : Nat) (b : Byte), s.busy = false → Memory.wf s.ibuf = true → w ≠ .obuf →
    i < w.size Config.ibufBytes →
    ∃ t, hostWrite Config.cores s (windowBase w + i) 1 (b.setWidth 32) = some t ∧
      hostRead Config.cores t (windowBase w + i) 1 = .readOkay (b.setWidth 32) ∧
      (∀ w' j, (w', j) ≠ (w, i) → j < w'.size Config.ibufBytes →
        hostRead Config.cores t (windowBase w' + j) 1 = hostRead Config.cores s (windowBase w' + j) 1) ∧
      (∀ w' j, (w', j) ≠ (w, i) → windowByte t w' j = windowByte s w' j) ∧
      t = { s with key := t.key, iv := t.iv, ibuf := t.ibuf }

/-- R80: the OBUF window under the mask, by byte and by word. -/
def Obligations.OutputWindowIsMasked : Prop :=
  ∀ (s : State) (i : Nat), s.busy = false →
    let shown (j : Nat) : Nat := if j < s.outLen.toNat then (Memory.read s.obufs j).toNat else 0
    (i < Config.cores.obufBytes → ∃ v, hostRead Config.cores s (0x200000 + i) 1 = .readOkay v ∧ v.toNat = shown i) ∧
    (i % 4 = 0 → i < Config.cores.obufBytes → ∃ v, hostRead Config.cores s (0x200000 + i) 4 = .readOkay v ∧
      v.toNat = shown i + 2 ^ 8 * shown (i + 1) + 2 ^ 16 * shown (i + 2) + 2 ^ 24 * shown (i + 3))

/-- 60_exceptions.md R231: the host's acknowledgement clears DONE and keeps ERR and OUT_LEN; the next acceptance clears DONE, ERR
and OUT_LEN. -/
def Obligations.AcknowledgeAndReturn : Prop :=
  ∀ (s : State) (w : Word),
    hostAccesses Config.cores (stmtAccesses .ack) s = { s with done := false, busResp := some .writeOkay } ∧
    (s.accept w).done = false ∧ (s.accept w).err = 0#3 ∧ (s.accept w).outLen = 0#32

/-- R234: the interrupt line: pending exactly while DONE = 1, enabled by IE, masked without losing DONE. -/
def Obligations.InterruptFollowsDone : Prop :=
  ∀ (s : State) (n : Nat) (k : ErrorKind) (w : Word),
    (irq s = true ↔ s.done = true ∧ s.ie = true) ∧ irq State.reset = false ∧
    irq (s.complete n) = s.ie ∧ irq (s.fail k) = s.ie ∧ irq (s.accept w) = false ∧
    irq (hostAccesses Config.cores (stmtAccesses .ack) s) = false ∧
    (let masked := hostAccess Config.cores (assignCsr .ctrl 0#32) s
     irq masked = false ∧ masked.done = s.done ∧
     irq (hostAccess Config.cores (assignCsr .ctrl 1#32) masked) = s.done)

/-- R102 (LDIN, LDKEY, LDIV): what the pseudo-statements leave, and that nothing else of CBCC changes. -/
def Obligations.LoadStatementsLoad : Prop :=
  ∀ (s : State) (bytes : List Byte) (k : Key) (v : Block), s.busy = false → Memory.wf s.ibuf = true →
    bytes.length ≤ Config.ibufBytes →
    (let t := hostAccesses Config.cores (stmtAccesses (.ldin bytes)) s
     operand t = bytes ∧ t.inLen.toNat = bytes.length ∧
     (∀ a, bytes.length ≤ a → Memory.read t.ibuf a = Memory.read s.ibuf a) ∧
     t = { s with ibuf := t.ibuf, inLen := t.inLen, busResp := t.busResp }) ∧
    hostAccesses Config.cores (stmtAccesses (.ldkey k)) s =
      { s with key := k, keyLen := 32#8, busResp := some .writeOkay } ∧
    hostAccesses Config.cores (stmtAccesses (.ldiv v)) s = { s with iv := v, busResp := some .writeOkay }

/-! ### Reset -/

/-- R45, R261: every item of the reset state. -/
def Obligations.ResetStateIsAllZero : Prop :=
  let s := State.reset
  s.ie = false ∧ s.busy = false ∧ s.done = false ∧ s.err = 0#3 ∧ s.cmdReg = 0#32 ∧ s.inLen = 0#32 ∧
  s.outLen = 0#32 ∧ s.keyLen = 0#8 ∧ s.phase = .idle ∧ s.bi = 0#24 ∧
  (∀ i, byteAt s.key i = 0#8) ∧ (∀ i, byteAt s.iv i = 0#8) ∧
  (∀ i, Memory.read s.ibuf i = 0#8) ∧ (∀ i, Memory.read s.obufs i = 0#8) ∧
  (∀ i, byteAt s.cv i = 0#8) ∧ (∀ i, byteAt s.lastp i = 0#8) ∧ s.nb = 0#21 ∧ s.plen = 0#21 ∧ irq s = false ∧
  hostRead Config.cores s 0x000 4 = .readOkay 0x43424331#32 ∧
  (∃ v, hostRead Config.cores s 0x004 4 = .readOkay v ∧ v.toNat = Config.ibufBytes) ∧
  ctrlWord s = 0#32 ∧ statusWord s = 0#32 ∧ keyLenWord s = 0#32 ∧ seqWord s = 0#32

/-- 70_reset_and_hazards.md R260, R262: reset from any state, also in the middle of a command, gives the reset state; DONE is not set. A request that was
outstanding is dropped: its late answer is ignored in every later state, also while a later request waits. That the schedule and the numbers of the requests
survive is the model's choice (log entries 11, 13). -/
def Obligations.ResetAbandonsTheCommand : Prop :=
  ∀ (s : State) (rest : List Event), s.env = .reset :: rest →
    let outstanding : Prop := s.busy = true ∧ s.phase = .ivgen ∧ s.entPort = none
    ∃ t, step s = .next t ∧ t = { State.reset with env := rest, entReq := t.entReq } ∧
      (outstanding → t.entReq = s.entReq + 1) ∧ (¬ outstanding → t.entReq = s.entReq) ∧
      (∀ req r, handleEvent (.entropy req r) t = .next t) ∧
      (outstanding → ∀ (n : Nat) (u : State) (r : Block), run n t = .next u →
        handleEvent (.entropy s.entReq r) u = .next u)

/-! ### The data path -/

/-- R6, R7: what may be assumed of the open parameters. -/
def Obligations.OpenParametersAreLawful : Prop :=
  Config.cores.Lawful ∧ ∀ k b, Config.cores.bcEnc k (Config.cores.bcDec k b) = b

/-- R10, R11: the padded message: its length, its blocks, and where padding can stand. -/
def Obligations.PaddingLaw : Prop :=
  ∀ m : List Byte,
    (pad m).length = 16 * (m.length / 16 + 1) ∧ 1 ≤ padLength m.length ∧ padLength m.length ≤ 16 ∧
    pad m = joinBlocks ((List.range (encBlocks m.length)).map (padBlock m)) ∧
    (∀ i, i + 1 < encBlocks m.length → padBlock m i = blockAt m i)

/-- 00_scope.md R13: CBC decryption undoes CBC encryption, for every cipher that has its inverse. -/
def Obligations.CbcDecryptUndoesEncrypt : Prop :=
  ∀ (c : Cores) (k : Key) (iv : Block) (x : List Byte), c.Lawful → x.length % 16 = 0 →
    cbcDecrypt c k iv (cbcEncrypt c k iv x) = x ∧ (cbcEncrypt c k iv x).length = x.length

/-- R14: `Unpad` on a whole number of blocks, and that it undoes `Pad`. -/
def Obligations.UnpadLaw : Prop :=
  (∀ x : List Byte, x ≠ [] → x.length % 16 = 0 →
    let p := (x.getD (x.length - 1) 0#8).toNat
    let bad := p = 0 ∨ 16 < p ∨ ∃ i, x.length - p ≤ i ∧ i < x.length ∧ (x.getD i 0#8).toNat ≠ p
    (bad → unpad x = .error .invalidPadding) ∧
    (¬ bad → unpad x = .ok (x.take (x.length - p)))) ∧
  (∀ m : List Byte, unpad (pad m) = .ok m)

/-- R15: `Utf8Valid` is being a concatenation of encoded code points. -/
def Obligations.Utf8ValidIsConcatenation : Prop :=
  ∀ t : List Byte, utf8Valid t = true ↔
    ∃ cs : List (List Byte), (∀ ch ∈ cs, wellFormedCodePoint ch) ∧ t = cs.flatten

/-- 00_scope.md R16 and 43_encrypt.md R164: the container's length, its bounds, and the raw IV at its front. -/
def Obligations.ContainerLayout : Prop :=
  ∀ (c : Cores) (k : Key) (iv : Block) (m : List Byte),
    (encFn c k iv m).length = blobLen m.length ∧ m.length + 17 ≤ blobLen m.length ∧ blobLen m.length ≤ m.length + 32 ∧
    (encFn c k iv m).take 16 = iv.toList ∧ (blobLen m.length) % 16 = 0

/-- R18: the round-trip law, for every lawful choice of the open parameters. -/
def Obligations.RoundTripLaw : Prop :=
  ∀ (c : Cores) (k : Key) (iv : Block) (m : List Byte), c.Lawful →
    decFn c k (encFn c k iv m) = .ok m

/-- 44_decrypt.md R190: changing a ciphertext block (or the IV) by a difference `d` changes the next plaintext block by the
same difference, and no block after that; the blocks before it stay. -/
def Obligations.TamperingIsLocal : Prop :=
  ∀ (c : Cores) (k : Key) (iv d x : Block) (before after : List Block),
    cbcDecryptBlocks (c.bcDec k) (xor16 iv d) (x :: after) =
      xor16 (xor16 (c.bcDec k x) iv) d :: cbcDecryptBlocks (c.bcDec k) x after ∧
    ∀ y, ∃ front garbled next back,
      cbcDecryptBlocks (c.bcDec k) iv (before ++ y :: x :: after) = front ++ garbled :: next :: back ∧
      (∃ garbled', cbcDecryptBlocks (c.bcDec k) iv (before ++ xor16 y d :: x :: after) =
        front ++ garbled' :: xor16 next d :: back) ∧
      front.length = before.length ∧ back.length = after.length

/-- 42_iv_generation.md R151: different draws give containers that differ in their first sixteen bytes and, for one plaintext
and key, in their first ciphertext block. -/
def Obligations.DifferentDrawsDifferentContainers : Prop :=
  ∀ (c : Cores) (k : Key) (r₁ r₂ : Block) (m : List Byte), c.Lawful → r₁ ≠ r₂ →
    (encFn c k r₁ m).take 16 ≠ (encFn c k r₂ m).take 16 ∧
    ((encFn c k r₁ m).drop 16).take 16 ≠ ((encFn c k r₂ m).drop 16).take 16
end

