-- ==== Sys2Proof/Laws/State.lean ====
section
/-! SUPPORT. One lemma per field per named update of the state, each true by rfl, so that no later proof unfolds a record
update. -/

namespace Sys2Proof.Machine

@[simp] theorem accept_ie (w : Word) (s : State) : (s.accept w).ie = s.ie := rfl
@[simp] theorem accept_busy (w : Word) (s : State) : (s.accept w).busy = true := rfl
@[simp] theorem accept_done (w : Word) (s : State) : (s.accept w).done = false := rfl
@[simp] theorem accept_err (w : Word) (s : State) : (s.accept w).err = 0#3 := rfl
@[simp] theorem accept_cmdReg (w : Word) (s : State) : (s.accept w).cmdReg = w := rfl
@[simp] theorem accept_inLen (w : Word) (s : State) : (s.accept w).inLen = s.inLen := rfl
@[simp] theorem accept_outLen (w : Word) (s : State) : (s.accept w).outLen = 0#32 := rfl
@[simp] theorem accept_keyLen (w : Word) (s : State) : (s.accept w).keyLen = s.keyLen := rfl
@[simp] theorem accept_phase (w : Word) (s : State) : (s.accept w).phase = .check := rfl
@[simp] theorem accept_bi (w : Word) (s : State) : (s.accept w).bi = 0#24 := rfl
@[simp] theorem accept_key (w : Word) (s : State) : (s.accept w).key = s.key := rfl
@[simp] theorem accept_iv (w : Word) (s : State) : (s.accept w).iv = s.iv := rfl
@[simp] theorem accept_ibuf (w : Word) (s : State) : (s.accept w).ibuf = s.ibuf := rfl
@[simp] theorem accept_obufs (w : Word) (s : State) : (s.accept w).obufs = s.obufs := rfl
@[simp] theorem accept_cv (w : Word) (s : State) : (s.accept w).cv = s.cv := rfl
@[simp] theorem accept_lastp (w : Word) (s : State) : (s.accept w).lastp = s.lastp := rfl
@[simp] theorem accept_nb (w : Word) (s : State) : (s.accept w).nb = s.nb := rfl
@[simp] theorem accept_plen (w : Word) (s : State) : (s.accept w).plen = s.plen := rfl
@[simp] theorem accept_entPort (w : Word) (s : State) : (s.accept w).entPort = s.entPort := rfl
@[simp] theorem accept_entReq (w : Word) (s : State) : (s.accept w).entReq = s.entReq := rfl
@[simp] theorem accept_busResp (w : Word) (s : State) : (s.accept w).busResp = s.busResp := rfl
@[simp] theorem accept_env (w : Word) (s : State) : (s.accept w).env = s.env := rfl

@[simp] theorem complete_ie (n : Nat) (s : State) : (s.complete n).ie = s.ie := rfl
@[simp] theorem complete_busy (n : Nat) (s : State) : (s.complete n).busy = false := rfl
@[simp] theorem complete_done (n : Nat) (s : State) : (s.complete n).done = true := rfl
@[simp] theorem complete_err (n : Nat) (s : State) : (s.complete n).err = 0#3 := rfl
@[simp] theorem complete_cmdReg (n : Nat) (s : State) : (s.complete n).cmdReg = s.cmdReg := rfl
@[simp] theorem complete_inLen (n : Nat) (s : State) : (s.complete n).inLen = s.inLen := rfl
@[simp] theorem complete_outLen (n : Nat) (s : State) : (s.complete n).outLen = BitVec.ofNat 32 n := rfl
@[simp] theorem complete_keyLen (n : Nat) (s : State) : (s.complete n).keyLen = s.keyLen := rfl
@[simp] theorem complete_phase (n : Nat) (s : State) : (s.complete n).phase = .idle := rfl
@[simp] theorem complete_bi (n : Nat) (s : State) : (s.complete n).bi = 0#24 := rfl
@[simp] theorem complete_key (n : Nat) (s : State) : (s.complete n).key = s.key := rfl
@[simp] theorem complete_iv (n : Nat) (s : State) : (s.complete n).iv = s.iv := rfl
@[simp] theorem complete_ibuf (n : Nat) (s : State) : (s.complete n).ibuf = s.ibuf := rfl
@[simp] theorem complete_obufs (n : Nat) (s : State) : (s.complete n).obufs = s.obufs := rfl
@[simp] theorem complete_cv (n : Nat) (s : State) : (s.complete n).cv = zeroBlock := rfl
@[simp] theorem complete_lastp (n : Nat) (s : State) : (s.complete n).lastp = zeroBlock := rfl
@[simp] theorem complete_nb (n : Nat) (s : State) : (s.complete n).nb = 0#21 := rfl
@[simp] theorem complete_plen (n : Nat) (s : State) : (s.complete n).plen = 0#21 := rfl
@[simp] theorem complete_entPort (n : Nat) (s : State) : (s.complete n).entPort = s.entPort := rfl
@[simp] theorem complete_entReq (n : Nat) (s : State) : (s.complete n).entReq = s.entReq := rfl
@[simp] theorem complete_busResp (n : Nat) (s : State) : (s.complete n).busResp = s.busResp := rfl
@[simp] theorem complete_env (n : Nat) (s : State) : (s.complete n).env = s.env := rfl

@[simp] theorem fail_ie (k : ErrorKind) (s : State) : (s.fail k).ie = s.ie := rfl
@[simp] theorem fail_busy (k : ErrorKind) (s : State) : (s.fail k).busy = false := rfl
@[simp] theorem fail_done (k : ErrorKind) (s : State) : (s.fail k).done = true := rfl
@[simp] theorem fail_err (k : ErrorKind) (s : State) : (s.fail k).err = k.code := rfl
@[simp] theorem fail_cmdReg (k : ErrorKind) (s : State) : (s.fail k).cmdReg = s.cmdReg := rfl
@[simp] theorem fail_inLen (k : ErrorKind) (s : State) : (s.fail k).inLen = s.inLen := rfl
@[simp] theorem fail_outLen (k : ErrorKind) (s : State) : (s.fail k).outLen = 0#32 := rfl
@[simp] theorem fail_keyLen (k : ErrorKind) (s : State) : (s.fail k).keyLen = s.keyLen := rfl
@[simp] theorem fail_phase (k : ErrorKind) (s : State) : (s.fail k).phase = .idle := rfl
@[simp] theorem fail_bi (k : ErrorKind) (s : State) : (s.fail k).bi = 0#24 := rfl
@[simp] theorem fail_key (k : ErrorKind) (s : State) : (s.fail k).key = s.key := rfl
@[simp] theorem fail_iv (k : ErrorKind) (s : State) : (s.fail k).iv = s.iv := rfl
@[simp] theorem fail_ibuf (k : ErrorKind) (s : State) : (s.fail k).ibuf = s.ibuf := rfl
@[simp] theorem fail_obufs (k : ErrorKind) (s : State) : (s.fail k).obufs = s.obufs := rfl
@[simp] theorem fail_cv (k : ErrorKind) (s : State) : (s.fail k).cv = zeroBlock := rfl
@[simp] theorem fail_lastp (k : ErrorKind) (s : State) : (s.fail k).lastp = zeroBlock := rfl
@[simp] theorem fail_nb (k : ErrorKind) (s : State) : (s.fail k).nb = 0#21 := rfl
@[simp] theorem fail_plen (k : ErrorKind) (s : State) : (s.fail k).plen = 0#21 := rfl
@[simp] theorem fail_entPort (k : ErrorKind) (s : State) : (s.fail k).entPort = s.entPort := rfl
@[simp] theorem fail_entReq (k : ErrorKind) (s : State) : (s.fail k).entReq = s.entReq := rfl
@[simp] theorem fail_busResp (k : ErrorKind) (s : State) : (s.fail k).busResp = s.busResp := rfl
@[simp] theorem fail_env (k : ErrorKind) (s : State) : (s.fail k).env = s.env := rfl

@[simp] theorem ackDone_ie (s : State) : (s.ackDone).ie = s.ie := rfl
@[simp] theorem ackDone_busy (s : State) : (s.ackDone).busy = s.busy := rfl
@[simp] theorem ackDone_done (s : State) : (s.ackDone).done = false := rfl
@[simp] theorem ackDone_err (s : State) : (s.ackDone).err = s.err := rfl
@[simp] theorem ackDone_cmdReg (s : State) : (s.ackDone).cmdReg = s.cmdReg := rfl
@[simp] theorem ackDone_inLen (s : State) : (s.ackDone).inLen = s.inLen := rfl
@[simp] theorem ackDone_outLen (s : State) : (s.ackDone).outLen = s.outLen := rfl
@[simp] theorem ackDone_keyLen (s : State) : (s.ackDone).keyLen = s.keyLen := rfl
@[simp] theorem ackDone_phase (s : State) : (s.ackDone).phase = s.phase := rfl
@[simp] theorem ackDone_bi (s : State) : (s.ackDone).bi = s.bi := rfl
@[simp] theorem ackDone_key (s : State) : (s.ackDone).key = s.key := rfl
@[simp] theorem ackDone_iv (s : State) : (s.ackDone).iv = s.iv := rfl
@[simp] theorem ackDone_ibuf (s : State) : (s.ackDone).ibuf = s.ibuf := rfl
@[simp] theorem ackDone_obufs (s : State) : (s.ackDone).obufs = s.obufs := rfl
@[simp] theorem ackDone_cv (s : State) : (s.ackDone).cv = s.cv := rfl
@[simp] theorem ackDone_lastp (s : State) : (s.ackDone).lastp = s.lastp := rfl
@[simp] theorem ackDone_nb (s : State) : (s.ackDone).nb = s.nb := rfl
@[simp] theorem ackDone_plen (s : State) : (s.ackDone).plen = s.plen := rfl
@[simp] theorem ackDone_entPort (s : State) : (s.ackDone).entPort = s.entPort := rfl
@[simp] theorem ackDone_entReq (s : State) : (s.ackDone).entReq = s.entReq := rfl
@[simp] theorem ackDone_busResp (s : State) : (s.ackDone).busResp = s.busResp := rfl
@[simp] theorem ackDone_env (s : State) : (s.ackDone).env = s.env := rfl

@[simp] theorem enter_ie (p : Phase) (s : State) : (s.enter p).ie = s.ie := rfl
@[simp] theorem enter_busy (p : Phase) (s : State) : (s.enter p).busy = s.busy := rfl
@[simp] theorem enter_done (p : Phase) (s : State) : (s.enter p).done = s.done := rfl
@[simp] theorem enter_err (p : Phase) (s : State) : (s.enter p).err = s.err := rfl
@[simp] theorem enter_cmdReg (p : Phase) (s : State) : (s.enter p).cmdReg = s.cmdReg := rfl
@[simp] theorem enter_inLen (p : Phase) (s : State) : (s.enter p).inLen = s.inLen := rfl
@[simp] theorem enter_outLen (p : Phase) (s : State) : (s.enter p).outLen = s.outLen := rfl
@[simp] theorem enter_keyLen (p : Phase) (s : State) : (s.enter p).keyLen = s.keyLen := rfl
@[simp] theorem enter_phase (p : Phase) (s : State) : (s.enter p).phase = p := rfl
@[simp] theorem enter_bi (p : Phase) (s : State) : (s.enter p).bi = s.bi := rfl
@[simp] theorem enter_key (p : Phase) (s : State) : (s.enter p).key = s.key := rfl
@[simp] theorem enter_iv (p : Phase) (s : State) : (s.enter p).iv = s.iv := rfl
@[simp] theorem enter_ibuf (p : Phase) (s : State) : (s.enter p).ibuf = s.ibuf := rfl
@[simp] theorem enter_obufs (p : Phase) (s : State) : (s.enter p).obufs = s.obufs := rfl
@[simp] theorem enter_cv (p : Phase) (s : State) : (s.enter p).cv = s.cv := rfl
@[simp] theorem enter_lastp (p : Phase) (s : State) : (s.enter p).lastp = s.lastp := rfl
@[simp] theorem enter_nb (p : Phase) (s : State) : (s.enter p).nb = s.nb := rfl
@[simp] theorem enter_plen (p : Phase) (s : State) : (s.enter p).plen = s.plen := rfl
@[simp] theorem enter_entPort (p : Phase) (s : State) : (s.enter p).entPort = s.entPort := rfl
@[simp] theorem enter_entReq (p : Phase) (s : State) : (s.enter p).entReq = s.entReq := rfl
@[simp] theorem enter_busResp (p : Phase) (s : State) : (s.enter p).busResp = s.busResp := rfl
@[simp] theorem enter_env (p : Phase) (s : State) : (s.enter p).env = s.env := rfl

@[simp] theorem encStart_ie (v : Block) (s : State) : (s.encStart v).ie = s.ie := rfl
@[simp] theorem encStart_busy (v : Block) (s : State) : (s.encStart v).busy = s.busy := rfl
@[simp] theorem encStart_done (v : Block) (s : State) : (s.encStart v).done = s.done := rfl
@[simp] theorem encStart_err (v : Block) (s : State) : (s.encStart v).err = s.err := rfl
@[simp] theorem encStart_cmdReg (v : Block) (s : State) : (s.encStart v).cmdReg = s.cmdReg := rfl
@[simp] theorem encStart_inLen (v : Block) (s : State) : (s.encStart v).inLen = s.inLen := rfl
@[simp] theorem encStart_outLen (v : Block) (s : State) : (s.encStart v).outLen = s.outLen := rfl
@[simp] theorem encStart_keyLen (v : Block) (s : State) : (s.encStart v).keyLen = s.keyLen := rfl
@[simp] theorem encStart_phase (v : Block) (s : State) : (s.encStart v).phase = .eblk := rfl
@[simp] theorem encStart_bi (v : Block) (s : State) : (s.encStart v).bi = 0#24 := rfl
@[simp] theorem encStart_key (v : Block) (s : State) : (s.encStart v).key = s.key := rfl
@[simp] theorem encStart_iv (v : Block) (s : State) : (s.encStart v).iv = s.iv := rfl
@[simp] theorem encStart_ibuf (v : Block) (s : State) : (s.encStart v).ibuf = s.ibuf := rfl
@[simp] theorem encStart_obufs (v : Block) (s : State) : (s.encStart v).obufs = Memory.writeBytes s.obufs 0 v.toList := rfl
@[simp] theorem encStart_cv (v : Block) (s : State) : (s.encStart v).cv = v := rfl
@[simp] theorem encStart_lastp (v : Block) (s : State) : (s.encStart v).lastp = s.lastp := rfl
@[simp] theorem encStart_nb (v : Block) (s : State) : (s.encStart v).nb = BitVec.ofNat 21 (encBlocks s.inLen.toNat) := rfl
@[simp] theorem encStart_plen (v : Block) (s : State) : (s.encStart v).plen = s.plen := rfl
@[simp] theorem encStart_entPort (v : Block) (s : State) : (s.encStart v).entPort = s.entPort := rfl
@[simp] theorem encStart_entReq (v : Block) (s : State) : (s.encStart v).entReq = s.entReq := rfl
@[simp] theorem encStart_busResp (v : Block) (s : State) : (s.encStart v).busResp = s.busResp := rfl
@[simp] theorem encStart_env (v : Block) (s : State) : (s.encStart v).env = s.env := rfl

@[simp] theorem decStart_ie (s : State) : (s.decStart).ie = s.ie := rfl
@[simp] theorem decStart_busy (s : State) : (s.decStart).busy = s.busy := rfl
@[simp] theorem decStart_done (s : State) : (s.decStart).done = s.done := rfl
@[simp] theorem decStart_err (s : State) : (s.decStart).err = s.err := rfl
@[simp] theorem decStart_cmdReg (s : State) : (s.decStart).cmdReg = s.cmdReg := rfl
@[simp] theorem decStart_inLen (s : State) : (s.decStart).inLen = s.inLen := rfl
@[simp] theorem decStart_outLen (s : State) : (s.decStart).outLen = s.outLen := rfl
@[simp] theorem decStart_keyLen (s : State) : (s.decStart).keyLen = s.keyLen := rfl
@[simp] theorem decStart_phase (s : State) : (s.decStart).phase = .dblk := rfl
@[simp] theorem decStart_bi (s : State) : (s.decStart).bi = 0#24 := rfl
@[simp] theorem decStart_key (s : State) : (s.decStart).key = s.key := rfl
@[simp] theorem decStart_iv (s : State) : (s.decStart).iv = s.iv := rfl
@[simp] theorem decStart_ibuf (s : State) : (s.decStart).ibuf = s.ibuf := rfl
@[simp] theorem decStart_obufs (s : State) : (s.decStart).obufs = s.obufs := rfl
@[simp] theorem decStart_cv (s : State) : (s.decStart).cv = blockOfBytes (Memory.slice s.ibuf 0 16) := rfl
@[simp] theorem decStart_lastp (s : State) : (s.decStart).lastp = s.lastp := rfl
@[simp] theorem decStart_nb (s : State) : (s.decStart).nb = BitVec.ofNat 21 ((s.inLen.toNat - 16) / 16) := rfl
@[simp] theorem decStart_plen (s : State) : (s.decStart).plen = s.plen := rfl
@[simp] theorem decStart_entPort (s : State) : (s.decStart).entPort = s.entPort := rfl
@[simp] theorem decStart_entReq (s : State) : (s.decStart).entReq = s.entReq := rfl
@[simp] theorem decStart_busResp (s : State) : (s.decStart).busResp = s.busResp := rfl
@[simp] theorem decStart_env (s : State) : (s.decStart).env = s.env := rfl

@[simp] theorem wipe_ie (s : State) : (s.wipe).ie = s.ie := rfl
@[simp] theorem wipe_busy (s : State) : (s.wipe).busy = s.busy := rfl
@[simp] theorem wipe_done (s : State) : (s.wipe).done = s.done := rfl
@[simp] theorem wipe_err (s : State) : (s.wipe).err = s.err := rfl
@[simp] theorem wipe_cmdReg (s : State) : (s.wipe).cmdReg = s.cmdReg := rfl
@[simp] theorem wipe_inLen (s : State) : (s.wipe).inLen = 0#32 := rfl
@[simp] theorem wipe_outLen (s : State) : (s.wipe).outLen = s.outLen := rfl
@[simp] theorem wipe_keyLen (s : State) : (s.wipe).keyLen = 0#8 := rfl
@[simp] theorem wipe_phase (s : State) : (s.wipe).phase = s.phase := rfl
@[simp] theorem wipe_bi (s : State) : (s.wipe).bi = s.bi := rfl
@[simp] theorem wipe_key (s : State) : (s.wipe).key = zeroKey := rfl
@[simp] theorem wipe_iv (s : State) : (s.wipe).iv = zeroBlock := rfl
@[simp] theorem wipe_ibuf (s : State) : (s.wipe).ibuf = [] := rfl
@[simp] theorem wipe_obufs (s : State) : (s.wipe).obufs = [] := rfl
@[simp] theorem wipe_cv (s : State) : (s.wipe).cv = s.cv := rfl
@[simp] theorem wipe_lastp (s : State) : (s.wipe).lastp = s.lastp := rfl
@[simp] theorem wipe_nb (s : State) : (s.wipe).nb = s.nb := rfl
@[simp] theorem wipe_plen (s : State) : (s.wipe).plen = s.plen := rfl
@[simp] theorem wipe_entPort (s : State) : (s.wipe).entPort = s.entPort := rfl
@[simp] theorem wipe_entReq (s : State) : (s.wipe).entReq = s.entReq := rfl
@[simp] theorem wipe_busResp (s : State) : (s.wipe).busResp = s.busResp := rfl
@[simp] theorem wipe_env (s : State) : (s.wipe).env = s.env := rfl

end Sys2Proof.Machine
end

