-- ==== Sys2Proof/Laws/Bus.lean ====
section
/-! SUPPORT. What the host bus can do, said once: where an offset lies, what a read answers, what a write can change
(spec/20_memory.md R62, R69, R82, R83). -/

namespace Sys2Proof.Machine

theorem accessShapeOk_iff {off n : Nat} : accessShapeOk off n = true ↔ n = 1 ∨ (n = 4 ∧ off % 4 = 0) := by
  simp [accessShapeOk]

/-- Where the bytes of an access lie, row by row (R62). -/
theorem locate_eq_some {c : Cores} {off n i : Nat} {what : Location} (h : locate c off n = some (what, i)) :
    (∃ r, what = .csr r ∧ off = csrOffset r + i ∧ i + n ≤ 4) ∨
    (∃ w, what = .window w ∧ off = windowBase w + i ∧ i + n ≤ w.size c.ibufBytes) := by
  unfold locate at h
  rw [Option.map_eq_some_iff] at h
  obtain ⟨row, hrow, heq⟩ := h
  have hmem := List.mem_of_find?_eq_some hrow
  have hholds := List.find?_some hrow
  simp only [MapRow.holds, Bool.and_eq_true, decide_eq_true_eq] at hholds
  obtain ⟨rfl, rfl⟩ := Prod.mk.inj heq
  simp only [memoryMap, List.mem_cons, List.not_mem_nil, or_false] at hmem
  rcases hmem with rfl | rfl | rfl | rfl | rfl | rfl | rfl | rfl | rfl | rfl | rfl | rfl | rfl
  all_goals first
    | (refine .inl ⟨_, rfl, ?_, ?_⟩ <;> simp [csrOffset] at hholds ⊢ <;> omega)
    | (refine .inr ⟨_, rfl, ?_, ?_⟩ <;> simp [windowBase, Window.size, Cores.obufBytes] at hholds ⊢ <;> omega)

/-- A register's four bytes. -/
theorem locate_csr (c : Cores) (r : Csr) : locate c (csrOffset r) 4 = some (.csr r, 0) := by
  cases r <;> simp [locate, memoryMap, MapRow.holds, csrOffset]

/-- The map is read row by row. -/
theorem find_row (row : MapRow) (rows : List MapRow) (off n : Nat) :
    (row :: rows).find? (fun r => r.holds off n) =
      if row.base ≤ off ∧ off + n ≤ row.base + row.size then some row else rows.find? fun r => r.holds off n := by
  by_cases h : row.base ≤ off ∧ off + n ≤ row.base + row.size
  · simp [MapRow.holds, h]
  · have : row.holds off n = false := by simp [MapRow.holds]; omega
    simp [this, h]

/-- Bytes of a window, none of which is past its end. -/
theorem locate_window {c : Cores} {w : Window} {i n : Nat} (hc : c.ibufBytes ≤ 1048544) (hn : 1 ≤ n)
    (hi : i + n ≤ w.size c.ibufBytes) : locate c (windowBase w + i) n = some (.window w, i) := by
  cases w <;> simp only [Window.size] at hi <;>
    simp only [locate, memoryMap, find_row, windowBase, Cores.obufBytes]
  all_goals
    repeat rw [if_neg (by omega)]
    rw [if_pos (by omega)]
    simp

/-- Nothing stands at an offset that no row holds (R62, R67). -/
theorem locate_eq_none {c : Cores} {off n : Nat}
    (hr : ∀ r, ¬ (csrOffset r ≤ off ∧ off + n ≤ csrOffset r + 4))
    (hw : ∀ w, ¬ (windowBase w ≤ off ∧ off + n ≤ windowBase w + w.size c.ibufBytes)) : locate c off n = none := by
  cases h : locate c off n with
  | none => rfl
  | some x =>
    obtain ⟨what, i⟩ := x
    rcases locate_eq_some h with ⟨r, _, h1, h2⟩ | ⟨w, _, h1, h2⟩
    · exact absurd ⟨by omega, by omega⟩ (hr r)
    · exact absurd ⟨by omega, by omega⟩ (hw w)

/-- Everything a register write can do (R68, R69, R83). -/
theorem writeCsr_eq_some {s t : State} {r : Csr} {v : Word} (h : writeCsr s r v = some t) :
    (r = .ctrl ∧ t = { s with ie := v.getLsbD 0 }) ∨
    (r = .status ∧ t = { s with done := s.done && !v.getLsbD 1 }) ∨
    (s.busy = false ∧
      ((r = .cmd ∧ t = s.accept v) ∨ (r = .inLen ∧ t = { s with inLen := v }) ∨
        (r = .keyLen ∧ t = { s with keyLen := v.extractLsb' 0 8 }))) := by
  cases r <;> simp only [writeCsr, reduceCtorEq] at h
  · exact .inl ⟨rfl, by simpa using h.symm⟩
  · refine .inr (.inl ⟨rfl, ?_⟩)
    generalize v.getLsbD 1 = b at h ⊢
    cases b <;> simp at h <;> simp [← h, State.ackDone]
  all_goals
    cases hb : s.busy <;> simp [hb] at h
    simp [← h]

/-- Everything a window write can do (R68, R69, R83). -/
theorem writeWindow_eq_some {s t : State} {w : Window} {i : Nat} {bytes : List Byte}
    (h : writeWindow s w i bytes = some t) :
    s.busy = false ∧
      ((w = .key ∧ t = { s with key := setBytes s.key i bytes }) ∨
        (w = .iv ∧ t = { s with iv := setBytes s.iv i bytes }) ∨
        (w = .ibuf ∧ t = { s with ibuf := Memory.writeBytes s.ibuf i bytes })) := by
  unfold writeWindow at h
  cases hb : s.busy <;> simp [hb] at h
  cases w <;> simp at h <;> simp [← h]

/-- Everything a host write that gets OKAY can do: which access it was and the state it leaves (R83). -/
theorem hostWrite_eq_some {c : Cores} {s t : State} {off n : Nat} {v : Word} (h : hostWrite c s off n v = some t) :
    (n = 4 ∧ ∃ r, off = csrOffset r ∧ writeCsr s r v = some t) ∨
    ((n = 1 ∨ n = 4 ∧ off % 4 = 0) ∧ ∃ w i, off = windowBase w + i ∧ i + n ≤ w.size c.ibufBytes ∧
      writeWindow s w i ((wordBytes v).take n) = some t) := by
  unfold hostWrite at h
  split at h
  · rename_i hshape
    rw [accessShapeOk_iff] at hshape
    split at h
    · cases h
    · rename_i r i hloc
      split at h
      · rename_i hn
        subst hn
        rcases locate_eq_some hloc with ⟨r', hr, h1, h2⟩ | ⟨w, hw, _, _⟩
        · cases hr
          exact .inl ⟨rfl, r, by omega, h⟩
        · cases hw
      · cases h
    · rename_i w i hloc
      rcases locate_eq_some hloc with ⟨r, hr, _, _⟩ | ⟨w', hw, h1, h2⟩
      · cases hr
      · cases hw
        exact .inr ⟨hshape, w, i, h1, h2, h⟩
  · cases h

/-- A register write by its offset. -/
theorem hostWrite_csr (c : Cores) (s : State) (r : Csr) (v : Word) :
    hostWrite c s (csrOffset r) 4 v = writeCsr s r v := by
  have h : accessShapeOk (csrOffset r) 4 = true := by cases r <;> rfl
  simp [hostWrite, h, locate_csr]

/-- A window write by its index. -/
theorem hostWrite_window {c : Cores} {s : State} {w : Window} {i n : Nat} {v : Word} (hc : c.ibufBytes ≤ 1048544)
    (hn : n = 1 ∨ n = 4 ∧ i % 4 = 0) (hi : i + n ≤ w.size c.ibufBytes) :
    hostWrite c s (windowBase w + i) n v = writeWindow s w i ((wordBytes v).take n) := by
  have h : accessShapeOk (windowBase w + i) n = true := by
    rw [accessShapeOk_iff]
    rcases hn with hn | ⟨hn, hm⟩
    · exact .inl hn
    · exact .inr ⟨hn, by cases w <;> simp [windowBase] <;> omega⟩
  simp only [hostWrite, h, if_true, locate_window hc (by omega : 1 ≤ n) hi]

/-- A register read by its offset. -/
theorem hostRead_csr (c : Cores) (s : State) (r : Csr) :
    hostRead c s (csrOffset r) 4 = .readOkay (csrWord c s r) := by
  have h : accessShapeOk (csrOffset r) 4 = true := by cases r <;> rfl
  simp [hostRead, h, locate_csr]

/-- A window read by its index. -/
theorem hostRead_window {c : Cores} {s : State} {w : Window} {i n : Nat} (hc : c.ibufBytes ≤ 1048544)
    (hn : n = 1 ∨ n = 4 ∧ i % 4 = 0) (hi : i + n ≤ w.size c.ibufBytes) :
    hostRead c s (windowBase w + i) n =
      if s.busy then .error else .readOkay (BitVec.ofNat 32 (leValue (windowBytes s w i n))) := by
  have h : accessShapeOk (windowBase w + i) n = true := by
    rw [accessShapeOk_iff]
    rcases hn with hn | ⟨hn, hm⟩
    · exact .inl hn
    · exact .inr ⟨hn, by cases w <;> simp [windowBase] <;> omega⟩
  simp only [hostRead, h, if_true, locate_window hc (by omega : 1 ≤ n) hi]

/-- One byte of a window read by its index. -/
theorem hostRead_byte {c : Cores} {s : State} {w : Window} {i : Nat} (hc : c.ibufBytes ≤ 1048544)
    (hi : i < w.size c.ibufBytes) :
    hostRead c s (windowBase w + i) 1 = if s.busy then .error else .readOkay ((windowByte s w i).setWidth 32) := by
  rw [hostRead_window hc (.inl rfl) hi]
  simp [windowBytes, leValue]

/-- Everything a read can answer: which access got OKAY, and its value (R82). -/
theorem hostRead_cases (c : Cores) (s : State) (off n : Nat) :
    hostRead c s off n = .error ∨
    (n = 4 ∧ ∃ r, off = csrOffset r ∧ hostRead c s off n = .readOkay (csrWord c s r)) ∨
    (s.busy = false ∧ (n = 1 ∨ n = 4 ∧ off % 4 = 0) ∧ ∃ w i, off = windowBase w + i ∧ i + n ≤ w.size c.ibufBytes ∧
      hostRead c s off n = .readOkay (BitVec.ofNat 32 (leValue (windowBytes s w i n)))) := by
  unfold hostRead
  split
  · rename_i hshape
    rw [accessShapeOk_iff] at hshape
    split
    · exact .inl rfl
    · rename_i r i hloc
      split
      · rename_i hn
        subst hn
        rcases locate_eq_some hloc with ⟨r', hr, h1, h2⟩ | ⟨w, hw, _, _⟩
        · cases hr
          exact .inr (.inl ⟨rfl, r, by omega, rfl⟩)
        · cases hw
      · exact .inl rfl
    · rename_i w i hloc
      rcases locate_eq_some hloc with ⟨r, hr, _, _⟩ | ⟨w', hw, h1, h2⟩
      · cases hr
      · cases hw
        cases hb : s.busy
        · exact .inr (.inr ⟨rfl, hshape, w, i, h1, h2, rfl⟩)
        · exact .inl rfl
  · exact .inl rfl

/-- What a host access does (R61): a read, an OKAY write, or an ERROR write. -/
theorem hostAccess_cases (c : Cores) (a : HostAccess) (s : State) :
    (∃ r, hostAccess c a s = { s with busResp := some r }) ∨
    (∃ off n v t, a = .write off n v ∧ hostWrite c s off.toNat n v = some t ∧
      hostAccess c a s = { t with busResp := some .writeOkay }) := by
  cases a with
  | read off n => exact .inl ⟨_, rfl⟩
  | write off n v =>
    cases h : hostWrite c s off.toNat n v with
    | none => exact .inl ⟨.error, by simp [hostAccess, h]⟩
    | some t => exact .inr ⟨off, n, v, t, rfl, h, by simp [hostAccess, h]⟩

/-! ### The writes that get OKAY with BUSY = 0 -/

theorem writeCsr_cmd {s : State} {v : Word} (hb : s.busy = false) : writeCsr s .cmd v = some (s.accept v) := by
  simp [writeCsr, hb]

theorem writeCsr_inLen {s : State} {v : Word} (hb : s.busy = false) :
    writeCsr s .inLen v = some { s with inLen := v } := by
  simp [writeCsr, hb]

theorem writeCsr_keyLen {s : State} {v : Word} (hb : s.busy = false) :
    writeCsr s .keyLen v = some { s with keyLen := v.extractLsb' 0 8 } := by
  simp [writeCsr, hb]

theorem writeWindow_key {s : State} {i : Nat} {bs : List Byte} (hb : s.busy = false) :
    writeWindow s .key i bs = some { s with key := setBytes s.key i bs } := by
  simp [writeWindow, hb]

theorem writeWindow_iv {s : State} {i : Nat} {bs : List Byte} (hb : s.busy = false) :
    writeWindow s .iv i bs = some { s with iv := setBytes s.iv i bs } := by
  simp [writeWindow, hb]

theorem writeWindow_ibuf {s : State} {i : Nat} {bs : List Byte} (hb : s.busy = false) :
    writeWindow s .ibuf i bs = some { s with ibuf := Memory.writeBytes s.ibuf i bs } := by
  simp [writeWindow, hb]

/-! ### Script accesses -/

theorem hostAccess_write_some {c : Cores} {s t : State} {off : Offset} {n : Nat} {v : Word}
    (h : hostWrite c s off.toNat n v = some t) :
    hostAccess c (.write off n v) s = { t with busResp := some .writeOkay } := by
  simp [hostAccess, h]

theorem hostAccess_write_none {c : Cores} {s : State} {off : Offset} {n : Nat} {v : Word}
    (h : hostWrite c s off.toNat n v = none) :
    hostAccess c (.write off n v) s = { s with busResp := some .error } := by
  simp [hostAccess, h]

/-- `WR reg, v` where the register takes the write (R100). -/
theorem assignCsr_some {c : Cores} {s t : State} {r : Csr} {v : Word} (h : writeCsr s r v = some t) :
    hostAccess c (assignCsr r v) s = { t with busResp := some .writeOkay } := by
  apply hostAccess_write_some
  have : (BitVec.ofNat 22 (csrOffset r)).toNat = csrOffset r := by cases r <;> rfl
  rw [this, hostWrite_csr, h]

/-- An index inside a window is inside the offset space, and its offset is exact (R60, R62). -/
theorem windowOffset_toNat {cap : Nat} {w : Window} {i : Nat} (hc : cap ≤ 1048544) (hi : i < w.size cap) :
    (windowOffset w i).toNat = windowBase w + i := by
  cases w <;> simp only [windowOffset, windowBase, Window.size, BitVec.toNat_ofNat] at hi ⊢ <;> omega

/-- A byte of `WRB` where the window takes the write (R100). -/
theorem assignByte_some {c : Cores} {s t : State} {w : Window} {i : Nat} {b : Byte} (hc : c.ibufBytes ≤ 1048544)
    (hi : i < w.size c.ibufBytes) (h : writeWindow s w i [b] = some t) :
    hostAccess c (assignByte w i b) s = { t with busResp := some .writeOkay } := by
  apply hostAccess_write_some
  have h1 := windowOffset_toNat hc hi
  have h2 : byteOf (b.setWidth 32) 0 = b := by simp [byteOf, BitVec.extractLsb'_setWidth_of_le]
  rw [h1, hostWrite_window hc (.inl rfl) (by omega)]
  simp only [wordBytes, List.take_succ_cons, List.take_zero, h2, h]

/-- Accesses one after another. -/
theorem hostAccesses_append (c : Cores) (xs ys : List HostAccess) (s : State) :
    hostAccesses c (xs ++ ys) s = hostAccesses c ys (hostAccesses c xs s) := by
  induction xs generalizing s with
  | nil => rfl
  | cons x xs ih => exact ih _

end Sys2Proof.Machine
end

