-- ==== Sys2Proof/Laws/DataPath.lean ====
section
/-! SUPPORT. The laws of the data path: bytes and blocks, padding, chaining. -/

namespace Sys2Proof.Machine

/-! ### Blocks as bytes -/

theorem block_ext {a b : Block} (h : ∀ j, j < 16 → byteAt a j = byteAt b j) : a = b := by
  apply Vector.ext
  intro j hj
  simpa [byteAt, Vector.getD, hj] using h j hj

theorem byteAt_of_lt {n : Nat} (v : Vector Byte n) {i : Nat} (h : i < n) : byteAt v i = v[i] := by
  simp [byteAt, Vector.getD, h]

theorem byteAt_of_ge {n : Nat} (v : Vector Byte n) {i : Nat} (h : n ≤ i) : byteAt v i = 0#8 := by
  have : ¬ i < n := by omega
  simp [byteAt, Vector.getD, this]

@[simp] theorem byteAt_blockOf (f : Nat → Byte) {j : Nat} (h : j < 16) : byteAt (blockOf f) j = f j := by
  simp [byteAt_of_lt _ h, blockOf]

@[simp] theorem byteAt_xor16 (a b : Block) (j : Nat) : byteAt (xor16 a b) j = byteAt a j ^^^ byteAt b j := by
  by_cases h : j < 16
  · simp [byteAt_of_lt _ h, xor16]
  · simp [byteAt_of_ge _ (Nat.le_of_not_lt h)]

theorem toList_getD {n : Nat} (v : Vector Byte n) (j : Nat) : v.toList.getD j 0#8 = byteAt v j := by
  by_cases h : j < n
  · simp [byteAt_of_lt _ h, List.getD, h]
  · simp [byteAt_of_ge _ (Nat.le_of_not_lt h), List.getD, h]

theorem xor16_cancel (a b : Block) : xor16 (xor16 a b) b = a :=
  block_ext fun j _ => by simp

theorem xor16_right_comm (a b d : Block) : xor16 a (xor16 b d) = xor16 (xor16 a b) d :=
  block_ext fun j _ => by simp [BitVec.xor_assoc]

theorem xor16_left_injective {a b d : Block} (h : xor16 d a = xor16 d b) : a = b :=
  block_ext fun j _ => by simpa using congrArg (byteAt · j) h

/-! ### Lists of blocks -/

@[simp] theorem joinBlocks_nil : joinBlocks [] = [] := rfl

@[simp] theorem joinBlocks_cons (b : Block) (bs : List Block) : joinBlocks (b :: bs) = b.toList ++ joinBlocks bs := rfl

theorem joinBlocks_append (xs ys : List Block) : joinBlocks (xs ++ ys) = joinBlocks xs ++ joinBlocks ys := by
  simp [joinBlocks]

@[simp] theorem length_joinBlocks (bs : List Block) : (joinBlocks bs).length = 16 * bs.length := by
  induction bs with
  | nil => rfl
  | cons b bs ih => simp [ih]; omega

@[simp] theorem length_splitBlocks (x : List Byte) : (splitBlocks x).length = x.length / 16 := by
  simp [splitBlocks]

/-- The first block of a sequence that begins with a block. -/
theorem blockAt_append_zero (b : Block) (rest : List Byte) : blockAt (b.toList ++ rest) 0 = b := by
  apply block_ext
  intro j hj
  rw [blockAt, byteAt_blockOf _ hj, List.getD_append _ _ _ _ (by simpa using hj)]
  simpa using toList_getD b j

theorem blockAt_append_succ (b : Block) (rest : List Byte) (i : Nat) :
    blockAt (b.toList ++ rest) (i + 1) = blockAt rest i := by
  apply block_ext
  intro j hj
  have h : 16 ≤ 16 * (i + 1) + j := by omega
  rw [blockAt, blockAt, byteAt_blockOf _ hj, byteAt_blockOf _ hj,
    List.getD_append_right _ _ _ _ (by simpa using h)]
  congr 1
  simp
  omega

theorem splitBlocks_append (b : Block) (rest : List Byte) :
    splitBlocks (b.toList ++ rest) = b :: splitBlocks rest := by
  have h : (b.toList ++ rest).length / 16 = rest.length / 16 + 1 := by simp
  rw [splitBlocks, h, List.range_succ_eq_map, List.map_cons, blockAt_append_zero, List.map_map, splitBlocks]
  congr 1
  apply List.map_congr_left
  intro i _
  exact blockAt_append_succ b rest i

@[simp] theorem splitBlocks_joinBlocks (bs : List Block) : splitBlocks (joinBlocks bs) = bs := by
  induction bs with
  | nil => rfl
  | cons b bs ih => rw [joinBlocks_cons, splitBlocks_append, ih]

/-- A sequence of at least sixteen bytes is its first block and the rest. -/
theorem eq_blockAt_append (x : List Byte) (h : 16 ≤ x.length) : x = (blockAt x 0).toList ++ x.drop 16 := by
  have hlen : (blockAt x 0).toList = x.take 16 := by
    apply List.ext_getElem
    · simp; omega
    · intro j h1 h2
      have hj : j < 16 := by simpa using h1
      have hx : j < x.length := by omega
      simp [blockAt, blockOf, hx, List.getD]
  rw [hlen, List.take_append_drop]

theorem joinBlocks_splitBlocks {x : List Byte} (h : x.length % 16 = 0) : joinBlocks (splitBlocks x) = x := by
  generalize hn : x.length / 16 = n
  induction n generalizing x with
  | zero =>
    have : x = [] := List.length_eq_zero_iff.mp (by omega)
    subst this; rfl
  | succ n ih =>
    have hx := eq_blockAt_append x (by omega)
    rw [hx, splitBlocks_append, joinBlocks_cons, ih (by simp; omega) (by simp; omega)]

/-! ### Padding -/

theorem padLength_pos (n : Nat) : 1 ≤ padLength n := by unfold padLength; omega

theorem padLength_le (n : Nat) : padLength n ≤ 16 := by unfold padLength; omega

@[simp] theorem toNat_padByte (n : Nat) : (padByte n).toNat = padLength n := by
  have := padLength_le n
  simp [padByte]; omega

@[simp] theorem length_pad (m : List Byte) : (pad m).length = 16 * (m.length / 16 + 1) := by
  simp [pad, padLength]; omega

theorem pad_getD {m : List Byte} {i : Nat} (h : i < (pad m).length) :
    (pad m).getD i 0#8 = if i < m.length then m.getD i 0#8 else padByte m.length := by
  split
  · rename_i hi
    rw [pad, List.getD_append _ _ _ _ hi]
  · rename_i hi
    have hlen : (pad m).length = m.length + padLength m.length := by simp [pad]
    rw [pad, List.getD_append_right _ _ _ _ (by omega), List.getD_replicate]
    omega

theorem blockAt_pad {m : List Byte} {i : Nat} (h : i < encBlocks m.length) : blockAt (pad m) i = padBlock m i := by
  apply block_ext
  intro j hj
  unfold encBlocks at h
  rw [blockAt, padBlock, byteAt_blockOf _ hj, byteAt_blockOf _ hj, pad_getD (by rw [length_pad]; omega)]

/-- The padded message is its blocks (R11). -/
theorem splitBlocks_pad (m : List Byte) : splitBlocks (pad m) = (List.range (encBlocks m.length)).map (padBlock m) := by
  have h : (pad m).length / 16 = encBlocks m.length := by rw [length_pad, encBlocks]; omega
  rw [splitBlocks, h]
  apply List.map_congr_left
  intro i hi
  exact blockAt_pad (by simpa using hi)

/-! ### Chaining -/

@[simp] theorem length_cbcEncryptBlocks (f : Block → Block) (iv : Block) (xs : List Block) :
    (cbcEncryptBlocks f iv xs).length = xs.length := by
  induction xs generalizing iv with
  | nil => rfl
  | cons x xs ih => simp [cbcEncryptBlocks, ih]

@[simp] theorem length_cbcDecryptBlocks (f : Block → Block) (iv : Block) (xs : List Block) :
    (cbcDecryptBlocks f iv xs).length = xs.length := by
  induction xs generalizing iv with
  | nil => rfl
  | cons x xs ih => simp [cbcDecryptBlocks, ih]

/-- The chaining value after some blocks: the last ciphertext block, or the one the chain started from. -/
def chainAfter (iv : Block) (cs : List Block) : Block := cs.getLast?.getD iv

@[simp] theorem chainAfter_nil (iv : Block) : chainAfter iv [] = iv := rfl

@[simp] theorem chainAfter_concat (iv : Block) (cs : List Block) (c : Block) : chainAfter iv (cs ++ [c]) = c := by
  simp [chainAfter]

theorem chainAfter_cons (iv c : Block) (cs : List Block) : chainAfter iv (c :: cs) = chainAfter c cs := by
  cases cs <;> simp [chainAfter, List.getLast?_cons]

theorem cbcEncryptBlocks_append (f : Block → Block) (iv : Block) (xs ys : List Block) :
    cbcEncryptBlocks f iv (xs ++ ys) =
      cbcEncryptBlocks f iv xs ++ cbcEncryptBlocks f (chainAfter iv (cbcEncryptBlocks f iv xs)) ys := by
  induction xs generalizing iv with
  | nil => rfl
  | cons x xs ih => simp [cbcEncryptBlocks, ih, chainAfter_cons]

theorem cbcDecryptBlocks_append (f : Block → Block) (iv : Block) (xs ys : List Block) :
    cbcDecryptBlocks f iv (xs ++ ys) = cbcDecryptBlocks f iv xs ++ cbcDecryptBlocks f (chainAfter iv xs) ys := by
  induction xs generalizing iv with
  | nil => rfl
  | cons x xs ih => simp [cbcDecryptBlocks, ih, chainAfter_cons]

@[simp] theorem length_cbcEncrypt (c : Cores) (k : Key) (iv : Block) (x : List Byte) :
    (cbcEncrypt c k iv x).length = 16 * (x.length / 16) := by
  simp [cbcEncrypt]

@[simp] theorem length_cbcDecrypt (c : Cores) (k : Key) (iv : Block) (x : List Byte) :
    (cbcDecrypt c k iv x).length = 16 * (x.length / 16) := by
  simp [cbcDecrypt]

@[simp] theorem length_encFn (c : Cores) (k : Key) (iv : Block) (m : List Byte) :
    (encFn c k iv m).length = blobLen m.length := by
  simp [encFn, blobLen]

/-! ### UTF-8 -/

/-- One code point at the front: the four lengths that R15's table allows. -/
theorem utf8Valid_cons (a : Byte) (t : List Byte) :
    utf8Valid (a :: t) =
      ((utf8Char [a] && utf8Valid t) ||
        match t with
        | [] => false
        | b :: t =>
          (utf8Char [a, b] && utf8Valid t) ||
            match t with
            | [] => false
            | c :: t =>
              (utf8Char [a, b, c] && utf8Valid t) ||
                match t with
                | [] => false
                | d :: t => utf8Char [a, b, c, d] && utf8Valid t) := by
  exact utf8Valid.eq_def (a :: t)

end Sys2Proof.Machine
end

