-- ==== Sys2Proof/Laws/Encoding.lean ====
section
/-! SUPPORT. The fields of a command word and the bytes of a 32-bit value. -/

namespace Sys2Proof

/-- A word is its three fields (R90). -/
theorem word_eq_fields (w : Word) : w = rsvField w ++ ivsField w ++ opField w := by
  apply BitVec.eq_of_getLsbD_eq
  intro i hi
  simp only [rsvField, ivsField, opField, BitVec.getLsbD_append, BitVec.getLsbD_extractLsb']
  by_cases h8 : i < 8
  · simp [h8]
  · by_cases h9 : i = 8
    · subst h9; simp
    · have h1 : ¬ i - 8 < 1 := by omega
      have h2 : 9 + (i - 8 - 1) = i := by omega
      have h3 : i - 8 - 1 < 23 := by omega
      simp only [h8, h1, h2, h3, if_false, decide_true, Bool.true_and]

theorem rsvField_encode (i : Instr) : rsvField (encode i) = 0#23 := by
  rcases i with _ | _ | ivs | _ | ivs | _ | _ <;> (try cases ivs) <;> decide

theorem ivsField_encode (i : Instr) : ivsField (encode i) = i.ivsBit := by
  rcases i with _ | _ | ivs | _ | ivs | _ | _ <;> (try cases ivs) <;> decide

theorem opField_encode (i : Instr) : opField (encode i) = i.opcode := by
  rcases i with _ | _ | ivs | _ | ivs | _ | _ <;> (try cases ivs) <;> decide

/-- The four bytes of a value carry the value (R65). -/
theorem leValue_wordBytes (w : Word) : BitVec.ofNat 32 (leValue (wordBytes w)) = w := by
  apply BitVec.eq_of_toNat_eq
  simp only [wordBytes, leValue, byteOf, BitVec.extractLsb'_toNat, BitVec.toNat_ofNat, Nat.shiftRight_eq_div_pow]
  have := w.isLt
  omega

/-- The value of four bytes has those bytes (R65). -/
theorem wordBytes_leValue (b0 b1 b2 b3 : Byte) :
    wordBytes (BitVec.ofNat 32 (leValue [b0, b1, b2, b3])) = [b0, b1, b2, b3] := by
  have := b0.isLt
  have := b1.isLt
  have := b2.isLt
  have := b3.isLt
  simp only [wordBytes, leValue, byteOf, List.cons.injEq, and_true]
  refine ⟨?_, ?_, ?_, ?_⟩ <;> apply BitVec.eq_of_toNat_eq <;>
    simp only [BitVec.extractLsb'_toNat, BitVec.toNat_ofNat, Nat.shiftRight_eq_div_pow] <;> omega

end Sys2Proof
end

