-- ==== Sys2Proof/Laws/Memory.lean ====
section
/-! SUPPORT. The laws of a store: what a read after a write gives, and that every operation keeps the canonical
form and the capacity. -/

namespace Sys2Proof.Machine

@[simp] theorem Memory.read_nil (i : Nat) : Memory.read [] i = 0#8 := rfl

/-! ### Canonical form -/

theorem Memory.wfFrom_cons {lo a : Nat} {b : Byte} {m : Memory} :
    Memory.wfFrom lo ((a, b) :: m) = true ↔ lo ≤ a ∧ b ≠ 0#8 ∧ Memory.wfFrom (a + 1) m = true := by
  simp [Memory.wfFrom, and_assoc]

theorem Memory.wfFrom_mono {m : Memory} {lo lo' : Nat} (h : lo' ≤ lo) (hm : Memory.wfFrom lo m = true) :
    Memory.wfFrom lo' m = true := by
  cases m with
  | nil => rfl
  | cons cell m =>
    obtain ⟨a, b⟩ := cell
    rw [Memory.wfFrom_cons] at hm ⊢
    exact ⟨h.trans hm.1, hm.2⟩

/-- Below the first listed index everything reads 0x00. -/
theorem Memory.read_of_wfFrom {m : Memory} {lo i : Nat} (hm : Memory.wfFrom lo m = true) (hi : i < lo) :
    Memory.read m i = 0#8 := by
  induction m generalizing lo with
  | nil => rfl
  | cons cell m ih =>
    obtain ⟨a, b⟩ := cell
    rw [Memory.wfFrom_cons] at hm
    have ha : a ≠ i := by omega
    simpa [Memory.read, ha] using ih hm.2.2 (by omega)

/-- A read elsewhere is untouched by a write, whatever the store. -/
theorem Memory.read_write_ne (m : Memory) {i j : Nat} (v : Byte) (h : j ≠ i) :
    Memory.read (Memory.write m i v) j = Memory.read m j := by
  induction m with
  | nil =>
    by_cases hv : v = 0#8
    · simp [Memory.write, hv]
    · simp [Memory.write, hv, Memory.read, Ne.symm h]
  | cons cell m ih =>
    obtain ⟨a, b⟩ := cell
    rcases Nat.lt_trichotomy i a with hlt | rfl | hgt
    · by_cases hv : v = 0#8 <;> simp [Memory.write, Memory.read, hlt, hv, Ne.symm h]
    · by_cases hv : v = 0#8 <;> simp [Memory.write, Memory.read, hv, Ne.symm h]
    · have h1 : ¬ i < a := by omega
      have h2 : ¬ i = a := by omega
      simp [Memory.write, Memory.read, h1, h2, ih]

/-- In a canonical store a read where the write went gives what was written. -/
theorem Memory.read_write_eq_from {m : Memory} {lo i : Nat} (v : Byte) (hm : Memory.wfFrom lo m = true) :
    Memory.read (Memory.write m i v) i = v := by
  induction m generalizing lo with
  | nil => by_cases hv : v = 0#8 <;> simp [Memory.write, hv, Memory.read]
  | cons cell m ih =>
    obtain ⟨a, b⟩ := cell
    rw [Memory.wfFrom_cons] at hm
    rcases Nat.lt_trichotomy i a with hlt | rfl | hgt
    · have hr : Memory.read m i = 0#8 := Memory.read_of_wfFrom hm.2.2 (by omega)
      have ha : a ≠ i := by omega
      by_cases hv : v = 0#8 <;> simp [Memory.write, Memory.read, hlt, hv, ha, hr]
    · have hr : Memory.read m i = 0#8 := Memory.read_of_wfFrom hm.2.2 (by omega)
      by_cases hv : v = 0#8 <;> simp [Memory.write, Memory.read, hv, hr]
    · have h1 : ¬ i < a := by omega
      have h2 : ¬ i = a := by omega
      have ha : a ≠ i := by omega
      simpa [Memory.write, Memory.read, h1, h2, ha] using ih hm.2.2

theorem Memory.read_write_eq {m : Memory} (i : Nat) (v : Byte) (hm : Memory.wf m = true) :
    Memory.read (Memory.write m i v) i = v :=
  Memory.read_write_eq_from v hm

theorem Memory.wfFrom_write {m : Memory} {lo i : Nat} (v : Byte) (hm : Memory.wfFrom lo m = true) (hi : lo ≤ i) :
    Memory.wfFrom lo (Memory.write m i v) = true := by
  induction m generalizing lo with
  | nil => by_cases hv : v = 0#8 <;> simp [Memory.write, hv, Memory.wfFrom, hi]
  | cons cell m ih =>
    obtain ⟨a, b⟩ := cell
    have hm' := hm
    rw [Memory.wfFrom_cons] at hm
    obtain ⟨hla, hb, hrest⟩ := hm
    rcases Nat.lt_trichotomy i a with hlt | rfl | hgt
    · by_cases hv : v = 0#8
      · simpa [Memory.write, hlt, hv] using hm'
      · simp only [Memory.write, hlt, hv, if_true, if_false]
        rw [Memory.wfFrom_cons, Memory.wfFrom_cons]
        exact ⟨hi, hv, by omega, hb, hrest⟩
    · by_cases hv : v = 0#8
      · simpa [Memory.write, hv] using Memory.wfFrom_mono (by omega) hrest
      · simp only [Memory.write, lt_irrefl, hv, if_true, if_false]
        rw [Memory.wfFrom_cons]
        exact ⟨hi, hv, hrest⟩
    · have h1 : ¬ i < a := by omega
      have h2 : ¬ i = a := by omega
      simp only [Memory.write, h1, h2, if_false]
      rw [Memory.wfFrom_cons]
      exact ⟨hla, hb, ih hrest (by omega)⟩

/-- A write keeps the canonical form. -/
theorem Memory.wf_write {m : Memory} (i : Nat) (v : Byte) (hm : Memory.wf m = true) :
    Memory.wf (Memory.write m i v) = true :=
  Memory.wfFrom_write v hm (Nat.zero_le i)

/-- A write inside the capacity keeps the store inside the capacity. -/
theorem Memory.below_write {m : Memory} {cap i : Nat} (v : Byte) (hm : Memory.below cap m = true) (hi : i < cap) :
    Memory.below cap (Memory.write m i v) = true := by
  induction m with
  | nil => by_cases hv : v = 0#8 <;> simp [Memory.write, hv, Memory.below, hi]
  | cons cell m ih =>
    obtain ⟨a, b⟩ := cell
    have hm' : a < cap ∧ Memory.below cap m = true := by simpa [Memory.below] using hm
    obtain ⟨ha, hrest⟩ := hm'
    have hrest' : ∀ x ∈ m, x.1 < cap := by simpa [Memory.below] using hrest
    have key : Memory.below cap (Memory.write m i v) = true := ih hrest
    have key' : ∀ x ∈ Memory.write m i v, x.1 < cap := by simpa [Memory.below] using key
    unfold Memory.write
    split
    · split
      · exact hm
      · simpa [Memory.below, hi, ha] using hrest'
    · split
      · split
        · exact hrest
        · simpa [Memory.below, hi] using hrest'
      · simpa [Memory.below, ha] using key'

/-! ### Byte sequences -/

theorem Memory.writeBytes_append (m : Memory) (i : Nat) (xs ys : List Byte) :
    Memory.writeBytes m i (xs ++ ys) = Memory.writeBytes (Memory.writeBytes m i xs) (i + xs.length) ys := by
  induction xs generalizing m i with
  | nil => rfl
  | cons x xs ih =>
    simp only [List.cons_append, Memory.writeBytes, List.length_cons, ih]
    congr 1
    omega

theorem Memory.wf_writeBytes {m : Memory} (i : Nat) (vs : List Byte) (hm : Memory.wf m = true) :
    Memory.wf (Memory.writeBytes m i vs) = true := by
  induction vs generalizing m i with
  | nil => exact hm
  | cons v vs ih => exact ih (i + 1) (Memory.wf_write i v hm)

theorem Memory.below_writeBytes {m : Memory} {cap : Nat} (i : Nat) (vs : List Byte)
    (hm : Memory.below cap m = true) (hi : i + vs.length ≤ cap) :
    Memory.below cap (Memory.writeBytes m i vs) = true := by
  induction vs generalizing m i with
  | nil => exact hm
  | cons v vs ih =>
    simp only [List.length_cons] at hi
    exact ih (i + 1) (Memory.below_write v hm (by omega)) (by omega)

/-- Outside the written range a read is untouched. -/
theorem Memory.read_writeBytes_out (m : Memory) (i : Nat) (vs : List Byte) {j : Nat}
    (h : j < i ∨ i + vs.length ≤ j) :
    Memory.read (Memory.writeBytes m i vs) j = Memory.read m j := by
  induction vs generalizing m i with
  | nil => rfl
  | cons v vs ih =>
    simp only [List.length_cons] at h
    rw [Memory.writeBytes, ih _ _ (by omega), Memory.read_write_ne _ _ (by omega)]

/-- Inside the written range a read gives the byte written there. -/
theorem Memory.read_writeBytes_in {m : Memory} (i : Nat) (vs : List Byte) {k : Nat} (hm : Memory.wf m = true)
    (h : k < vs.length) : Memory.read (Memory.writeBytes m i vs) (i + k) = vs.getD k 0#8 := by
  induction vs generalizing m i k with
  | nil => simp at h
  | cons v vs ih =>
    cases k with
    | zero =>
      rw [Memory.writeBytes, Memory.read_writeBytes_out _ _ _ (by omega)]
      simpa using Memory.read_write_eq i v hm
    | succ k =>
      have := ih (i + 1) (k := k) (Memory.wf_write i v hm) (by simpa using h)
      rw [Memory.writeBytes, show i + (k + 1) = i + 1 + k by omega, this]
      simp

@[simp] theorem Memory.length_slice (m : Memory) (i n : Nat) : (Memory.slice m i n).length = n := by
  simp [Memory.slice]

theorem Memory.getD_slice (m : Memory) (i n k : Nat) (h : k < n) :
    (Memory.slice m i n).getD k 0#8 = Memory.read m (i + k) := by
  simp [Memory.slice, List.getD, h]

/-- Reading back what was written. -/
theorem Memory.slice_writeBytes {m : Memory} (i : Nat) (vs : List Byte) (hm : Memory.wf m = true) :
    Memory.slice (Memory.writeBytes m i vs) i vs.length = vs := by
  apply List.ext_getElem
  · simp
  · intro k h1 h2
    have := Memory.read_writeBytes_in i vs hm h2
    simp [Memory.slice, this, List.getD, h2]

/-- A slice depends only on the bytes it reads. -/
theorem Memory.slice_congr {m m' : Memory} {i n : Nat}
    (h : ∀ k, k < n → Memory.read m (i + k) = Memory.read m' (i + k)) :
    Memory.slice m i n = Memory.slice m' i n := by
  unfold Memory.slice
  apply List.map_congr_left
  intro k hk
  exact h k (by simpa using hk)

/-- A shorter slice is the front of a longer one. -/
theorem Memory.slice_take (m : Memory) (i n k : Nat) (h : k ≤ n) :
    (Memory.slice m i n).take k = Memory.slice m i k := by
  simp [Memory.slice, ← List.map_take, List.take_range, h]

end Sys2Proof.Machine
end

