-- ==== Sys2Proof/Laws/Sequencer.lean ====
section
/-! SUPPORT. What each of the sequencer's shared operations can do, said once: the operand accesses, the checks, the steps
of the phases, and which step each command takes in a phase. -/

namespace Sys2Proof.Machine

/-! ### The instance -/

theorem ibufBytes_mod : Config.ibufBytes % 16 = 0 := by unfold Config.ibufBytes; omega

theorem ibufBytes_ge : 48 ≤ Config.ibufBytes := by unfold Config.ibufBytes; omega

theorem ibufBytes_le : Config.ibufBytes ≤ 1048544 := by
  have := Config.ibufExtraBlocks.isLt
  unfold Config.ibufBytes; omega

@[simp] theorem cores_ibufBytes : Config.cores.ibufBytes = Config.ibufBytes := rfl

@[simp] theorem cores_obufBytes : Config.cores.obufBytes = Config.ibufBytes + 32 := rfl

@[simp] theorem cores_hash256 : Config.cores.hash256 = Config.hash256 := rfl

@[simp] theorem cores_bcEnc (k : Key) (b : Block) : Config.cores.bcEnc k b = Config.cipher k b := rfl

@[simp] theorem cores_bcDec (k : Key) (b : Block) : Config.cores.bcDec k b = (Config.cipher k).symm b := rfl

/-! ### Operand accesses -/

theorem readIbuf_eq_some {c : Cores} {s : State} {i n : Nat} {m : List Byte} (h : readIbuf c s i n = some m) :
    i + n ≤ s.inLen.toNat ∧ s.inLen.toNat ≤ c.ibufBytes ∧ m = Memory.slice s.ibuf i n := by
  unfold readIbuf at h
  split at h
  · rename_i hle
    exact ⟨hle.1, hle.2, by simpa using h.symm⟩
  · simp at h

theorem readIbuf_of_le {c : Cores} {s : State} {i n : Nat} (h₁ : i + n ≤ s.inLen.toNat)
    (h₂ : s.inLen.toNat ≤ c.ibufBytes) : readIbuf c s i n = some (Memory.slice s.ibuf i n) := by
  simp [readIbuf, h₁, h₂]

theorem writeObuf_eq_some {c : Cores} {i : Nat} {v : List Byte} {s s' : State} (h : writeObuf c i v s = some s') :
    i + v.length ≤ c.obufBytes ∧ s' = { s with obufs := Memory.writeBytes s.obufs i v } := by
  unfold writeObuf at h
  split at h
  · rename_i hle
    exact ⟨hle, by simpa using h.symm⟩
  · simp at h

theorem writeObuf_of_le {c : Cores} {i : Nat} {v : List Byte} {s : State} (h : i + v.length ≤ c.obufBytes) :
    writeObuf c i v s = some { s with obufs := Memory.writeBytes s.obufs i v } := by
  simp [writeObuf, h]

theorem readObufs_eq_some {c : Cores} {s : State} {t : List Byte} (h : readObufs c s = some t) :
    s.plen.toNat ≤ c.obufBytes ∧ t = Memory.slice s.obufs 0 s.plen.toNat := by
  unfold readObufs at h
  split at h
  · rename_i hle
    exact ⟨hle, by simpa using h.symm⟩
  · simp at h

/-- Byte `i` of the operand. -/
theorem operand_getD (s : State) {i : Nat} (h : i < s.inLen.toNat) :
    (Memory.slice s.ibuf 0 s.inLen.toNat).getD i 0#8 = Memory.read s.ibuf i := by
  simpa using Memory.getD_slice s.ibuf 0 s.inLen.toNat i h

/-- The block fetch of EBLK with its padding folded in is block BI of the padded operand (R11, R163). -/
theorem plainBlock_eq {c : Cores} {s : State} (h : s.inLen.toNat ≤ c.ibufBytes) :
    plainBlock c s = some (padBlock (Memory.slice s.ibuf 0 s.inLen.toNat) s.bi.toNat) := by
  have key : ∀ m : List Byte,
      (∀ j, j < 16 → (m.getD j (padByte s.inLen.toNat)) =
        if 16 * s.bi.toNat + j < s.inLen.toNat then Memory.read s.ibuf (16 * s.bi.toNat + j)
        else padByte s.inLen.toNat) →
      (blockOf fun j => m.getD j (padByte s.inLen.toNat)) =
        padBlock (Memory.slice s.ibuf 0 s.inLen.toNat) s.bi.toNat := by
    intro m hm
    apply block_ext
    intro j hj
    rw [padBlock, byteAt_blockOf _ hj, byteAt_blockOf _ hj, hm j hj]
    by_cases hlt : 16 * s.bi.toNat + j < s.inLen.toNat
    · simp only [Memory.length_slice, hlt, if_true]
      rw [operand_getD s hlt]
    · simp [hlt]
  unfold plainBlock plainBytes
  simp only
  split
  · rename_i hlo
    rw [readIbuf_of_le (by omega) h, Option.map_some]
    refine congrArg some (key _ fun j hj => ?_)
    by_cases hlt : 16 * s.bi.toNat + j < s.inLen.toNat
    · simp only [hlt, if_true]
      have hk : j < min 16 (s.inLen.toNat - 16 * s.bi.toNat) := by omega
      rw [List.getD_eq_getElem _ _ (by simpa using hk)]
      simp [Memory.slice]
    · simp only [hlt, if_false]
      rw [List.getD_eq_default]
      simp
      omega
  · rename_i hlo
    rw [Option.map_some]
    refine congrArg some (key _ fun j hj => ?_)
    have hlt : ¬ 16 * s.bi.toNat + j < s.inLen.toNat := by omega
    simp [hlt]

theorem plainBlock_eq_some {c : Cores} {s : State} {p : Block} (h : plainBlock c s = some p) :
    16 * s.bi.toNat < s.inLen.toNat → s.inLen.toNat ≤ c.ibufBytes := by
  intro hlo
  unfold plainBlock plainBytes at h
  simp only [hlo, if_true, Option.map_eq_some_iff] at h
  obtain ⟨m, hm, _⟩ := h
  exact (readIbuf_eq_some hm).2.1

/-- The ciphertext block that DBLK reads is block BI + 1 of the container (R81, R182). -/
theorem cipherBlock_eq {c : Cores} {s : State} (h₁ : 32 + 16 * s.bi.toNat ≤ s.inLen.toNat)
    (h₂ : s.inLen.toNat ≤ c.ibufBytes) :
    cipherBlock c s = some (blockAt (Memory.slice s.ibuf 0 s.inLen.toNat) (s.bi.toNat + 1)) := by
  unfold cipherBlock
  rw [readIbuf_of_le (by omega) h₂, Option.map_some]
  refine congrArg some (block_ext fun j hj => ?_)
  have hlt : 16 * (s.bi.toNat + 1) + j < s.inLen.toNat := by omega
  rw [blockOfBytes, blockAt, byteAt_blockOf _ hj, byteAt_blockOf _ hj, operand_getD s hlt,
    Memory.getD_slice _ _ _ _ hj]
  congr 1
  omega

/-! ### Checks -/

theorem checked_cases {chs : List Check} {k : State → Result} {s t : State} (h : checked chs k s = .next t) :
    (∃ ch ∈ chs, ∃ kind, ch s = some kind ∧ t = s.fail kind) ∨ ((∀ ch ∈ chs, ch s = none) ∧ k s = .next t) := by
  induction chs with
  | nil => exact .inr ⟨by simp, h⟩
  | cons ch chs ih =>
    unfold checked at h
    split at h
    · rename_i kind hk
      exact .inl ⟨ch, by simp, kind, hk, by simpa using h.symm⟩
    · rename_i hk
      rcases ih h with ⟨ch', hm, kind, hk', ht⟩ | ⟨hall, ht⟩
      · exact .inl ⟨ch', by simp [hm], kind, hk', ht⟩
      · refine .inr ⟨?_, ht⟩
        intro ch' hm
        rcases List.mem_cons.mp hm with rfl | hm
        · exact hk
        · exact hall ch' hm

theorem lengthCheck_eq_none {c : Cores} {s : State} : lengthCheck c s = none ↔ s.inLen.toNat ≤ c.ibufBytes := by
  unfold lengthCheck; split <;> simp_all

theorem keyCheck_eq_none {s : State} : keyCheck s = none ↔ s.keyLen = 32#8 := by
  unfold keyCheck; split <;> simp_all

theorem containerCheck_eq_none {s : State} :
    containerCheck s = none ↔ 32 ≤ s.inLen.toNat ∧ (s.inLen.toNat - 16) % 16 = 0 := by
  unfold containerCheck; split
  · rename_i h
    simp only [reduceCtorEq, false_iff]
    omega
  · rename_i h
    simp only [true_iff]
    omega

/-! ### The steps of the phases -/

theorem ivgenStep_none {f : Block → State → Result} {s : State} (h : s.entPort = none) :
    ivgenStep f s = .next s := by
  simp [ivgenStep, h]

theorem ivgenStep_some {f : Block → State → Result} {s : State} {r : Block} (h : s.entPort = some r) :
    ivgenStep f s = f r { s with iv := r, entPort := none } := by
  simp [ivgenStep, h]

theorem kdfStep_next {c : Cores} {s t : State} (h : kdfStep c s = .next t) :
    s.inLen.toNat ≤ c.ibufBytes ∧
    t = { s with key := c.hash256 (Memory.slice s.ibuf 0 s.inLen.toNat), keyLen := 32#8 }.complete 0 := by
  unfold kdfStep at h
  split at h
  · cases h
  · rename_i m hm
    obtain ⟨_, hcap, rfl⟩ := readIbuf_eq_some hm
    exact ⟨hcap, by simpa using h.symm⟩

theorem kdfStep_of_le {c : Cores} {s : State} (h : s.inLen.toNat ≤ c.ibufBytes) :
    kdfStep c s =
      .next ({ s with key := c.hash256 (Memory.slice s.ibuf 0 s.inLen.toNat), keyLen := 32#8 }.complete 0) := by
  simp [kdfStep, readIbuf_of_le (c := c) (s := s) (i := 0) (n := s.inLen.toNat) (by omega) h]

/-- The state that an EBLK step leaves once its ciphertext block `x` is known. -/
def State.storeCipher (x : Block) (s : State) : State :=
  { s with
    obufs := Memory.writeBytes s.obufs (16 + 16 * s.bi.toNat) x.toList
    cv := x
    bi := s.bi + 1#24 }

theorem eblkStep_next {c : Cores} {s t : State} (h : eblkStep c s = .next t) :
    ∃ p, plainBlock c s = some p ∧ 32 + 16 * s.bi.toNat ≤ c.obufBytes ∧
      t = (s.storeCipher (c.bcEnc s.key (xor16 p s.cv))).afterEblk := by
  unfold eblkStep at h
  split at h
  · cases h
  · rename_i p hp
    simp only at h
    split at h
    · cases h
    · rename_i s' hs'
      obtain ⟨hle, rfl⟩ := writeObuf_eq_some hs'
      refine ⟨p, hp, ?_, by simpa [State.storeCipher] using h.symm⟩
      simp at hle; omega

theorem eblkStep_of_le {c : Cores} {s : State} (h₁ : s.inLen.toNat ≤ c.ibufBytes)
    (h₂ : 32 + 16 * s.bi.toNat ≤ c.obufBytes) :
    eblkStep c s =
      .next (s.storeCipher (c.bcEnc s.key (xor16
        (padBlock (Memory.slice s.ibuf 0 s.inLen.toNat) s.bi.toNat) s.cv))).afterEblk := by
  unfold eblkStep
  rw [plainBlock_eq h₁]
  simp only
  rw [writeObuf_of_le (by simp; omega)]
  simp only [State.storeCipher]

/-- The state that a DBLK step leaves once its ciphertext block `ct` and plaintext block `p` are known. -/
def State.storePlain (ct p : Block) (s : State) : State :=
  { s with
    obufs := Memory.writeBytes s.obufs (16 * s.bi.toNat) p.toList
    lastp := p
    cv := ct
    bi := s.bi + 1#24 }

theorem dblkStep_next {c : Cores} {s t : State} (h : dblkStep c s = .next t) :
    ∃ ct, cipherBlock c s = some ct ∧ 16 + 16 * s.bi.toNat ≤ c.obufBytes ∧
      t = (s.storePlain ct (xor16 (c.bcDec s.key ct) s.cv)).afterDblk := by
  unfold dblkStep at h
  split at h
  · cases h
  · rename_i ct hct
    simp only at h
    split at h
    · cases h
    · rename_i s' hs'
      obtain ⟨hle, rfl⟩ := writeObuf_eq_some hs'
      refine ⟨ct, hct, ?_, by simpa [State.storePlain] using h.symm⟩
      simp at hle; omega

theorem dblkStep_of_le {c : Cores} {s : State} (h₁ : 32 + 16 * s.bi.toNat ≤ s.inLen.toNat)
    (h₂ : s.inLen.toNat ≤ c.ibufBytes) :
    dblkStep c s =
      .next (s.storePlain (blockAt (Memory.slice s.ibuf 0 s.inLen.toNat) (s.bi.toNat + 1))
        (xor16 (c.bcDec s.key (blockAt (Memory.slice s.ibuf 0 s.inLen.toNat) (s.bi.toNat + 1))) s.cv)).afterDblk := by
  unfold dblkStep
  rw [cipherBlock_eq h₁ h₂]
  simp only
  rw [writeObuf_of_le (by simp [Cores.obufBytes]; omega)]
  simp only [State.storePlain]

theorem unpadStep_cases (f : State → Result) (s : State) :
    (padOf s.lastp.toList = none ∧ unpadStep f s = .next (s.fail .invalidPadding)) ∨
    (∃ p, padOf s.lastp.toList = some p ∧
      unpadStep f s = f { s with plen := BitVec.ofNat 21 (16 * s.nb.toNat - p) }) := by
  unfold unpadStep
  cases h : padOf s.lastp.toList with
  | none => exact .inl ⟨rfl, rfl⟩
  | some p => exact .inr ⟨p, rfl, rfl⟩

theorem textStep_next {c : Cores} {s t : State} (h : textStep c s = .next t) :
    s.plen.toNat ≤ c.obufBytes ∧
    ((utf8Valid (Memory.slice s.obufs 0 s.plen.toNat) = true ∧ t = s.complete s.plen.toNat) ∨
      (utf8Valid (Memory.slice s.obufs 0 s.plen.toNat) = false ∧ t = s.fail .invalidEncoding)) := by
  unfold textStep at h
  split at h
  · cases h
  · rename_i m hm
    obtain ⟨hle, rfl⟩ := readObufs_eq_some hm
    refine ⟨hle, ?_⟩
    split at h <;> rename_i hv <;> simp at h hv
    · exact .inl ⟨hv, h.symm⟩
    · exact .inr ⟨hv, h.symm⟩

theorem textStep_of_le {c : Cores} {s : State} (h : s.plen.toNat ≤ c.obufBytes) :
    textStep c s = .next (if utf8Valid (Memory.slice s.obufs 0 s.plen.toNat) then s.complete s.plen.toNat
      else s.fail .invalidEncoding) := by
  simp only [textStep, readObufs, h, if_true]
  split <;> rfl

/-! ### Which step a command takes in a phase -/

theorem exec_idle (i : Instr) {s : State} (h : s.phase = .idle) : exec i s = .next s := by
  cases i <;> simp [exec, execDkey, execGeniv, execEnc, execDec, execEnct, execDect, execZero, dkeyStep, genivStep,
    encryptStep, decryptStep, zeroStep, phaseStep, h]

theorem exec_kdf (i : Instr) {s : State} (h : s.phase = .kdf) : exec i s = kdfStep Config.cores s := by
  cases i <;> simp [exec, execDkey, execGeniv, execEnc, execDec, execEnct, execDect, execZero, dkeyStep, genivStep,
    encryptStep, decryptStep, zeroStep, phaseStep, h]

theorem exec_eblk (i : Instr) {s : State} (h : s.phase = .eblk) : exec i s = eblkStep Config.cores s := by
  cases i <;> simp [exec, execDkey, execGeniv, execEnc, execDec, execEnct, execDect, execZero, dkeyStep, genivStep,
    encryptStep, decryptStep, zeroStep, phaseStep, h]

theorem exec_dblk (i : Instr) {s : State} (h : s.phase = .dblk) : exec i s = dblkStep Config.cores s := by
  cases i <;> simp [exec, execDkey, execGeniv, execEnc, execDec, execEnct, execDect, execZero, dkeyStep, genivStep,
    encryptStep, decryptStep, zeroStep, phaseStep, h]

theorem exec_text (i : Instr) {s : State} (h : s.phase = .text) : exec i s = textStep Config.cores s := by
  cases i <;> simp [exec, execDkey, execGeniv, execEnc, execDec, execEnct, execDect, execZero, dkeyStep, genivStep,
    encryptStep, decryptStep, zeroStep, phaseStep, h]

theorem exec_wipe (i : Instr) {s : State} (h : s.phase = .wipe) : exec i s = wipeStep s := by
  cases i <;> simp [exec, execDkey, execGeniv, execEnc, execDec, execEnct, execDect, execZero, dkeyStep, genivStep,
    encryptStep, decryptStep, zeroStep, phaseStep, h]

/-- What a command does with its draw (R150). -/
def afterDrawOf : Instr → Block → State → Result
  | .geniv => fun _ s => .next (s.complete 0)
  | .dkey | .enc _ | .dec | .enct _ | .dect | .zero => thenEncrypt

theorem exec_ivgen (i : Instr) {s : State} (h : s.phase = .ivgen) : exec i s = ivgenStep (afterDrawOf i) s := by
  cases i <;> simp [exec, execDkey, execGeniv, execEnc, execDec, execEnct, execDect, execZero, dkeyStep, genivStep,
    encryptStep, decryptStep, zeroStep, phaseStep, h, afterDrawOf]

/-- What a command does after the padding test (R183). -/
def afterUnpadOf : Instr → State → Result
  | .dect => thenTest
  | .dkey | .geniv | .enc _ | .dec | .enct _ | .zero => thenDeliver

theorem exec_unpad (i : Instr) {s : State} (h : s.phase = .unpad) : exec i s = unpadStep (afterUnpadOf i) s := by
  cases i <;> simp [exec, execDkey, execGeniv, execEnc, execDec, execEnct, execDect, execZero, dkeyStep, genivStep,
    encryptStep, decryptStep, zeroStep, phaseStep, h, afterUnpadOf]

/-- The checks a command makes after the decoding (R112). -/
def checksOf : Instr → List Check
  | .dkey => [lengthCheck Config.cores]
  | .geniv | .zero => []
  | .enc _ | .enct _ => [lengthCheck Config.cores, keyCheck]
  | .dec | .dect => [lengthCheck Config.cores, keyCheck, containerCheck]

/-- A command's dispatch (R113). -/
def dispatchOf : Instr → State → Result
  | .dkey => fun s => .next (s.enter .kdf)
  | .geniv => fun s => .next (s.enter .ivgen)
  | .enc ivs | .enct ivs => startEncrypt ivs
  | .dec | .dect => fun s => .next s.decStart
  | .zero => fun s => .next (s.enter .wipe)

theorem exec_check (i : Instr) {s : State} (h : s.phase = .check) :
    exec i s = checked (checksOf i) (dispatchOf i) s := by
  cases i <;> simp [exec, execDkey, execGeniv, execEnc, execDec, execEnct, execDect, execZero, dkeyStep, genivStep,
    encryptStep, decryptStep, zeroStep, phaseStep, h, checksOf, dispatchOf, checked]

theorem illegalStep_check {c : Cores} {s : State} (h : s.phase = .check) :
    illegalStep c s = .next (s.fail .illegalCommand) := by
  simp [illegalStep, phaseStep, h]

theorem sequencerStep_ok {s : State} {i : Instr} (hb : s.busy = true) (hd : decode s.cmdReg = .ok i) :
    sequencerStep s = exec i s := by
  simp [sequencerStep, hb, hd]

theorem sequencerStep_idle {s : State} (hb : s.busy = false) : sequencerStep s = .next s := by
  simp [sequencerStep, hb]

theorem sequencerStep_illegal {s : State} {e : DecodeError} (hb : s.busy = true) (hd : decode s.cmdReg = .error e) :
    sequencerStep s = illegalStep Config.cores s := by
  simp [sequencerStep, hb, hd]

theorem step_nil {s : State} (h : s.env = []) : step s = runAlone s := by simp [step, h]

theorem step_cons {s : State} {e : Event} {rest : List Event} (h : s.env = e :: rest) :
    step s = handleEvent e { s with env := rest } := by simp [step, h]

end Sys2Proof.Machine
end

