-- ==== Sys2Proof/Laws/Invariant.lean ====
section
/-! SUPPORT. The invariant of Safety.lean taken apart: what establishes it, and the facts about a state that it gives. -/

namespace Sys2Proof.Machine

/-- A command's end leaves the hidden registers zero (R114, R115). -/
@[simp] theorem complete_hiddenClear (n : Nat) (s : State) : (s.complete n).hiddenClear := ⟨rfl, rfl, rfl, rfl, rfl⟩

@[simp] theorem fail_hiddenClear (k : ErrorKind) (s : State) : (s.fail k).hiddenClear := ⟨rfl, rfl, rfl, rfl, rfl⟩

/-- What makes a state of the idle machine meet the invariant. -/
theorem inv_of_idle {s : State} (hb : s.busy = false) (hp : s.phase = .idle) (hh : s.hiddenClear)
    (he : s.err ≠ 0#3 → s.outLen = 0#32) (ho : s.outLen.toNat ≤ Config.cores.obufBytes) (hc : s.err.toNat ≤ 6)
    (h1 : Memory.wf s.ibuf = true) (h2 : Memory.below Config.ibufBytes s.ibuf = true)
    (h3 : Memory.wf s.obufs = true) (h4 : Memory.below Config.cores.obufBytes s.obufs = true)
    (hent : s.entPort = none) : s.Inv Config.cores where
  legal := {
    busy_iff := by simp [hb, hp]
    busy_quiet := by simp [hb]
    failed_empty := he
    idle_clear := fun _ => hh
    out_le := ho
    bi_le := by rw [hh.1, hh.2.2.2.1]; decide
    phase_le := by rw [hp]; decide
    err_le := hc
    irq_iff := by simp [irq] }
  ibuf_wf := h1
  ibuf_below := h2
  obufs_wf := h3
  obufs_below := h4
  entropy_asked := by simp [hent]
  phase_ok := by simp only [State.phaseOk, hp]; exact hh

/-- What makes a state in which a command runs meet the invariant. -/
theorem inv_of_busy {s : State} (hb : s.busy = true) (hp : s.phase ≠ .idle)
    (hq : s.done = false ∧ s.err = 0#3 ∧ s.outLen = 0#32) (hbi : s.bi.toNat ≤ s.nb.toNat)
    (h1 : Memory.wf s.ibuf = true) (h2 : Memory.below Config.ibufBytes s.ibuf = true)
    (h3 : Memory.wf s.obufs = true) (h4 : Memory.below Config.cores.obufBytes s.obufs = true)
    (hent : s.entPort.isSome = true → s.phase = .ivgen) (hok : s.phaseOk Config.cores) : s.Inv Config.cores where
  legal := {
    busy_iff := by simp [hb, hp]
    busy_quiet := fun _ => hq
    failed_empty := fun h => absurd hq.2.1 h
    idle_clear := fun h => absurd h hp
    out_le := by rw [hq.2.2]; simp
    bi_le := hbi
    phase_le := by cases s.phase <;> decide
    err_le := by rw [hq.2.1]; decide
    irq_iff := by simp [irq] }
  ibuf_wf := h1
  ibuf_below := h2
  obufs_wf := h3
  obufs_below := h4
  entropy_asked := hent
  phase_ok := hok

/-- What the outside holds (its schedule, the last response, the number of the next request) is no part of the invariant. -/
theorem inv_congr {s t : State} (h : s.Inv Config.cores)
    (ht : t = { s with busResp := t.busResp, env := t.env, entReq := t.entReq }) : t.Inv Config.cores := by
  rw [ht]
  obtain ⟨⟨a, b, c, d, e, f, g, i, j⟩, k, l, m, n, o, p⟩ := h
  exact ⟨⟨a, b, c, d, e, f, g, i, j⟩, k, l, m, n, o, p⟩

/-- An answer stands at the port in IVGEN only. -/
theorem entPort_none {s : State} (h : s.Inv Config.cores) (hp : s.phase ≠ .ivgen) : s.entPort = none := by
  cases he : s.entPort with
  | none => rfl
  | some r => exact absurd (h.entropy_asked (by simp [he])) hp

/-- The idle machine has nothing left of the last command. -/
theorem idle_of_not_busy {s : State} (h : s.Inv Config.cores) (hb : s.busy = false) :
    s.phase = .idle ∧ s.hiddenClear ∧ s.entPort = none := by
  have hp : s.phase = .idle := by
    by_contra hne
    have := h.legal.busy_iff.mpr hne
    simp [hb] at this
  exact ⟨hp, h.legal.idle_clear hp, entPort_none h (by simp [hp])⟩

/-- An illegal word gets no further than CHECK (R95). -/
theorem illegal_in_check {s : State} (h : s.Inv Config.cores) (hb : s.busy = true) {e : DecodeError}
    (hd : decode s.cmdReg = .error e) : s.phase = .check := by
  have hok := h.phase_ok
  have := h.legal.busy_iff.mp hb
  unfold State.phaseOk State.encrypts State.decrypts at hok
  cases hp : s.phase <;> simp_all

/-- The pad value that the test accepts (R14). -/
theorem padOf_bound {x : List Byte} {p : Nat} (h : padOf x = some p) : 1 ≤ p ∧ p ≤ 16 := by
  unfold padOf at h
  simp only at h
  split_ifs at h
  cases h
  constructor <;> omega

/-- The block index does not wrap (R29, R46). -/
theorem bi_succ {s : State} (h : s.bi.toNat < s.nb.toNat) : (s.bi + 1#24).toNat = s.bi.toNat + 1 := by
  have := s.nb.isLt
  simp
  omega

end Sys2Proof.Machine
end

