-- ==== Sys2Proof/Laws/Run.lean ====
section
/-! SUPPORT. Runs of the machine: one step more, runs joined, and the step that the machine takes where it moves alone. -/

namespace Sys2Proof.Machine

theorem run_zero (s : State) : run 0 s = .next s := rfl

theorem run_succ {n : Nat} {s t : State} (h : step s = .next t) : run (n + 1) s = run n t := by
  simp [run, h]

/-- The first step of a run that answers. -/
theorem run_succ_cases {n : Nat} {s t : State} (h : run (n + 1) s = .next t) :
    ∃ s', step s = .next s' ∧ run n s' = .next t := by
  unfold run at h
  split at h
  · rename_i s' hs
    exact ⟨s', hs, h⟩
  · cases h
  · cases h

theorem run_add {n m : Nat} {s t : State} (h : run n s = .next t) : run (n + m) s = run m t := by
  induction n generalizing s with
  | zero =>
    have : s = t := by simpa [run_zero] using h
    simp [this]
  | succ n ih =>
    obtain ⟨s', hs, h'⟩ := run_succ_cases h
    rw [show n + 1 + m = n + m + 1 by omega, run_succ hs, ih h']

/-- One step more of any machine, where it goes on. -/
theorem core_run_next {M : Host.Core} {n : Nat} {s t : M.State} (h : M.step s = .next t) :
    M.run (n + 1) s = M.run n t := by
  rw [Host.Core.run, h]

/-- One step more of any machine, where it stops with a fault. -/
theorem core_run_fault {M : Host.Core} {n : Nat} {s : M.State} {r : M.Fault} (h : M.step s = .fault r) :
    M.run (n + 1) s = .fault r := by
  rw [Host.Core.run, h]

/-- One step more of any machine, where it refuses. -/
theorem core_run_refused {M : Host.Core} {n : Nat} {s : M.State} {r : M.Refusal} (h : M.step s = .refused r) :
    M.run (n + 1) s = .refused r := by
  rw [Host.Core.run, h]

/-- `run` is the host's way of running this machine. -/
theorem run_eq_core_run (n : Nat) (s : State) : run n s = Host.Core.run Sys2Proof.core n s := by
  induction n generalizing s with
  | zero => rfl
  | succ n ih =>
    rw [run]
    cases h : step s with
    | next t => exact (ih t).trans (core_run_next (M := Sys2Proof.core) h).symm
    | fault r => exact (core_run_fault (M := Sys2Proof.core) h).symm
    | refused r => exact (core_run_refused (M := Sys2Proof.core) h).symm

/-- Nothing scheduled and no answer awaited: the sequencer moves. -/
theorem step_alone {s : State} (he : s.env = []) (hw : s.awaitsEntropy = false) : step s = sequencerStep s := by
  rw [step_nil he, runAlone, hw]; rfl

/-- Outside IVGEN no answer is awaited. -/
theorem awaitsEntropy_of_phase {s : State} (h : s.phase ≠ .ivgen) : s.awaitsEntropy = false := by
  simp [State.awaitsEntropy, h]

theorem awaitsEntropy_of_some {s : State} {r : Block} (h : s.entPort = some r) : s.awaitsEntropy = false := by
  simp [State.awaitsEntropy, h]

/-- A step of a running command where nothing is scheduled (outside IVGEN). -/
theorem step_exec {s : State} {i : Instr} (he : s.env = []) (hb : s.busy = true) (hd : decode s.cmdReg = .ok i)
    (hp : s.phase ≠ .ivgen) : step s = exec i s := by
  rw [step_alone he (awaitsEntropy_of_phase hp), sequencerStep_ok hb hd]

/-- A scheduled sequencer event is a sequencer step of the running command. -/
theorem step_sequencer {s : State} {i : Instr} {rest : List Event} (he : s.env = .sequencer :: rest)
    (hb : s.busy = true) (hd : decode s.cmdReg = .ok i) : step s = exec i { s with env := rest } := by
  rw [step_cons he, handleEvent, sequencerStep_ok (s := { s with env := rest }) hb hd]

/-- What an ENT answer can do: nothing, or, for the outstanding request, stand at the port and end that request. -/
theorem entropyAnswer_cases (req : Nat) (r : Block) (s : State) :
    s.entropyAnswer req r = s ∨ (s.awaitsEntropy = true ∧ req = s.entReq ∧
      s.entropyAnswer req r = { s with entPort := some r, entReq := s.entReq + 1 }) := by
  unfold State.entropyAnswer
  split
  · rename_i h
    exact .inr ⟨h.1, h.2, by rw [State.nextReq, if_pos h.1]⟩
  · exact .inl rfl

/-- An answer to a request that is not outstanding is ignored (R262). -/
theorem entropyAnswer_ignored {req : Nat} {s : State} (h : s.awaitsEntropy = true → req ≠ s.entReq) (r : Block) :
    s.entropyAnswer req r = s := if_neg fun c => h c.1 c.2

/-- The numbers of ENT's requests never fall. -/
theorem entReq_le_nextReq (s : State) : s.entReq ≤ s.nextReq := by
  unfold State.nextReq
  split <;> omega

/-- The answer that IVGEN waits for arrives at the port (R118). -/
theorem step_answer {s : State} {r : Block} {rest : List Event} (he : s.env = .entropy s.entReq r :: rest)
    (hb : s.busy = true) (hp : s.phase = .ivgen) (hn : s.entPort = none) :
    step s = .next { s with env := rest, entPort := some r, entReq := s.entReq + 1 } := by
  rw [step_cons he, handleEvent, State.entropyAnswer]
  simp [State.awaitsEntropy, State.nextReq, hb, hp, hn]

/-- IVGEN takes the answer that stands at the port (R150). -/
theorem step_draw {s : State} {i : Instr} {r : Block} (he : s.env = []) (hb : s.busy = true)
    (hd : decode s.cmdReg = .ok i) (hp : s.phase = .ivgen) (hn : s.entPort = some r) :
    step s = afterDrawOf i r { s with iv := r, entPort := none } := by
  rw [step_alone he (awaitsEntropy_of_some hn), sequencerStep_ok hb hd, exec_ivgen i hp, ivgenStep_some hn]

/-- With nothing to do, the machine stays as it is. -/
theorem run_idle {s : State} (he : s.env = []) (hb : s.busy = false) (n : Nat) : run n s = .next s := by
  induction n with
  | zero => rfl
  | succ n ih =>
    have hs : step s = .next s := by
      rw [step_alone he (by simp [State.awaitsEntropy, hb]), sequencerStep_idle hb]
    rw [run_succ hs, ih]

end Sys2Proof.Machine
end

