-- ==== Sys2Proof/Laws/Loops.lean ====
section
/-! SUPPORT. The two cipher loops: what stands in the state after some of their steps, and what the remaining steps leave
(spec/43_encrypt.md R163, spec/44_decrypt.md R182). -/

namespace Sys2Proof.Machine

/-! ### EBLK -/

/-- The first `j` ciphertext blocks of the message `m`. -/
def cipherBlocks (k : Key) (v : Block) (m : List Byte) (j : Nat) : List Block :=
  cbcEncryptBlocks (Config.cores.bcEnc k) v ((List.range j).map (padBlock m))

theorem cipherBlocks_succ (k : Key) (v : Block) (m : List Byte) (j : Nat) :
    cipherBlocks k v m (j + 1) = cipherBlocks k v m j ++
      [Config.cores.bcEnc k (xor16 (padBlock m j) (chainAfter v (cipherBlocks k v m j)))] := by
  rw [cipherBlocks, List.range_succ, List.map_append, cbcEncryptBlocks_append]
  rfl

@[simp] theorem length_cipherBlocks (k : Key) (v : Block) (m : List Byte) (j : Nat) :
    (cipherBlocks k v m j).length = j := by
  simp [cipherBlocks]

/-- All the ciphertext blocks after the IV are the container. -/
theorem joinBlocks_cipherBlocks (k : Key) (v : Block) (m : List Byte) :
    v.toList ++ joinBlocks (cipherBlocks k v m (encBlocks m.length)) = encFn Config.cores k v m := by
  rw [encFn, cbcEncrypt, splitBlocks_pad]
  rfl

/-- The state of an encryption of which `j` blocks are done. -/
def State.encrypted (v : Block) (o : Memory) (j : Nat) (s : State) : State :=
  { s with
    obufs := Memory.writeBytes o 0 (v.toList ++ joinBlocks (cipherBlocks s.key v (operand s) j))
    cv := chainAfter v (cipherBlocks s.key v (operand s) j)
    bi := BitVec.ofNat 24 j }

/-- One EBLK step of the loop. -/
theorem encrypted_succ {s : State} {v : Block} {o : Memory} {j : Nat} (hj : j < 2 ^ 21)
    (x : Block) (hx : x = Config.cores.bcEnc s.key (xor16 (padBlock (operand s) j)
      (chainAfter v (cipherBlocks s.key v (operand s) j)))) :
    (s.encrypted v o j).storeCipher x = s.encrypted v o (j + 1) := by
  have hb : (BitVec.ofNat 24 j).toNat = j := by simp; omega
  have hb1 : BitVec.ofNat 24 j + 1#24 = BitVec.ofNat 24 (j + 1) := by
    apply BitVec.eq_of_toNat_eq
    simp
  simp only [State.storeCipher, State.encrypted, hb, hb1, cipherBlocks_succ, ← hx, chainAfter_concat,
    joinBlocks_append]
  congr 1
  rw [← List.append_assoc, Memory.writeBytes_append _ _ (v.toList ++ _)]
  simp [joinBlocks, Nat.mul_comm]

/-- The remaining steps of an encryption, from `j` blocks done to the end of the command. -/
theorem run_encrypted {s : State} {i : Instr} {v : Block} {o : Memory} (he : s.env = []) (hb : s.busy = true)
    (hd : decode s.cmdReg = .ok i) (hp : s.phase = .eblk) (hcap : s.inLen.toNat ≤ Config.ibufBytes)
    (hnb : s.nb.toNat = encBlocks s.inLen.toNat) (d j : Nat) (hj : j + (d + 1) = s.nb.toNat) :
    run (d + 1) (s.encrypted v o j) =
      .next ({ s with obufs := Memory.writeBytes o 0 (encFn Config.cores s.key v (operand s)) }.complete
        (blobLen s.inLen.toNat)) := by
  have hmax := ibufBytes_le
  have hlt := s.nb.isLt
  have hlen : (operand s).length = s.inLen.toNat := by simp [operand]
  induction d generalizing j with
  | zero =>
    have hph : (s.encrypted v o j).phase = .eblk := hp
    have hbj : (s.encrypted v o j).bi.toNat = j := by simp [State.encrypted]; omega
    have hstep : step (s.encrypted v o j) =
        .next ((s.encrypted v o (j + 1)).complete (16 + 16 * s.nb.toNat)) := by
      rw [step_exec (s := s.encrypted v o j) (i := i) he hb hd (by rw [hph]; decide), exec_eblk (s := s.encrypted v o j) _ hph,
        eblkStep_of_le (s := s.encrypted v o j) (c := Config.cores) hcap
          (by rw [hbj, cores_obufBytes]; unfold encBlocks at hnb; omega), hbj,
        encrypted_succ (s := s) (by omega), State.afterEblk, if_pos (by simp [State.encrypted]; omega)]
      · rfl
      · rfl
    rw [run_succ hstep, run_zero]
    have h1 : j + 1 = encBlocks (operand s).length := by rw [hlen, ← hnb]; omega
    have h2 : 16 + 16 * s.nb.toNat = blobLen s.inLen.toNat := by rw [hnb]; rfl
    rw [h2, State.encrypted, h1, joinBlocks_cipherBlocks]
    rfl
  | succ d ih =>
    have hph : (s.encrypted v o j).phase = .eblk := hp
    have hbj : (s.encrypted v o j).bi.toNat = j := by simp [State.encrypted]; omega
    have hstep : step (s.encrypted v o j) = .next (s.encrypted v o (j + 1)) := by
      rw [step_exec (s := s.encrypted v o j) (i := i) he hb hd (by rw [hph]; decide), exec_eblk (s := s.encrypted v o j) _ hph,
        eblkStep_of_le (s := s.encrypted v o j) (c := Config.cores) hcap
          (by rw [hbj, cores_obufBytes]; unfold encBlocks at hnb; omega), hbj,
        encrypted_succ (s := s) (by omega), State.afterEblk, if_neg (by simp [State.encrypted]; omega)]
      rfl
    rw [run_succ hstep]
    exact ih (j + 1) (by omega)

/-- The chain as `EncStart` leaves it is the loop's state with no block done (R161). -/
theorem encStart_encrypted (v : Block) (s : State) : (s.encStart v).encrypted v s.obufs 0 = s.encStart v := by
  simp [State.encrypted, State.encStart, cipherBlocks, cbcEncryptBlocks]

/-! ### DBLK -/

/-- The first `j` plaintext blocks of the container `x`, padding included. -/
def plainBlocks (k : Key) (x : List Byte) (j : Nat) : List Block :=
  cbcDecryptBlocks (Config.cores.bcDec k) (blockAt x 0) ((List.range j).map fun i => blockAt x (i + 1))

theorem chainAfter_range (x : List Byte) (j : Nat) :
    chainAfter (blockAt x 0) ((List.range j).map fun i => blockAt x (i + 1)) = blockAt x j := by
  cases j with
  | zero => rfl
  | succ j => rw [List.range_succ, List.map_append, List.map_singleton, chainAfter_concat]

theorem plainBlocks_succ (k : Key) (x : List Byte) (j : Nat) :
    plainBlocks k x (j + 1) =
      plainBlocks k x j ++ [xor16 (Config.cores.bcDec k (blockAt x (j + 1))) (blockAt x j)] := by
  rw [plainBlocks, List.range_succ, List.map_append, cbcDecryptBlocks_append, chainAfter_range]
  rfl

@[simp] theorem length_plainBlocks (k : Key) (x : List Byte) (j : Nat) : (plainBlocks k x j).length = j := by
  simp [plainBlocks]

theorem blockAt_drop (x : List Byte) (i : Nat) : blockAt (x.drop 16) i = blockAt x (i + 1) := by
  apply block_ext
  intro j hj
  rw [blockAt, blockAt, byteAt_blockOf _ hj, byteAt_blockOf _ hj]
  rw [List.getD_eq_getElem?_getD, List.getD_eq_getElem?_getD, List.getElem?_drop]
  congr 2
  omega

/-- All the plaintext blocks are the container's padded plaintext (R13). -/
theorem joinBlocks_plainBlocks (k : Key) (x : List Byte) :
    joinBlocks (plainBlocks k x ((x.length - 16) / 16)) =
      cbcDecrypt Config.cores k (blockAt x 0) (x.drop 16) := by
  rw [cbcDecrypt, splitBlocks, List.length_drop, plainBlocks]
  have h : blockAt (x.drop 16) = fun i => blockAt x (i + 1) := funext (blockAt_drop x)
  rw [h]

/-- The state of a decryption of which `j` blocks are done. -/
def State.decrypted (o : Memory) (j : Nat) (s : State) : State :=
  { s with
    obufs := Memory.writeBytes o 0 (joinBlocks (plainBlocks s.key (operand s) j))
    lastp := (plainBlocks s.key (operand s) j).getLast?.getD s.lastp
    cv := blockAt (operand s) j
    bi := BitVec.ofNat 24 j }

/-- One DBLK step of the loop. -/
theorem decrypted_succ {s : State} {o : Memory} {j : Nat} (hj : j < 2 ^ 21) (ct x : Block)
    (hct : ct = blockAt (operand s) (j + 1))
    (hx : x = xor16 (Config.cores.bcDec s.key ct) (blockAt (operand s) j)) :
    (s.decrypted o j).storePlain ct x = s.decrypted o (j + 1) := by
  have hb : (BitVec.ofNat 24 j).toNat = j := by simp; omega
  have hb1 : BitVec.ofNat 24 j + 1#24 = BitVec.ofNat 24 (j + 1) := by
    apply BitVec.eq_of_toNat_eq
    simp
  subst hct
  simp only [State.storePlain, State.decrypted, hb, hb1, plainBlocks_succ, ← hx, joinBlocks_append]
  congr 1
  · rw [Memory.writeBytes_append]
    simp [joinBlocks, Nat.mul_comm]
  · simp

/-- The steps of a decryption's loop, from `j` blocks done to UNPAD. -/
theorem run_decrypted {s : State} {i : Instr} {o : Memory} (he : s.env = []) (hb : s.busy = true)
    (hd : decode s.cmdReg = .ok i) (hp : s.phase = .dblk) (hcap : s.inLen.toNat ≤ Config.ibufBytes)
    (hnb : 16 + 16 * s.nb.toNat = s.inLen.toNat) (d j : Nat) (hj : j + (d + 1) = s.nb.toNat) :
    run (d + 1) (s.decrypted o j) = .next { s.decrypted o s.nb.toNat with phase := .unpad } := by
  have hlt := s.nb.isLt
  induction d generalizing j with
  | zero =>
    have hph : (s.decrypted o j).phase = .dblk := hp
    have hbj : (s.decrypted o j).bi.toNat = j := by simp [State.decrypted]; omega
    have hstep : step (s.decrypted o j) = .next { s.decrypted o (j + 1) with phase := .unpad } := by
      rw [step_exec (s := s.decrypted o j) (i := i) he hb hd (by rw [hph]; decide), exec_dblk (s := s.decrypted o j) _ hph,
        dblkStep_of_le (s := s.decrypted o j) (by rw [hbj]; simp only [State.decrypted]; omega) (show s.inLen.toNat ≤ _ from hcap), hbj,
        decrypted_succ (s := s) (by omega), State.afterDblk, if_pos (by simp [State.decrypted]; omega)]
      · rfl
      · rfl
    rw [run_succ hstep, run_zero, show j + 1 = s.nb.toNat by omega]
  | succ d ih =>
    have hph : (s.decrypted o j).phase = .dblk := hp
    have hbj : (s.decrypted o j).bi.toNat = j := by simp [State.decrypted]; omega
    have hstep : step (s.decrypted o j) = .next (s.decrypted o (j + 1)) := by
      rw [step_exec (s := s.decrypted o j) (i := i) he hb hd (by rw [hph]; decide), exec_dblk (s := s.decrypted o j) _ hph,
        dblkStep_of_le (s := s.decrypted o j) (by rw [hbj]; simp only [State.decrypted]; omega) (show s.inLen.toNat ≤ _ from hcap), hbj,
        decrypted_succ (s := s) (by omega), State.afterDblk, if_neg (by simp [State.decrypted]; omega)]
      · rfl
      · rfl
    rw [run_succ hstep]
    exact ih (j + 1) (by omega)

end Sys2Proof.Machine
end

