-- ==== Sys2Proof/Laws/PerInstr.lean ====
section
/-! SUPPORT. The statements made per command: the family EncodedWord says that a command's word keeps RSV zero and decodes to the
command (spec/30_encoding.md R90, R92, R94). -/

namespace Sys2Proof.Laws

/-- RSV of the command's word is zero, and the word decodes to the command. -/
def EncodedWord.Statement (i : Instr) : Prop :=
  rsvField (encode i) = 0#23 ∧ decode (encode i) = .ok i

theorem EncodedWord.dkey : EncodedWord.Statement .dkey := ⟨by decide, rfl⟩

theorem EncodedWord.geniv : EncodedWord.Statement .geniv := ⟨by decide, rfl⟩

theorem EncodedWord.enc (ivs : IvSelect) : EncodedWord.Statement (.enc ivs) := by
  cases ivs <;> exact ⟨by decide, rfl⟩

theorem EncodedWord.dec : EncodedWord.Statement .dec := ⟨by decide, rfl⟩

theorem EncodedWord.enct (ivs : IvSelect) : EncodedWord.Statement (.enct ivs) := by
  cases ivs <;> exact ⟨by decide, rfl⟩

theorem EncodedWord.dect : EncodedWord.Statement .dect := ⟨by decide, rfl⟩

theorem EncodedWord.zero : EncodedWord.Statement .zero := ⟨by decide, rfl⟩

end Sys2Proof.Laws
end

