-- ==== Sys2Proof/Tests/Slice0.lean ====
section
/-! SUPPORT. Tests on the spec's own examples (spec/95_test_vectors.md), smoke tests of WellFormed, and, for every statement with
hypotheses, a state and operands that meet them. The toy functions are those of 95_test_vectors.md section 2. -/

namespace Sys2Proof.Tests

open Sys2Proof.Machine

/-! ### Well-formedness -/

/-- R60: a one-byte write carries one byte. -/
theorem test_wide_value_refused : HostAccess.wellFormed (.write 0#22 1 0x100#32) = false := by decide

theorem test_byte_value_accepted : HostAccess.wellFormed (.write 0#22 1 0xFF#32) = true := by decide

/-- R62, R64, R68: each check of a script statement refuses an ill-formed term. -/
theorem test_read_only_register_refused : Stmt.wellFormed 48 (.wr .outLen 0#32) = false := by decide

theorem test_bytes_past_window_refused : Stmt.wellFormed 48 (.wrb .key 31 [0#8, 0#8]) = false := by decide

theorem test_bytes_to_obuf_refused : Stmt.wellFormed 48 (.wrb .obuf 0 [0#8]) = false := by decide

theorem test_misaligned_word_refused : Stmt.wellFormed 48 (.wrw .iv 2 0#32) = false := by decide

theorem test_word_past_window_refused : Stmt.wellFormed 48 (.wrw .iv 16 0#32) = false := by decide

theorem test_word_to_obuf_refused : Stmt.wellFormed 48 (.wrw .obuf 0 0#32) = false := by decide

theorem test_read_past_window_refused : Stmt.wellFormed 48 (.rdb .obuf 79 2) = false := by decide

theorem test_long_input_refused : Stmt.wellFormed 2 (.ldin [1#8, 2#8, 3#8]) = false := by decide

theorem test_long_output_refused : Stmt.wellFormed 2 (.mvoi [1#8, 2#8, 3#8]) = false := by decide

theorem test_long_pass_refused : Stmt.wellFormed 2 (.encp [1#8, 2#8, 3#8] [] 0 0) = false := by decide

theorem test_long_blob_refused : Stmt.wellFormed 2 (.decp [] [1#8, 2#8, 3#8] 0 0) = false := by decide

theorem test_window_ends_accepted :
    Stmt.wellFormed 48 (.rdb .obuf 79 1) = true ∧ Stmt.wellFormed 48 (.wrw .key 28 0#32) = true := by decide

/-! ### The command words of R94, bit by bit: RSV (23), IVS (1), OP (8) -/

theorem test_decode_dkey : decode 0b00000000000000000000000_0_00000001#32 = .ok .dkey := rfl

theorem test_decode_geniv : decode 0b00000000000000000000000_0_00000010#32 = .ok .geniv := rfl

theorem test_decode_enc_g : decode 0b00000000000000000000000_0_00000011#32 = .ok (.enc .generate) := rfl

theorem test_decode_enc_s : decode 0b00000000000000000000000_1_00000011#32 = .ok (.enc .supplied) := rfl

theorem test_decode_dec : decode 0b00000000000000000000000_0_00000100#32 = .ok .dec := rfl

theorem test_decode_enct_g : decode 0b00000000000000000000000_0_00000101#32 = .ok (.enct .generate) := rfl

theorem test_decode_enct_s : decode 0b00000000000000000000000_1_00000101#32 = .ok (.enct .supplied) := rfl

theorem test_decode_dect : decode 0b00000000000000000000000_0_00000110#32 = .ok .dect := rfl

theorem test_decode_zero : decode 0b00000000000000000000000_0_00000111#32 = .ok .zero := rfl

/-- V9.20 to V9.23: a bit of RSV. -/
theorem test_decode_reserved : decode 0x00000203#32 = .error .reservedBits ∧ decode 0x80000003#32 = .error .reservedBits :=
  ⟨rfl, rfl⟩

/-- V9.3, V9.18, V9.19. -/
theorem test_decode_unknown :
    decode 0x00000000#32 = .error .unknownOpcode ∧ decode 0x00000008#32 = .error .unknownOpcode ∧
      decode 0x000000FF#32 = .error .unknownOpcode := ⟨rfl, rfl, rfl⟩

/-- V9.9, V9.13, V9.15 to V9.17. -/
theorem test_decode_ivs_not_allowed :
    decode 0x00000101#32 = .error .ivsNotAllowed ∧ decode 0x00000102#32 = .error .ivsNotAllowed ∧
      decode 0x00000104#32 = .error .ivsNotAllowed ∧ decode 0x00000106#32 = .error .ivsNotAllowed ∧
      decode 0x00000107#32 = .error .ivsNotAllowed := ⟨rfl, rfl, rfl, rfl, rfl⟩

/-- R65, R90: the bytes of ENC.S from the lowest offset; too few bytes are refused. -/
theorem test_decode_bytes :
    decodeBytes [0x03#8, 0x01#8, 0x00#8, 0x00#8, 0x7F#8] = .ok (.enc .supplied, [0x7F#8]) ∧
      decodeBytes [0x03#8, 0x01#8, 0x00#8] = .error .truncated := ⟨rfl, rfl⟩

theorem test_table_word : decodeTableWord 32 0x103 = some (.enc .supplied) ∧ decodeTableWord 32 0x104 = none :=
  ⟨rfl, rfl⟩

/-- The word placed for the fetch is the command that the next step runs. -/
theorem test_fetch_word : step (State.reset.withFetchWord 32 0x107) =
    .next ((State.reset.accept 0x107#32).fail .illegalCommand) := rfl

theorem test_fetch_runs : step (State.reset.withFetchWord 32 7) = exec .zero (State.reset.accept 7#32) := rfl

/-! ### Pure functions (section 3, section 8) -/

/-- V3.3, V3.4. -/
theorem test_pad_lengths : padLength 0 = 16 ∧ padLength 15 = 1 ∧ padLength 16 = 16 ∧ blobLen 16 = 48 := by decide

/-- V3.2: "A" and fifteen 0x0F. -/
theorem test_pad_one : pad [0x41#8] = 0x41#8 :: List.replicate 15 0x0F#8 := by decide

/-- V3.21: four padding bytes 0x04. -/
theorem test_unpad_four : padOf (List.replicate 12 0#8 ++ List.replicate 4 4#8) = some 4 := by decide

/-- V3.16, V3.14, V3.13. -/
theorem test_unpad_bad :
    padOf (List.replicate 12 0#8 ++ [3#8, 3#8, 2#8, 3#8]) = none ∧ padOf (List.replicate 16 0x11#8) = none ∧
      padOf (List.replicate 16 0#8) = none := by decide

/-- V8.2 to V8.6: a code point of each length, the last before the surrogates, the largest. -/
theorem test_utf8_valid :
    utf8Valid [0xE2#8, 0x82#8, 0xAC#8] = true ∧ utf8Valid [0xF0#8, 0x9F#8, 0x98#8, 0x80#8] = true ∧
      utf8Valid [0xC2#8, 0x80#8] = true ∧ utf8Valid [0xED#8, 0x9F#8, 0xBF#8] = true ∧
      utf8Valid [0xF4#8, 0x8F#8, 0xBF#8, 0xBF#8] = true := by decide

/-- V8.11, V8.13 to V8.16, V8.19. -/
theorem test_utf8_invalid :
    utf8Valid [0xC0#8, 0x80#8] = false ∧ utf8Valid [0xE0#8, 0x80#8, 0x80#8] = false ∧
      utf8Valid [0xF0#8, 0x80#8, 0x80#8, 0x80#8] = false ∧ utf8Valid [0xED#8, 0xA0#8, 0x80#8] = false ∧
      utf8Valid [0xF4#8, 0x90#8, 0x80#8, 0x80#8] = false ∧
      utf8Valid [0x41#8, 0xE2#8, 0x82#8, 0xAC#8, 0x42#8, 0xFF#8] = false := by decide

/-! ### One step of each command on the toy functions (sections 4 to 9) -/

/-- TOY_BC_ENC. -/
def toyEnc (k : Key) (b : Block) : Block :=
  blockOf fun j => (byteAt b ((j + 1) % 16) ^^^ byteAt k ((j + 1) % 16)) + byteAt k (16 + j)

/-- TOY_BC_DEC. -/
def toyDec (k : Key) (c : Block) : Block :=
  blockOf fun j => (byteAt c ((j + 15) % 16) - byteAt k (16 + (j + 15) % 16)) ^^^ byteAt k j

/-- TOY_HASH. -/
def toyHash (m : List Byte) : Key :=
  Vector.ofFn fun j => m.foldl (fun h x => 5#8 * h + x + BitVec.ofNat 8 j.val + 1#8)
    (BitVec.ofNat 8 (0x5C + 31 * j.val + m.length))

/-- The vectors' instance: IBUF_BYTES = 4096. -/
def toy : Cores := { bcEnc := toyEnc, bcDec := toyDec, hash256 := toyHash, ibufBytes := 4096 }

/-- The key `00 01 .. 1f` of the vectors. -/
def keyK : Key := Vector.ofFn fun j => BitVec.ofNat 8 j.val

/-- Sixteen bytes that rise by one. -/
def rising (b : Nat) : Block := blockOf fun j => BitVec.ofNat 8 (b + j)

/-- A command running in a phase on an operand, with the vectors' key and IV. -/
def running (i : Instr) (p : Phase) (m : List Byte) : State :=
  { State.reset.accept (encode i) with
    phase := p, inLen := BitVec.ofNat 32 m.length, ibuf := Memory.writeBytes [] 0 m,
    key := keyK, keyLen := 32#8, iv := rising 0xA0, cv := rising 0xA0 }

/-- A field of the next state. -/
def after {α : Type} (r : Result) (f : State → α) : Option α :=
  match r with
  | .next s => some (f s)
  | .fault _ | .refused _ => none

/-- Section 2's check values: TOY_BC_ENC of `10 .. 1f` under K, and back. -/
theorem test_toy_block : toyEnc keyK (rising 0x10) = rising 0x20 ∧ toyDec keyK (rising 0x20) = rising 0x10 := by decide

/-- V4.2: the key of "a" begins `33 cf 6b 07`. -/
theorem test_dkey_kdf : after (dkeyStep toy (running .dkey .kdf [0x61#8]))
    (fun s => (s.key.toList.take 4, s.keyLen, statusWord s)) =
      some ([0x33#8, 0xCF#8, 0x6B#8, 0x07#8], 32#8, 0x00000002#32) := by decide

/-- V4.8: an operand longer than IBUF; KEY_LEN stays 16. -/
theorem test_dkey_length_range : after (dkeyStep toy { running .dkey .check [] with inLen := 4097#32, keyLen := 16#8 })
    (fun s => (s.keyLen, statusWord s)) = some (16#8, 0x00000062#32) := by decide

/-- V5.1: the draw is the new IV. -/
theorem test_geniv_draw : after (genivStep toy { running .geniv .ivgen [] with entPort := some (rising 0x11) })
    (fun s => (s.iv, s.phase, statusWord s)) = some (rising 0x11, .idle, 0x00000002#32) := by decide

/-- V6.1: the empty message is one block of padding. -/
theorem test_enc_empty : after (encryptStep toy .supplied { running (.enc .supplied) .eblk [] with nb := 1#21 })
    (fun s => (Memory.slice s.obufs 16 16, s.outLen)) = some ((rising 0xC0).toList, 32#32) := by decide

/-- V5.6: a bad key length fails ENC.G in CHECK, before any draw. -/
theorem test_enc_key_length : after (encryptStep toy .generate { running (.enc .generate) .check [] with keyLen := 0#8 })
    (fun s => (statusWord s, s.iv)) = some (0x00000012#32, rising 0xA0) := by decide

/-- The container of R180's worked example. -/
def exampleBlob : List Byte :=
  (rising 0xA0).toList ++ [0xD2#8, 0xD4#8, 0xD6#8, 0xD8#8, 0xDA#8, 0xDC#8, 0xDE#8, 0xE0#8, 0xE2#8, 0xE4#8, 0xE6#8,
    0xE8#8, 0xEA#8, 0xEC#8, 0xBF#8, 0xE0#8]

/-- R180, V7.36: the recovered block is `61 .. 6f 01`. -/
theorem test_dec_block : after (decryptStep toy thenDeliver { running .dec .dblk exampleBlob with nb := 1#21 })
    (fun s => (s.lastp.toList, s.phase)) = some ((List.range 15).map (fun j => BitVec.ofNat 8 (0x61 + j)) ++ [0x01#8], .unpad) := by
  decide

/-- V7.11 and V7.36: a container that is not whole blocks fails; fifteen bytes are left of the recovered block. -/
theorem test_dec_check_and_unpad :
    after (decryptStep toy thenDeliver { running .dec .check [] with inLen := 17#32 }) statusWord = some 0x00000022#32 ∧
    after (decryptStep toy thenDeliver { running .dec .unpad [] with nb := 1#21, lastp := blockOf fun j =>
      if j = 15 then 1#8 else 0x61#8 }) State.outLen = some 15#32 := by decide

/-- V8.21: ENCT enciphers `ff`, which is no text. -/
theorem test_enct_no_test : after (encryptStep toy .supplied { running (.enct .supplied) .eblk [0xFF#8] with nb := 1#21 })
    (fun s => (Memory.read s.obufs 16, Memory.read s.obufs 31, s.err)) = some (0xBF#8, 0x7E#8, 0#3) := by decide

/-- V8.2 and V8.10: the text step of DECT. -/
theorem test_dect_text :
    after (execDect { running .dect .text [] with plen := 3#21, obufs := [(0, 0xE2#8), (1, 0x82#8), (2, 0xAC#8)] })
      (fun s => (statusWord s, s.outLen)) = some (0x00000002#32, 3#32) ∧
    after (execDect { running .dect .text [] with plen := 1#21, obufs := [(0, 0x80#8)] })
      (fun s => (statusWord s, s.outLen)) = some (0x00000042#32, 0#32) := by decide

/-- V9.1: the secrets are gone, CTRL and CMD stay. -/
theorem test_zero_wipe : after (zeroStep toy { running .zero .wipe [0x48#8] with ie := true, obufs := [(3, 7#8)] })
    (fun s => (s.key == zeroKey && s.ibuf.isEmpty && s.obufs.isEmpty, ctrlWord s, s.cmdReg)) =
      some (true, 1#32, 7#32) := by decide

/-! ### The bus (V9.24 to V9.61) -/

/-- R29: the codes of the nine phases in SEQ[3:0]. -/
theorem test_phase_codes :
    [Phase.idle, .check, .ivgen, .kdf, .eblk, .dblk, .unpad, .text, .wipe].map (fun p => (seqWord (State.reset.enter p)).toNat) =
      [0, 1, 2, 3, 4, 5, 6, 7, 8] := by decide

theorem test_bus_reads :
    hostRead toy State.reset 0x000004 4 = .readOkay 0x00001000#32 ∧ hostRead toy State.reset 0x000000 1 = .error ∧
      hostRead toy State.reset 0x000024 4 = .error ∧ hostRead toy State.reset 0x000070 4 = .error ∧
      hostRead toy State.reset 0x20101F 1 = .readOkay 0#32 ∧ hostRead toy State.reset 0x201020 1 = .error := by decide

theorem test_bus_writes :
    (hostWrite toy State.reset 0x00001C 4 0xFFFFFF21#32).map keyLenWord = some 0x00000021#32 ∧
      (hostWrite toy State.reset 0x00006C 4 0xDEADBEEF#32).map (fun s => windowByte s .iv 15) = some 0xDE#8 ∧
      hostWrite toy State.reset 0x000062 4 0#32 = none ∧ hostWrite toy State.reset 0x200000 1 1#32 = none ∧
      (hostWrite toy State.reset 0x100FFF 1 0x5A#32).map State.ibuf = some [(4095, 0x5A#8)] ∧
      hostWrite toy State.reset 0x101000 1 0#32 = none := by decide

/-! ### Witnesses: states and operands that meet the hypotheses of the statements -/

/-- A command in a phase, with a good key length, on an operand of `len` zero bytes. -/
def ready (i : Instr) (p : Phase) (len : Nat) : State :=
  { State.reset.accept (encode i) with phase := p, inLen := BitVec.ofNat 32 len, keyLen := 32#8 }

/-- An idle machine before a command, with a good key length. -/
def loaded (len : Nat) (env : List Event) : State :=
  { State.reset with inLen := BitVec.ofNat 32 len, keyLen := 32#8, env := env }

theorem toNat_len {len : Nat} (h : len ≤ 1048576) : (BitVec.ofNat 32 len).toNat = len := by simp; omega

theorem toNat_full : (BitVec.ofNat 32 Config.ibufBytes).toNat = Config.ibufBytes :=
  toNat_len (ibufBytes_le.trans (by decide))

theorem witness_DecoderAndEncoderAgreeOnBytes :
    Instr.wellFormed .dkey = true ∧ Instr.wellFormed (.enct .supplied) = true := by decide

theorem witness_StepRunsTheDecodedCommand_alone :
    (let s := ready .dkey .kdf 0
     decode s.cmdReg = .ok .dkey ∧ s.busy = true ∧ Instr.wellFormed .dkey = true ∧ s.env = [] ∧
       ¬ (s.phase = .ivgen ∧ s.entPort = none)) ∧
    (let s := { ready .geniv .ivgen 0 with entPort := some (rising 1) }
     decode s.cmdReg = .ok .geniv ∧ s.busy = true ∧ s.env = [] ∧ ¬ (s.phase = .ivgen ∧ s.entPort = none)) := by decide

theorem witness_StepRunsTheDecodedCommand_scheduled :
    let s := { ready (.enc .generate) .ivgen 16 with env := [.sequencer, .reset] }
    decode s.cmdReg = .ok (.enc .generate) ∧ s.busy = true ∧ s.env = [.sequencer, .reset] := by decide

theorem witness_StepRunsTheDecodedCommand_access :
    (loaded 0 [.access (issue .zero), .sequencer]).env = [.access (issue .zero), .sequencer] ∧
    ({ ready .dec .check 5 with env := [.access (readCsr .status)] } : State).env = [.access (readCsr .status)] := by decide

theorem witness_StepRunsTheDecodedCommand_idle :
    (loaded 0 []).busy = false ∧ (loaded 0 []).env = [] ∧ (loaded 0 [.sequencer]).busy = false ∧
      (loaded 0 [.sequencer]).env = [.sequencer] := by decide

theorem witness_AcceptanceOfACommand : (loaded 5 []).busy = false ∧ (ready .dec .check 5).busy = true := by decide

theorem witness_IllegalWordFailsInCheck :
    decodeCommand 0x00000000#32 = none ∧ decodeCommand 0x00000008#32 = none ∧ decodeCommand 0x00000104#32 = none ∧
      decodeCommand 0x00000203#32 = none ∧ (loaded 0 []).env = [] := ⟨rfl, rfl, rfl, rfl, rfl⟩

/-- An operand one byte longer than IBUF. -/
theorem witness_CheckStepInOrder_length :
    let s := ready .dec .check (Config.ibufBytes + 1)
    s.phase = .check ∧ Instr.dec ≠ .geniv ∧ Instr.dec ≠ .zero ∧ Config.ibufBytes < s.inLen.toNat := by
  refine ⟨rfl, by decide, by decide, ?_⟩
  have := ibufBytes_le
  rw [ready, toNat_len (by omega)]
  omega

/-- A full operand and a key length that is off by one. -/
theorem witness_CheckStepInOrder_key :
    let s := { ready (.enc .generate) .check Config.ibufBytes with keyLen := 31#8 }
    s.phase = .check ∧ s.inLen.toNat ≤ Config.ibufBytes ∧ Instr.enc .generate ≠ .dkey ∧
      Instr.enc .generate ≠ .geniv ∧ Instr.enc .generate ≠ .zero ∧ s.keyLen ≠ 32#8 :=
  ⟨rfl, le_of_eq toNat_full, by decide, by decide, by decide, by decide⟩

theorem witness_CheckStepInOrder_container :
    (ready .dec .check 31).phase = .check ∧ (ready .dec .check 31).inLen.toNat ≤ Config.ibufBytes ∧
      (ready .dec .check 31).keyLen = 32#8 ∧ (ready .dec .check 31).inLen.toNat < 32 ∧
      (ready .dect .check 33).inLen.toNat ≤ Config.ibufBytes ∧ ((ready .dect .check 33).inLen.toNat - 16) % 16 ≠ 0 := by
  decide

/-- Each dispatch, on the shortest operand it takes and on a full one. -/
theorem witness_CheckStepInOrder_dispatch :
    (∀ i : Instr, (ready i .check 0).phase = .check ∧ (ready i .check 0).inLen.toNat ≤ Config.ibufBytes ∧
      (ready i .check 0).keyLen = 32#8) ∧
    (ready .dec .check 32).inLen.toNat ≤ Config.ibufBytes ∧ 32 ≤ (ready .dec .check 32).inLen.toNat ∧
      ((ready .dec .check 32).inLen.toNat - 16) % 16 = 0 ∧
    (let s := ready .dect .check Config.ibufBytes
     s.keyLen = 32#8 ∧ s.inLen.toNat ≤ Config.ibufBytes ∧ 32 ≤ s.inLen.toNat ∧ (s.inLen.toNat - 16) % 16 = 0) := by
  have h1 := ibufBytes_ge
  have h2 := ibufBytes_mod
  refine ⟨fun i => ⟨rfl, Nat.zero_le _, rfl⟩, by decide, by decide, by decide, rfl, le_of_eq toNat_full, ?_, ?_⟩ <;>
    rw [ready, toNat_full] <;> omega

theorem witness_CipherStartsSetTheChain :
    (loaded 0 []).inLen.toNat ≤ Config.ibufBytes ∧ Memory.wf (loaded 0 []).obufs = true ∧
      (loaded Config.ibufBytes []).inLen.toNat ≤ Config.ibufBytes ∧
      32 ≤ (loaded 32 []).inLen.toNat ∧ (loaded 32 []).inLen.toNat ≤ Config.ibufBytes ∧
      (loaded 32 []).inLen.toNat % 16 = 0 :=
  ⟨by decide, rfl, le_of_eq toNat_full, by decide, by decide, by decide⟩

theorem witness_DkeyDerivesTheKey :
    (ready .dkey .kdf 0).phase = .kdf ∧ (ready .dkey .kdf 0).inLen.toNat ≤ Config.ibufBytes ∧
      (ready .dkey .kdf Config.ibufBytes).inLen.toNat ≤ Config.ibufBytes :=
  ⟨rfl, by decide, le_of_eq toNat_full⟩

theorem witness_IvgenTakesTheDraw :
    let s := { ready .geniv .ivgen 0 with entPort := some (rising 7) }
    s.phase = .ivgen ∧ s.entPort = some (rising 7) := by decide

theorem witness_IvgenWaitsForEntropy :
    (let s := ready .geniv .ivgen 0
     s.phase = .ivgen ∧ s.entPort = none ∧ s.busy = true) ∧
    (ready .dkey .kdf 0).phase ≠ .ivgen ∧ (loaded 0 []).busy = false ∧
    ({ ready .geniv .ivgen 0 with entPort := some (rising 7) } : State).entPort.isSome = true ∧
    3 ≠ (ready .geniv .ivgen 0).entReq := by decide

/-- The only block of an empty message, the first of two, and the last of a full operand. -/
theorem witness_EblkEncryptsOneBlock :
    (let s := { ready (.enc .supplied) .eblk 0 with nb := 1#21 }
     s.phase = .eblk ∧ s.inLen.toNat ≤ Config.ibufBytes ∧ s.nb.toNat = s.inLen.toNat / 16 + 1 ∧ s.bi.toNat < s.nb.toNat ∧
       s.bi.toNat + 1 = s.nb.toNat) ∧
    (let s := { ready (.enct .supplied) .eblk 16 with nb := 2#21 }
     s.phase = .eblk ∧ s.inLen.toNat ≤ Config.ibufBytes ∧ s.nb.toNat = s.inLen.toNat / 16 + 1 ∧ s.bi.toNat < s.nb.toNat ∧
       s.bi.toNat + 1 ≠ s.nb.toNat) ∧
    (let s := { ready (.enc .generate) .eblk Config.ibufBytes with
        nb := BitVec.ofNat 21 (Config.ibufBytes / 16 + 1), bi := BitVec.ofNat 24 (Config.ibufBytes / 16) }
     s.phase = .eblk ∧ s.inLen.toNat ≤ Config.ibufBytes ∧ s.nb.toNat = s.inLen.toNat / 16 + 1 ∧
       s.bi.toNat + 1 = s.nb.toNat) := by
  refine ⟨by decide, by decide, rfl, le_of_eq toNat_full, ?_, ?_⟩ <;>
    have h := ibufBytes_le <;> simp [ready] <;> omega

/-- The only block of the shortest container, the first of two, and the last of a full buffer. -/
theorem witness_DblkDecryptsOneBlock :
    (let s := { ready .dec .dblk 32 with nb := 1#21 }
     s.phase = .dblk ∧ s.containerOk Config.cores ∧ s.bi.toNat < s.nb.toNat ∧ s.bi.toNat + 1 = s.nb.toNat) ∧
    (let s := { ready .dect .dblk 48 with nb := 2#21 }
     s.phase = .dblk ∧ s.containerOk Config.cores ∧ s.bi.toNat < s.nb.toNat ∧ s.bi.toNat + 1 ≠ s.nb.toNat) ∧
    (let s := { ready .dec .dblk Config.ibufBytes with
        nb := BitVec.ofNat 21 (Config.ibufBytes / 16 - 1), bi := BitVec.ofNat 24 (Config.ibufBytes / 16 - 2) }
     s.phase = .dblk ∧ s.containerOk Config.cores ∧ s.bi.toNat + 1 = s.nb.toNat) := by
  have h1 := ibufBytes_ge
  have h2 := ibufBytes_mod
  have h3 := ibufBytes_le
  refine ⟨⟨rfl, ⟨⟨by decide, rfl⟩, by decide, by decide, by decide⟩, by decide, by decide⟩,
    ⟨rfl, ⟨⟨by decide, rfl⟩, by decide, by decide, by decide⟩, by decide, by decide⟩,
    rfl, ⟨⟨le_of_eq toNat_full, rfl⟩, ?_, ?_, ?_⟩, ?_⟩ <;> simp [ready] <;> omega

/-- The pad value at 0, 1, 16 and 17, one and as many blocks as fit. -/
theorem witness_UnpadTestsTheLastBlock :
    (let s := { ready .dec .unpad 32 with nb := 1#21, bi := 1#24 }
     s.phase = .unpad ∧ 1 ≤ s.nb.toNat ∧ 16 * s.nb.toNat ≤ Config.cores.obufBytes ∧ (byteAt s.lastp 15).toNat = 0) ∧
    (let s := { ready .dec .unpad 32 with nb := 1#21, lastp := blockOf fun _ => 17#8 }
     s.phase = .unpad ∧ 16 < (byteAt s.lastp 15).toNat) ∧
    (let s := { ready .dect .unpad 32 with nb := 1#21, lastp := blockOf fun _ => 1#8 }
     s.phase = .unpad ∧ (byteAt s.lastp 15).toNat = 1 ∧
       ¬ ∃ j, 16 - 1 ≤ j ∧ j ≤ 15 ∧ (byteAt s.lastp j).toNat ≠ 1) ∧
    (let s := { ready .dec .unpad 48 with nb := 2#21, lastp := blockOf fun j => if j = 0 then 15#8 else 16#8 }
     s.phase = .unpad ∧ (byteAt s.lastp 15).toNat = 16 ∧ (byteAt s.lastp 0).toNat ≠ 16) ∧
    (let n := (Config.ibufBytes + 32) / 16
     let s := { ready .dec .unpad 0 with nb := BitVec.ofNat 21 n }
     1 ≤ s.nb.toNat ∧ 16 * s.nb.toNat ≤ Config.cores.obufBytes) := by
  have h1 := ibufBytes_ge
  have h3 := ibufBytes_le
  refine ⟨by decide, by decide, ⟨rfl, by decide, ?_⟩, by decide, ?_, ?_⟩
  · rintro ⟨j, h1, h2, h3⟩
    have : j = 15 := by omega
    subst this
    exact h3 (by decide)
  · simp
    omega
  · simp
    omega

theorem witness_TextTestsTheEncoding :
    (let s := ready .dect .text 32
     s.phase = .text ∧ s.plen.toNat ≤ Config.cores.obufBytes ∧ utf8Valid (Memory.slice s.obufs 0 s.plen.toNat) = true) ∧
    (let s := { ready .dect .text 32 with plen := 1#21, obufs := [(0, 0xFF#8)] }
     s.phase = .text ∧ s.plen.toNat ≤ Config.cores.obufBytes ∧ utf8Valid (Memory.slice s.obufs 0 s.plen.toNat) = false) := by
  decide

theorem witness_ZeroWipesTheSecrets : (ready .zero .wipe 9).phase = .wipe := rfl

/-! #### Steps that answer, one for each row of the transition table -/

/-- The states of the rows: the invariant holds in each, and the command's step answers. -/
def inEblk (len nb : Nat) : State := { ready (.enc .supplied) .eblk len with nb := BitVec.ofNat 21 nb }

def inDblk (len nb : Nat) : State := { ready .dec .dblk len with nb := BitVec.ofNat 21 nb }

def inUnpad (i : Instr) (b : Byte) : State :=
  { ready i .unpad 32 with nb := 1#21, bi := 1#24, lastp := blockOf fun _ => b }

def inText (b : Byte) : State :=
  { ready .dect .text 32 with nb := 1#21, bi := 1#24, plen := 1#21, obufs := Memory.write [] 0 b }

def inIvgen (i : Instr) (port : Option Block) : State := { ready i .ivgen 0 with entPort := port }

theorem ready_check_inv (i : Instr) (len : Nat) : (ready i .check len).Inv Config.cores :=
  inv_of_busy rfl (by simp [ready]) ⟨rfl, rfl, rfl⟩ (Nat.zero_le _) rfl rfl rfl rfl (fun h => nomatch h)
    ⟨rfl, rfl, rfl, rfl, rfl⟩

theorem inIvgen_geniv_inv (port : Option Block) : (inIvgen .geniv port).Inv Config.cores :=
  inv_of_busy rfl (by simp [inIvgen, ready]) ⟨rfl, rfl, rfl⟩ (Nat.zero_le _) rfl rfl rfl rfl (fun _ => rfl)
    ⟨⟨rfl, rfl, rfl, rfl, rfl⟩, .inl (show decode (encode .geniv) = _ from rfl)⟩

theorem inIvgen_enc_inv (port : Option Block) : (inIvgen (.enc .generate) port).Inv Config.cores :=
  inv_of_busy rfl (by simp [inIvgen, ready]) ⟨rfl, rfl, rfl⟩ (Nat.zero_le _) rfl rfl rfl rfl (fun _ => rfl)
    ⟨⟨rfl, rfl, rfl, rfl, rfl⟩, .inr ⟨⟨_, .inl (show decode (encode (.enc .generate)) = _ from rfl)⟩, Nat.zero_le _, rfl⟩⟩

theorem ready_kdf_inv : (ready .dkey .kdf 0).Inv Config.cores :=
  inv_of_busy rfl (by decide) ⟨rfl, rfl, rfl⟩ (by decide) rfl rfl rfl rfl (by decide)
    ⟨⟨rfl, rfl, rfl, rfl, rfl⟩, rfl, by decide⟩

theorem ready_wipe_inv : (ready .zero .wipe 0).Inv Config.cores :=
  inv_of_busy rfl (by decide) ⟨rfl, rfl, rfl⟩ (by decide) rfl rfl rfl rfl (by decide)
    ⟨⟨rfl, rfl, rfl, rfl, rfl⟩, rfl⟩

theorem inEblk_last_inv : (inEblk 0 1).Inv Config.cores :=
  inv_of_busy rfl (by decide) ⟨rfl, rfl, rfl⟩ (by decide) rfl rfl rfl rfl (by decide)
    ⟨⟨_, .inl rfl⟩, ⟨by decide, rfl⟩, by decide, by decide, rfl, rfl⟩

theorem inEblk_first_inv : (inEblk 16 2).Inv Config.cores :=
  inv_of_busy rfl (by decide) ⟨rfl, rfl, rfl⟩ (by decide) rfl rfl rfl rfl (by decide)
    ⟨⟨_, .inl rfl⟩, ⟨by decide, rfl⟩, by decide, by decide, rfl, rfl⟩

theorem inDblk_last_inv : (inDblk 32 1).Inv Config.cores :=
  inv_of_busy rfl (by decide) ⟨rfl, rfl, rfl⟩ (by decide) rfl rfl rfl rfl (by decide)
    ⟨.inl rfl, ⟨⟨by decide, rfl⟩, by decide, by decide, by decide⟩, by decide, rfl⟩

theorem inDblk_first_inv : (inDblk 48 2).Inv Config.cores :=
  inv_of_busy rfl (by decide) ⟨rfl, rfl, rfl⟩ (by decide) rfl rfl rfl rfl (by decide)
    ⟨.inl rfl, ⟨⟨by decide, rfl⟩, by decide, by decide, by decide⟩, by decide, rfl⟩

theorem inUnpad_dec_good_inv : (inUnpad .dec 16#8).Inv Config.cores :=
  inv_of_busy rfl (by decide) ⟨rfl, rfl, rfl⟩ (by decide) rfl rfl rfl rfl (by decide)
    ⟨.inl rfl, ⟨⟨by decide, rfl⟩, by decide, by decide, by decide⟩, rfl, rfl⟩

theorem inUnpad_dec_bad_inv : (inUnpad .dec 0#8).Inv Config.cores :=
  inv_of_busy rfl (by decide) ⟨rfl, rfl, rfl⟩ (by decide) rfl rfl rfl rfl (by decide)
    ⟨.inl rfl, ⟨⟨by decide, rfl⟩, by decide, by decide, by decide⟩, rfl, rfl⟩

theorem inUnpad_dect_inv : (inUnpad .dect 1#8).Inv Config.cores :=
  inv_of_busy rfl (by decide) ⟨rfl, rfl, rfl⟩ (by decide) rfl rfl rfl rfl (by decide)
    ⟨.inr rfl, ⟨⟨by decide, rfl⟩, by decide, by decide, by decide⟩, rfl, rfl⟩

theorem inText_valid_inv : (inText 0x41#8).Inv Config.cores :=
  inv_of_busy rfl (by decide) ⟨rfl, rfl, rfl⟩ (by decide) rfl rfl rfl (by decide) (by decide)
    ⟨rfl, ⟨⟨by decide, rfl⟩, by decide, by decide, by decide⟩, rfl, by decide⟩

theorem inText_invalid_inv : (inText 0x80#8).Inv Config.cores :=
  inv_of_busy rfl (by decide) ⟨rfl, rfl, rfl⟩ (by decide) rfl rfl rfl (by decide) (by decide)
    ⟨rfl, ⟨⟨by decide, rfl⟩, by decide, by decide, by decide⟩, rfl, by decide⟩

/-- Every row's step answers: the hypotheses of the frame, of the transition table and of the invariant's step. -/
theorem witness_SequencerFrame :
    (∃ t, exec .dkey (ready .dkey .check 0) = .next t) ∧ (∃ t, exec (.enc .supplied) (ready (.enc .supplied) .check 0) = .next t) ∧
    (∃ t, exec .geniv (inIvgen .geniv none) = .next t) ∧ (∃ t, exec .geniv (inIvgen .geniv (some (rising 3))) = .next t) ∧
    (∃ t, exec (.enc .generate) (inIvgen (.enc .generate) (some (rising 3))) = .next t) ∧
    (∃ t, exec .dkey (ready .dkey .kdf 0) = .next t) ∧ (∃ t, exec (.enc .supplied) (inEblk 0 1) = .next t) ∧
    (∃ t, exec (.enc .supplied) (inEblk 16 2) = .next t) ∧ (∃ t, exec .dec (inDblk 32 1) = .next t) ∧
    (∃ t, exec .dec (inDblk 48 2) = .next t) ∧ (∃ t, exec .dec (inUnpad .dec 0#8) = .next t) ∧
    (∃ t, exec .dec (inUnpad .dec 16#8) = .next t) ∧ (∃ t, exec .dect (inUnpad .dect 1#8) = .next t) ∧
    (∃ t, exec .dect (inText 0x41#8) = .next t) ∧ (∃ t, exec .dect (inText 0x80#8) = .next t) ∧
    (∃ t, exec .zero (ready .zero .wipe 0) = .next t) :=
  ⟨⟨_, rfl⟩, ⟨_, rfl⟩, ⟨_, rfl⟩, ⟨_, rfl⟩, ⟨_, rfl⟩, ⟨_, (exec_kdf _ rfl).trans (kdfStep_of_le (by decide))⟩,
    ⟨_, (exec_eblk _ rfl).trans (eblkStep_of_le (by decide) (by decide))⟩, ⟨_, (exec_eblk _ rfl).trans (eblkStep_of_le (by decide) (by decide))⟩,
    ⟨_, (exec_dblk _ rfl).trans (dblkStep_of_le (by decide) (by decide))⟩, ⟨_, (exec_dblk _ rfl).trans (dblkStep_of_le (by decide) (by decide))⟩,
    ⟨_, rfl⟩, ⟨_, rfl⟩, ⟨_, rfl⟩, ⟨_, (exec_text _ rfl).trans (textStep_of_le (by decide))⟩, ⟨_, (exec_text _ rfl).trans (textStep_of_le (by decide))⟩, ⟨_, rfl⟩⟩

/-- A state of each row meets the invariant, runs a command, and its sequencer step answers. -/
theorem witness_TransitionsFollowTheTable :
    ∀ s ∈ [ready .dkey .check 0, inIvgen .geniv none, inIvgen .geniv (some (rising 3)),
        inIvgen (.enc .generate) (some (rising 3)), ready .dkey .kdf 0, inEblk 0 1, inEblk 16 2, inDblk 32 1, inDblk 48 2,
        inUnpad .dec 16#8, inUnpad .dect 1#8, inText 0x41#8, ready .zero .wipe 0],
      s.Inv Config.cores ∧ s.busy = true ∧ ∃ t, sequencerStep s = .next t := by
  obtain ⟨c1, _, g0, g1, e1, k, b1, b2, d1, d2, _, u1, u2, t1, _, z⟩ := witness_SequencerFrame
  simp only [List.mem_cons, List.not_mem_nil, or_false]
  rintro s (rfl | rfl | rfl | rfl | rfl | rfl | rfl | rfl | rfl | rfl | rfl | rfl | rfl)
  · exact ⟨ready_check_inv _ _, rfl, c1⟩
  · exact ⟨inIvgen_geniv_inv _, rfl, g0⟩
  · exact ⟨inIvgen_geniv_inv _, rfl, g1⟩
  · exact ⟨inIvgen_enc_inv _, rfl, e1⟩
  · exact ⟨ready_kdf_inv, rfl, k⟩
  · exact ⟨inEblk_last_inv, rfl, b1⟩
  · exact ⟨inEblk_first_inv, rfl, b2⟩
  · exact ⟨inDblk_last_inv, rfl, d1⟩
  · exact ⟨inDblk_first_inv, rfl, d2⟩
  · exact ⟨inUnpad_dec_good_inv, rfl, u1⟩
  · exact ⟨inUnpad_dect_inv, rfl, u2⟩
  · exact ⟨inText_valid_inv, rfl, t1⟩
  · exact ⟨ready_wipe_inv, rfl, z⟩

/-! #### Whole commands -/

theorem witness_ShortCommandsRunToTheirEnd :
    (loaded 0 []).env = [] ∧ (loaded 0 []).inLen.toNat ≤ Config.ibufBytes ∧
    (loaded Config.ibufBytes []).inLen.toNat ≤ Config.ibufBytes ∧
    (loaded (Config.ibufBytes + 1) []).env = [] ∧ Config.ibufBytes < (loaded (Config.ibufBytes + 1) []).inLen.toNat ∧
    (loaded 0 [.sequencer, .entropy 0 (rising 5)]).env = [.sequencer, .entropy 0 (rising 5)] ∧
    (loaded 0 [.sequencer, .entropy 0 (rising 5)]).entPort = none := by
  refine ⟨rfl, by decide, le_of_eq toNat_full, rfl, ?_, rfl, rfl⟩
  have := ibufBytes_le
  rw [loaded, toNat_len (by omega)]
  omega

/-- An empty message, and a full operand. -/
theorem witness_EncryptSuppliedRunsToItsEnd :
    (let s := loaded 0 []
     s.env = [] ∧ s.inLen.toNat ≤ Config.ibufBytes ∧ s.keyLen = 32#8 ∧ s.entPort = none ∧ Memory.wf s.obufs = true) ∧
    (let s := loaded Config.ibufBytes []
     s.env = [] ∧ s.inLen.toNat ≤ Config.ibufBytes ∧ s.keyLen = 32#8 ∧ s.entPort = none ∧ Memory.wf s.obufs = true) :=
  ⟨⟨rfl, by decide, rfl, rfl, rfl⟩, rfl, le_of_eq toNat_full, rfl, rfl, rfl⟩

theorem witness_EncryptGeneratedRunsToItsEnd :
    let s := loaded 16 [.sequencer, .entropy 0 (rising 0xA0)]
    s.env = [.sequencer, .entropy 0 (rising 0xA0)] ∧ s.entPort = none ∧ s.inLen.toNat ≤ Config.ibufBytes ∧ s.keyLen = 32#8 ∧
      Memory.wf s.obufs = true :=
  ⟨rfl, rfl, by decide, rfl, rfl⟩

/-- The shortest container, and a full buffer; also of DecryptResultLaw. -/
theorem witness_DecryptRunsToItsEnd :
    (let s := loaded 32 []
     s.env = [] ∧ s.inLen.toNat ≤ Config.ibufBytes ∧ s.keyLen = 32#8 ∧ 32 ≤ s.inLen.toNat ∧ s.inLen.toNat % 16 = 0 ∧
       Memory.wf s.obufs = true) ∧
    (let s := loaded Config.ibufBytes []
     s.env = [] ∧ s.inLen.toNat ≤ Config.ibufBytes ∧ s.keyLen = 32#8 ∧ 32 ≤ s.inLen.toNat ∧ s.inLen.toNat % 16 = 0 ∧
       Memory.wf s.obufs = true) := by
  have h1 := ibufBytes_ge
  have h2 := ibufBytes_mod
  refine ⟨⟨rfl, by decide, rfl, by decide, by decide, rfl⟩, rfl, le_of_eq toNat_full, rfl, ?_, ?_, rfl⟩ <;>
    rw [loaded, toNat_full] <;> omega

/-- Both parts: a supplied and a drawn IV. -/
theorem witness_EncryptResultLaw :
    (let s := loaded 0 []
     s.entPort = none ∧ s.inLen.toNat ≤ Config.ibufBytes ∧ s.keyLen = 32#8 ∧ Memory.wf s.obufs = true ∧ s.env = []) ∧
    (let s := loaded 16 [.sequencer, .entropy 0 (rising 0xA0)]
     s.entPort = none ∧ s.inLen.toNat ≤ Config.ibufBytes ∧ s.keyLen = 32#8 ∧ Memory.wf s.obufs = true ∧
       s.env = [.sequencer, .entropy 0 (rising 0xA0)]) := ⟨⟨rfl, by decide, rfl, rfl, rfl⟩, rfl, by decide, rfl, rfl, rfl⟩

theorem witness_GenerateThenSupplyIsGenerate :
    let s := loaded 0 [.sequencer, .entropy 0 (rising 1)]
    s.env = [.sequencer, .entropy 0 (rising 1)] ∧ s.entPort = none ∧ s.inLen.toNat ≤ Config.ibufBytes ∧ s.keyLen = 32#8 :=
  ⟨rfl, rfl, by decide, rfl⟩

theorem witness_DecryptTextRunsToItsEnd :
    let s := loaded 48 []
    s.env = [] ∧ s.inLen.toNat ≤ Config.ibufBytes ∧ s.keyLen = 32#8 ∧ 32 ≤ s.inLen.toNat ∧ s.inLen.toNat % 16 = 0 ∧
      Memory.wf s.obufs = true := ⟨rfl, by decide, rfl, by decide, by decide, rfl⟩

/-- Of DecryptResultLaw where the container is malformed (R180: 33 bytes). -/
theorem witness_DecryptResultLaw_malformed :
    let s := loaded 33 []
    s.env = [] ∧ s.inLen.toNat ≤ Config.ibufBytes ∧ s.keyLen = 32#8 ∧ Memory.wf s.obufs = true ∧
      decFn Config.cores s.key (operand s) = .error .malformedInput := ⟨rfl, by decide, rfl, rfl, rfl⟩

/-- The empty message, and the longest whose container fits IBUF. -/
theorem witness_HardwareRoundTrip :
    (let s := loaded 0 []
     s.entPort = none ∧ s.inLen.toNat + 32 ≤ Config.ibufBytes ∧ s.keyLen = 32#8 ∧ Memory.wf s.ibuf = true ∧
       Memory.wf s.obufs = true ∧ s.busy = false ∧ s.env = []) ∧
    (let s := loaded (Config.ibufBytes - 32) [.sequencer, .entropy 0 (rising 2)]
     s.entPort = none ∧ s.inLen.toNat + 32 ≤ Config.ibufBytes ∧ s.keyLen = 32#8 ∧ Memory.wf s.ibuf = true ∧
       Memory.wf s.obufs = true ∧ s.busy = false ∧ s.env = [.sequencer, .entropy 0 (rising 2)]) := by
  refine ⟨⟨rfl, by decide, rfl, rfl, rfl, rfl, rfl⟩, rfl, ?_, rfl, rfl, rfl, rfl, rfl⟩
  have h1 := ibufBytes_ge
  have h2 := ibufBytes_le
  rw [loaded, toNat_len (by omega)]
  omega

theorem witness_EveryCommandEnds :
    (ready (.enc .generate) .check 16).Inv Config.cores ∧ (ready (.enc .generate) .check 16).env = [] ∧
      (ready (.enc .generate) .check 16).busy = true :=
  ⟨ready_check_inv _ _, rfl, rfl⟩

/-- An idle machine after an earlier command: other bytes in both stores, another CMD, DONE set. -/
def used (env : List Event) : State :=
  { loaded 0 env with obufs := [(5, 1#8)], ibuf := [(40, 1#8)], cmdReg := 9#32, done := true, err := 5#3 }

theorem loaded_inv (env : List Event) : (loaded 0 env).Inv Config.cores :=
  inv_of_idle rfl rfl ⟨rfl, rfl, rfl, rfl, rfl⟩ (fun _ => rfl) (Nat.zero_le _) (Nat.zero_le _) rfl rfl rfl rfl rfl

theorem used_inv (env : List Event) : (used env).Inv Config.cores :=
  inv_of_idle rfl rfl ⟨rfl, rfl, rfl, rfl, rfl⟩ (fun _ => rfl) (Nat.zero_le _) (by simp [used]) rfl
    (show Memory.below Config.ibufBytes [(40, 1#8)] = true by decide) rfl
    (show Memory.below Config.cores.obufBytes [(5, 1#8)] = true by decide) rfl

/-- A machine at rest whose hidden registers, SEQ, output length and request number are not those of `loaded`. -/
def marked (env : List Event) : State :=
  { used env with cv := rising 1, lastp := rising 2, nb := 5#21, plen := 6#21, bi := 7#24, outLen := 3#32, entReq := 4 }

theorem loaded_atRest (env : List Event) : (loaded 0 env).AtRest Config.cores := ⟨rfl, rfl, rfl, rfl, rfl, rfl⟩

theorem marked_atRest (env : List Event) : (marked env).AtRest Config.cores :=
  ⟨rfl, rfl, rfl, (used_inv env).ibuf_below, rfl, (used_inv env).obufs_below⟩

theorem witness_CommandsAreStateless :
    (loaded 0 []).AtRest Config.cores ∧ (marked []).AtRest Config.cores ∧ ¬ drawsEntropy (encode .zero) ∧
    (loaded 0 []).env = [] ∧ (marked []).env = [] ∧
    (loaded 0 []).inLen = (marked []).inLen ∧ (loaded 0 []).keyLen = (marked []).keyLen ∧
    (loaded 0 []).key = (marked []).key ∧ (loaded 0 []).iv = (marked []).iv ∧ (loaded 0 []).ie = (marked []).ie ∧
    operand (loaded 0 []) = operand (marked []) ∧
    ∃ t, run 2 ((loaded 0 []).accept (encode .zero)) = .next t ∧ t.busy = false :=
  ⟨loaded_atRest _, marked_atRest _, (by rintro (h | h | h) <;> cases h), rfl, rfl, rfl, rfl, rfl, rfl, rfl, rfl, _, rfl, rfl⟩

theorem witness_CommandsAreStateless_drawn :
    let s₁ := loaded 0 [.sequencer, .entropy 0 (rising 9)]
    let s₂ := marked [.sequencer, .entropy 4 (rising 9)]
    s₁.AtRest Config.cores ∧ s₂.AtRest Config.cores ∧ s₁.env = [.sequencer, .entropy s₁.entReq (rising 9)] ∧
    s₂.env = [.sequencer, .entropy s₂.entReq (rising 9)] ∧ operand s₁ = operand s₂ ∧
    ∃ t, run 3 (s₁.accept (encode .geniv)) = .next t ∧ t.busy = false :=
  ⟨loaded_atRest _, marked_atRest _, rfl, rfl, rfl, _, rfl, rfl⟩

/-! #### Invariants -/

/-- One state for each kind of event, and the machine moving alone. -/
theorem witness_EveryStepKeepsTheInvariant :
    ∀ s ∈ [loaded 0 [.access (issue .dkey)], loaded 0 [.reset], loaded 0 [.entropy 0 (rising 1)],
        used [.sequencer], ready .dkey .check 0],
      s.Inv Config.cores ∧ ∃ t, step s = .next t := by
  simp only [List.mem_cons, List.not_mem_nil, or_false]
  rintro s (rfl | rfl | rfl | rfl | rfl)
  · exact ⟨loaded_inv _, _, rfl⟩
  · exact ⟨loaded_inv _, _, rfl⟩
  · exact ⟨loaded_inv _, _, rfl⟩
  · exact ⟨used_inv _, _, rfl⟩
  · exact ⟨ready_check_inv _ _, _, rfl⟩

theorem witness_NoStepStopsTheMachine : (ready .dect .check 32).Inv Config.cores := ready_check_inv _ _

/-- From reset the host issues ZERO and it runs to its end. -/
theorem witness_ReachableStatesAreLegal :
    ∃ t, run 3 { State.reset with env := [.access (issue .zero), .sequencer, .sequencer] } = .next t ∧
      t.done = true ∧ t.cmdReg = 7#32 := ⟨_, rfl, rfl, rfl⟩

/-- A failure in CHECK, of an illegal word, in UNPAD and in TEXT. -/
theorem witness_FailuresArePrecise :
    ∀ s ∈ [{ ready .dec .check 0 with keyLen := 0#8 }, State.reset.accept 0x00000008#32, inUnpad .dec 0#8, inText 0x80#8],
      s.Inv Config.cores ∧ s.busy = true ∧ ∃ t, sequencerStep s = .next t ∧ t.err ≠ 0#3 := by
  simp only [List.mem_cons, List.not_mem_nil, or_false]
  rintro s (rfl | rfl | rfl | rfl)
  · exact ⟨inv_of_busy rfl (by decide) ⟨rfl, rfl, rfl⟩ (by decide) rfl rfl rfl rfl (by decide) ⟨rfl, rfl, rfl, rfl, rfl⟩,
      rfl, _, rfl, by decide⟩
  · exact ⟨inv_of_busy rfl (by decide) ⟨rfl, rfl, rfl⟩ (by decide) rfl rfl rfl rfl (by decide) ⟨rfl, rfl, rfl, rfl, rfl⟩,
      rfl, _, rfl, by decide⟩
  · exact ⟨inUnpad_dec_bad_inv, rfl, _, rfl, by decide⟩
  · exact ⟨inText_invalid_inv, rfl, (inText 0x80#8).fail .invalidEncoding, rfl, by decide⟩

theorem witness_NoPartialOutput :
    (inDblk 48 2).Inv Config.cores ∧ (inDblk 48 2).busy = true ∧ (used []).Inv Config.cores ∧ (used []).err ≠ 0#3 ∧
      0x200000 ≤ (0x200000#22 : Offset).toNat :=
  ⟨inDblk_first_inv, rfl, used_inv _, by decide, by decide⟩

/-! #### The bus -/

/-- The last register offset that is OKAY and the first that is not. -/
theorem witness_BusyLockout :
    (inDblk 48 2).busy = true ∧ (0x020#22 : Offset).toNat % 4 = 0 ∧ (0x020#22 : Offset).toNat ≤ 0x020 ∧
      ¬ (0x024#22 : Offset).toNat ≤ 0x020 ∧ (0x010#22 : Offset) ≠ 0x008#22 ∧ (0x010#22 : Offset) ≠ 0x00C#22 := by decide

theorem witness_HostCannotDisturbACommand : (inDblk 48 2).busy = true ∧ (inDblk 48 2).done = false := by decide

theorem witness_ReadsAndErrorsChangeNothing :
    (hostAccess Config.cores (.write 0x000#22 4 5#32) State.reset).busResp = some .error := by decide

theorem witness_RegisterWriteEffects : (loaded 0 []).busy = false ∧ (inDblk 48 2).busy = true := by decide

theorem witness_MappedAccessesAreOkay : (loaded 0 []).busy = false ∧ 0 < Config.cores.obufBytes := by decide

/-- R68 and R63: a write of the OBUF window, and a byte write of a register, get ERROR. -/
theorem test_read_only :
    (hostAccess toy (.write 0x200000#22 1 1#32) State.reset).busResp = some .error ∧
      (hostAccess toy (.write 0x000014#22 1 1#32) State.reset).busResp = some .error := by decide

/-- The last byte and the last word of the window. -/
theorem witness_OutputWindowIsMasked :
    (loaded 0 []).busy = false ∧ Config.cores.obufBytes - 1 < Config.cores.obufBytes ∧
      (Config.cores.obufBytes - 4) % 4 = 0 ∧ Config.cores.obufBytes - 4 < Config.cores.obufBytes := by
  have h1 := ibufBytes_ge
  have h2 := ibufBytes_mod
  refine ⟨rfl, ?_, ?_, ?_⟩ <;> rw [cores_obufBytes] <;> omega

/-- The last word of KEY and IV, one of IBUF, and the first of OBUF. -/
theorem witness_WordAccessIsFourByteAccesses :
    (loaded 0 []).busy = false ∧ 28 % 4 = 0 ∧ 28 + 4 ≤ Window.key.size Config.ibufBytes ∧
      12 + 4 ≤ Window.iv.size Config.ibufBytes ∧ 44 + 4 ≤ Window.ibuf.size Config.ibufBytes ∧
      0 + 4 ≤ Window.obuf.size Config.ibufBytes := by decide

theorem witness_WindowByteReadBack :
    (loaded 0 []).busy = false ∧ Memory.wf (loaded 0 []).ibuf = true ∧
      Window.key ≠ .obuf ∧ 31 < Window.key.size Config.ibufBytes ∧
      Window.iv ≠ .obuf ∧ 15 < Window.iv.size Config.ibufBytes ∧
      Window.ibuf ≠ .obuf ∧ Config.ibufBytes - 1 < Window.ibuf.size Config.ibufBytes :=
  ⟨rfl, rfl, by decide, by decide, by decide, by decide, by decide, Nat.sub_lt (by decide) (by decide)⟩

/-- R64, R65: byte and word reads of KEY, IV and IBUF through the bus. -/
theorem test_window_reads :
    let s : State := { State.reset with key := setBytes zeroKey 31 [0xA1#8], iv := rising 0x10, ibuf := [(0, 0x5A#8), (4095, 0xC3#8)] }
    hostRead toy s 0x00005F 1 = .readOkay 0xA1#32 ∧ hostRead toy s 0x00006C 4 = .readOkay 0x1F1E1D1C#32 ∧
      hostRead toy s 0x100FFF 1 = .readOkay 0xC3#32 ∧ hostRead toy s 0x100000 4 = .readOkay 0x5A#32 := by decide

theorem witness_LoadStatementsLoad :
    (loaded 0 []).busy = false ∧ Memory.wf (loaded 0 []).ibuf = true ∧ ([] : List Byte).length ≤ Config.ibufBytes ∧
      (List.replicate Config.ibufBytes (1#8 : Byte)).length ≤ Config.ibufBytes := by
  refine ⟨rfl, rfl, by simp, by simp⟩

theorem witness_ResetAbandonsTheCommand :
    ({ inDblk 48 2 with env := [.reset] } : State).env = [.reset] := rfl

/-- Reset drops request 0; the host issues GENIV again, request 1 is outstanding, and the late answer to request 0 is ignored. -/
theorem witness_ResetAbandonsTheCommand_later :
    let s : State := { inIvgen .geniv none with env := [.reset, .access (issue .geniv), .sequencer] }
    s.env = .reset :: [.access (issue .geniv), .sequencer] ∧ s.busy = true ∧ s.phase = .ivgen ∧ s.entPort = none ∧
    ∃ t u, step s = .next t ∧ run 2 t = .next u ∧ u.phase = .ivgen ∧ u.entReq = 1 ∧
      handleEvent (.entropy 0 (rising 1)) u = .next u ∧ u.awaitsEntropy = true :=
  ⟨rfl, rfl, rfl, rfl, _, _, rfl, rfl, rfl, rfl, rfl, rfl⟩

/-! #### The data path -/

/-- The identity is a lawful cipher; a message of no block and one of two. -/
theorem witness_CbcDecryptUndoesEncrypt :
    (Cores.mk (fun _ b => b) (fun _ b => b) (fun _ => zeroKey) 48).Lawful ∧ ([] : List Byte).length % 16 = 0 ∧
      (List.replicate 32 (7#8 : Byte)).length % 16 = 0 :=
  ⟨⟨fun _ _ => rfl, by decide, by decide, by decide⟩, rfl, rfl⟩

theorem witness_UnpadLaw :
    List.replicate 16 (16#8 : Byte) ≠ [] ∧ (List.replicate 16 (16#8 : Byte)).length % 16 = 0 ∧
      (List.replicate 16 (17#8 : Byte)).length % 16 = 0 := by decide

theorem witness_RoundTripLaw :
    (Cores.mk (fun _ b => b) (fun _ b => b) (fun _ => zeroKey) 1048544).Lawful :=
  ⟨fun _ _ => rfl, by decide, by decide, by decide⟩

theorem witness_DifferentDrawsDifferentContainers :
    (Cores.mk (fun _ b => b) (fun _ b => b) (fun _ => zeroKey) 48).Lawful ∧ rising 0 ≠ rising 1 :=
  ⟨⟨fun _ _ => rfl, by decide, by decide, by decide⟩, by decide⟩

end Sys2Proof.Tests
end

section
/-! The statements of spec/00_scope.md: the open parameters, padding, chaining, UTF-8 and the container. -/

namespace Sys2Proof.Machine

/-! ### The open parameters (R6, R7) -/

/-- What R6 and R7 allow to be assumed holds of `Config.cores`. -/
theorem cores_lawful : Config.cores.Lawful where
  dec_enc k b := (Config.cipher k).symm_apply_apply b
  ibuf_aligned := ibufBytes_mod
  ibuf_ge := ibufBytes_ge
  ibuf_le := ibufBytes_le

theorem bcEnc_bcDec (k : Key) (b : Block) : Config.cores.bcEnc k (Config.cores.bcDec k b) = b :=
  (Config.cipher k).apply_symm_apply b

/-- Settles O52: the cipher is a permutation for each key, and IBUF_BYTES counts whole blocks. -/
theorem openParametersAreLawful : Obligations.OpenParametersAreLawful :=
  ⟨cores_lawful, bcEnc_bcDec⟩

/-! ### The padded message (R10, R11) -/

theorem pad_eq_joinBlocks (m : List Byte) :
    pad m = joinBlocks ((List.range (encBlocks m.length)).map (padBlock m)) := by
  rw [← splitBlocks_pad, joinBlocks_splitBlocks (by simp)]

/-- A block that ends inside the message holds no pad byte. -/
theorem padBlock_eq_blockAt {m : List Byte} {i : Nat} (h : 16 * i + 16 ≤ m.length) : padBlock m i = blockAt m i := by
  apply block_ext
  intro j hj
  rw [padBlock, blockAt, byteAt_blockOf _ hj, byteAt_blockOf _ hj, if_pos (by omega)]

/-- Settles O53: the padded message is the join of its blocks, and only the last block reaches past the message. -/
theorem paddingLaw : Obligations.PaddingLaw := by
  intro m
  refine ⟨length_pad m, padLength_pos _, padLength_le _, pad_eq_joinBlocks m, fun i hi => padBlock_eq_blockAt ?_⟩
  unfold encBlocks at hi
  omega

/-! ### Chaining (R12, R13) -/

/-- Each deciphered block meets the same chaining value as when it was enciphered. -/
theorem cbcDecryptBlocks_cbcEncryptBlocks {enc dec : Block → Block} (h : ∀ b, dec (enc b) = b) (iv : Block)
    (xs : List Block) : cbcDecryptBlocks dec iv (cbcEncryptBlocks enc iv xs) = xs := by
  induction xs generalizing iv with
  | nil => rfl
  | cons x xs ih => simp only [cbcEncryptBlocks, cbcDecryptBlocks, h, xor16_cancel, ih]

theorem cbcDecrypt_cbcEncrypt {c : Cores} (hc : c.Lawful) (k : Key) (iv : Block) {x : List Byte}
    (hx : x.length % 16 = 0) : cbcDecrypt c k iv (cbcEncrypt c k iv x) = x := by
  rw [cbcDecrypt, cbcEncrypt, splitBlocks_joinBlocks, cbcDecryptBlocks_cbcEncryptBlocks (hc.dec_enc k),
    joinBlocks_splitBlocks hx]

/-- Settles O54, by induction on the blocks: splitting and joining are inverse, and so are the two chains. -/
theorem cbcDecryptUndoesEncrypt : Obligations.CbcDecryptUndoesEncrypt := by
  intro c k iv x hc hx
  refine ⟨cbcDecrypt_cbcEncrypt hc k iv hx, ?_⟩
  rw [length_cbcEncrypt]
  omega

/-! ### Unpadding (R14) -/

/-- A test of the last `p` indices below `n`, counted from the end, is a test of the indices `n - p <= i < n`. -/
theorem any_range_fromEnd_iff {f : Nat → Bool} {n p : Nat} (hp : p ≤ n) :
    ((List.range p).any fun k => f (n - 1 - k)) = true ↔ ∃ i, n - p ≤ i ∧ i < n ∧ f i = true := by
  simp only [List.any_eq_true, List.mem_range]
  constructor
  · rintro ⟨k, hk, hf⟩
    exact ⟨n - 1 - k, by omega, by omega, hf⟩
  · rintro ⟨i, hle, hlt, hf⟩
    exact ⟨n - 1 - i, by omega, by rwa [show n - 1 - (n - 1 - i) = i by omega]⟩

/-- The padding test accepts `p` exactly when `p` is the last byte, is 1..16, and fills the last `p` bytes. -/
theorem padOf_eq_some_iff {x : List Byte} {p : Nat} (hx : 16 ≤ x.length) :
    padOf x = some p ↔ (x.getD (x.length - 1) 0#8).toNat = p ∧ 1 ≤ p ∧ p ≤ 16 ∧
      ∀ i, x.length - p ≤ i → i < x.length → (x.getD i 0#8).toNat = p := by
  unfold padOf
  generalize hl : x.getD (x.length - 1) 0#8 = last
  simp only
  split_ifs with h0 h16 hany
  · rw [false_iff]
    rintro ⟨rfl, h1, -⟩
    omega
  · rw [false_iff]
    rintro ⟨rfl, -, hle16, -⟩
    omega
  · rw [any_range_fromEnd_iff (f := fun i => x.getD i 0#8 != last) (by omega)] at hany
    obtain ⟨i, hle, hlt, hne⟩ := hany
    rw [false_iff]
    rintro ⟨rfl, -, -, hall⟩
    exact absurd (BitVec.eq_of_toNat_eq (hall i hle hlt)) (by simpa using hne)
  · rw [any_range_fromEnd_iff (f := fun i => x.getD i 0#8 != last) (by omega)] at hany
    simp only [bne_iff_ne, not_exists, not_and, not_not] at hany
    rw [Option.some_inj]
    constructor
    · rintro rfl
      exact ⟨rfl, by omega, by omega, fun i hle hlt => by rw [hany i hle hlt]⟩
    · exact And.left

theorem unpad_of_none {x : List Byte} (h : padOf x = none) : unpad x = .error .invalidPadding := by
  rw [unpad, h]

theorem unpad_of_some {x : List Byte} {p : Nat} (h : padOf x = some p) : unpad x = .ok (x.take (x.length - p)) := by
  rw [unpad, h]

/-- The padding test on a padded message finds the pad length. -/
theorem padOf_pad (m : List Byte) : padOf (pad m) = some (padLength m.length) := by
  have hlen : (pad m).length = m.length + padLength m.length := by simp [pad]
  have hpos := padLength_pos m.length
  have hfill : ∀ i, m.length ≤ i → i < (pad m).length → ((pad m).getD i 0#8).toNat = padLength m.length := by
    intro i hle hlt
    rw [pad_getD hlt, if_neg (by omega), toNat_padByte]
  rw [padOf_eq_some_iff (by rw [length_pad]; omega)]
  exact ⟨hfill _ (by omega) (by omega), hpos, padLength_le _, fun i hle hlt => hfill i (by omega) hlt⟩

theorem unpad_pad (m : List Byte) : unpad (pad m) = .ok m := by
  have hlen : (pad m).length - padLength m.length = m.length := by simp [pad]
  rw [unpad_of_some (padOf_pad m), hlen, pad, List.take_left]

/-- Settles O55, through what the padding test accepts (`padOf_eq_some_iff`). -/
theorem unpadLaw : Obligations.UnpadLaw := by
  refine ⟨fun x hne hmod => ?_, unpad_pad⟩
  have hpos := List.length_pos_iff.mpr hne
  have hx : 16 ≤ x.length := by omega
  intro p bad
  constructor
  · intro hbad
    apply unpad_of_none
    rw [Option.eq_none_iff_forall_ne_some]
    intro q hq
    obtain ⟨rfl, hq1, hq16, hall⟩ := (padOf_eq_some_iff hx).mp hq
    rcases hbad with h0 | h16 | ⟨i, hle, hlt, hi⟩
    · exact absurd hq1 (by omega)
    · exact absurd hq16 (by omega)
    · exact hi (hall i hle hlt)
  · intro hgood
    simp only [bad, not_or, not_exists, not_and, not_not] at hgood
    obtain ⟨h0, h16, hall⟩ := hgood
    exact unpad_of_some ((padOf_eq_some_iff hx).mpr ⟨rfl, by omega, by omega, hall⟩)

/-! ### UTF-8 (R15) -/

theorem fitsRow_nil_iff (bs : List Byte) : fitsRow [] bs = true ↔ bs = [] := by
  cases bs <;> simp [fitsRow]

theorem fitsRow_cons_iff (lo hi : Nat) (row : Utf8Row) (bs : List Byte) :
    fitsRow ((lo, hi) :: row) bs = true ↔
      ∃ a t, bs = a :: t ∧ (lo ≤ a.toNat ∧ a.toNat ≤ hi) ∧ fitsRow row t = true := by
  cases bs <;> simp [fitsRow]

/-- The model's table is R15's, row by row. -/
theorem utf8Char_iff (bs : List Byte) : utf8Char bs = true ↔ wellFormedCodePoint bs := by
  have hrows : utf8Char bs = true ↔ ∃ row ∈ utf8Table, fitsRow row bs = true := List.any_eq_true
  rw [hrows, utf8Table, wellFormedCodePoint]
  simp only [List.exists_mem_cons_iff, fitsRow_cons_iff, fitsRow_nil_iff, existsAndEq, true_and, and_true,
    List.not_mem_nil, false_and, exists_false, or_false]

/-- An encoded code point has one to four bytes. -/
theorem utf8Char_cases {bs : List Byte} (h : utf8Char bs = true) :
    (∃ a, bs = [a]) ∨ (∃ a b, bs = [a, b]) ∨ (∃ a b c, bs = [a, b, c]) ∨ ∃ a b c d, bs = [a, b, c, d] := by
  rcases (utf8Char_iff bs).mp h with ⟨a, rfl, -⟩ | ⟨a, b, rfl, -⟩ | ⟨a, b, c, rfl, -⟩ | ⟨a, b, c, rfl, -⟩ |
    ⟨a, b, c, rfl, -⟩ | ⟨a, b, c, rfl, -⟩ | ⟨a, b, c, d, rfl, -⟩ | ⟨a, b, c, d, rfl, -⟩ | ⟨a, b, c, d, rfl, -⟩ <;> simp

theorem length_pos_of_utf8Char {bs : List Byte} (h : utf8Char bs = true) : 0 < bs.length := by
  cases bs with
  | nil => exact absurd h (by decide)
  | cons b bs => exact Nat.succ_pos _

theorem utf8Valid_append {ch t : List Byte} (hch : utf8Char ch = true) (ht : utf8Valid t = true) :
    utf8Valid (ch ++ t) = true := by
  rcases utf8Char_cases hch with ⟨a, rfl⟩ | ⟨a, b, rfl⟩ | ⟨a, b, c, rfl⟩ | ⟨a, b, c, d, rfl⟩ <;>
    simp [utf8Valid_cons, hch, ht]

/-- A valid sequence that is not empty begins with an encoded code point, and what follows is valid. -/
theorem exists_front_of_utf8Valid {a : Byte} {t : List Byte} (h : utf8Valid (a :: t) = true) :
    ∃ ch rest, a :: t = ch ++ rest ∧ utf8Char ch = true ∧ utf8Valid rest = true := by
  rw [utf8Valid_cons] at h
  simp only [Bool.or_eq_true, Bool.and_eq_true] at h
  rcases h with h | h
  · exact ⟨[a], t, rfl, h⟩
  obtain _ | ⟨b, t⟩ := t
  · exact absurd h Bool.false_ne_true
  simp only [Bool.or_eq_true, Bool.and_eq_true] at h
  rcases h with h | h
  · exact ⟨[a, b], t, rfl, h⟩
  obtain _ | ⟨c, t⟩ := t
  · exact absurd h Bool.false_ne_true
  simp only [Bool.or_eq_true, Bool.and_eq_true] at h
  rcases h with h | h
  · exact ⟨[a, b, c], t, rfl, h⟩
  obtain _ | ⟨d, t⟩ := t
  · exact absurd h Bool.false_ne_true
  · exact ⟨[a, b, c, d], t, rfl, by simpa using h⟩

theorem utf8Valid_flatten {cs : List (List Byte)} (h : ∀ ch ∈ cs, utf8Char ch = true) :
    utf8Valid cs.flatten = true := by
  induction cs with
  | nil => rfl
  | cons ch cs ih =>
    obtain ⟨hch, hcs⟩ := List.forall_mem_cons.mp h
    exact utf8Valid_append hch (ih hcs)

/-- The code points are read off the front one after another; each shortens what remains. -/
theorem exists_flatten_of_utf8Valid (t : List Byte) (h : utf8Valid t = true) :
    ∃ cs : List (List Byte), (∀ ch ∈ cs, utf8Char ch = true) ∧ t = cs.flatten := by
  induction hn : t.length using Nat.strong_induction_on generalizing t with
  | _ n ih =>
    obtain _ | ⟨a, t⟩ := t
    · exact ⟨[], by simp⟩
    · obtain ⟨ch, rest, heq, hch, hrest⟩ := exists_front_of_utf8Valid h
      have hpos : 0 < ch.length := length_pos_of_utf8Char hch
      have hlt : rest.length < n := by
        rw [← hn, heq, List.length_append]
        omega
      obtain ⟨cs, hcs, rfl⟩ := ih rest.length hlt rest hrest rfl
      exact ⟨ch :: cs, List.forall_mem_cons.mpr ⟨hch, hcs⟩, heq⟩

/-- Settles O56: the model's table is R15's, and code points are read off the front and put back there. -/
theorem utf8ValidIsConcatenation : Obligations.Utf8ValidIsConcatenation := by
  intro t
  simp only [← utf8Char_iff]
  constructor
  · exact exists_flatten_of_utf8Valid t
  · rintro ⟨cs, hcs, rfl⟩
    exact utf8Valid_flatten hcs

/-! ### The container (R16, R17, R18) -/

theorem take_encFn (c : Cores) (k : Key) (iv : Block) (m : List Byte) : (encFn c k iv m).take 16 = iv.toList :=
  List.take_left' (by simp)

theorem drop_encFn (c : Cores) (k : Key) (iv : Block) (m : List Byte) :
    (encFn c k iv m).drop 16 = cbcEncrypt c k iv (pad m) :=
  List.drop_left' (by simp)

/-- Settles O57. The raw IV is the front of the container by R16. -/
theorem containerLayout : Obligations.ContainerLayout := by
  intro c k iv m
  refine ⟨length_encFn c k iv m, ?_, ?_, take_encFn c k iv m, ?_⟩ <;> unfold blobLen <;> omega

/-- On at least two whole blocks the length test of R17 passes, and `DecFn` is unpadding after chaining. -/
theorem decFn_eq_unpad {c : Cores} {k : Key} {blob : List Byte} (h : 32 ≤ blob.length) (h16 : blob.length % 16 = 0) :
    decFn c k blob = unpad (cbcDecrypt c k (blockAt blob 0) (blob.drop 16)) := by
  rw [decFn, if_neg (by omega)]

theorem decFn_encFn {c : Cores} (hc : c.Lawful) (k : Key) (iv : Block) (m : List Byte) :
    decFn c k (encFn c k iv m) = .ok m := by
  have hlen : (encFn c k iv m).length = 16 + 16 * (m.length / 16 + 1) := length_encFn c k iv m
  have hiv : blockAt (encFn c k iv m) 0 = iv := blockAt_append_zero iv _
  rw [decFn_eq_unpad (by omega) (by omega), hiv, drop_encFn, cbcDecrypt_cbcEncrypt hc k iv (by simp), unpad_pad]

/-- Settles O58: the container passes R17's test, its first block is the IV, then chaining and padding are undone. -/
theorem roundTripLaw : Obligations.RoundTripLaw :=
  fun _ k iv m hc => decFn_encFn hc k iv m

end Sys2Proof.Machine
end

section
/-! PROOFS. Family 10_state.md: what one sequencer step can do and leaves alone, the invariant that every step keeps, the
registers as the host reads and writes them, and the reset state. -/

namespace Sys2Proof.Machine

/-! ### What a command's sequencer step can do (R113, R120) -/

/-- Every way in which a sequencer step of the command `i` leads on from `s`, row by row of R120, with the guard of each way. -/
inductive ExecCase (i : Instr) (s : State) : State → Prop where
  | rests (hp : s.phase = .idle) : ExecCase i s s
  | checkFails (hp : s.phase = .check) (k : ErrorKind) : ExecCase i s (s.fail k)
  | goesToKdf (hp : s.phase = .check) (hi : i = .dkey) (hlen : s.inLen.toNat ≤ Config.ibufBytes) :
      ExecCase i s (s.enter .kdf)
  | goesToWipe (hp : s.phase = .check) (hi : i = .zero) : ExecCase i s (s.enter .wipe)
  | goesToIvgen (hp : s.phase = .check)
      (hi : i = .geniv ∨ ((∃ ivs, i = .enc ivs ∨ i = .enct ivs) ∧ s.cipherOperandOk Config.cores)) :
      ExecCase i s (s.enter .ivgen)
  | startsEncrypt (hp : s.phase = .check) (hi : ∃ ivs, i = .enc ivs ∨ i = .enct ivs)
      (hop : s.cipherOperandOk Config.cores) : ExecCase i s (s.encStart s.iv)
  | startsDecrypt (hp : s.phase = .check) (hi : i = .dec ∨ i = .dect) (hop : s.cipherOperandOk Config.cores)
      (hmin : 32 ≤ s.inLen.toNat) (hmod : (s.inLen.toNat - 16) % 16 = 0) : ExecCase i s s.decStart
  | waits (hp : s.phase = .ivgen) (hent : s.entPort = none) : ExecCase i s s
  | endsWithDraw (hp : s.phase = .ivgen) (r : Block) (hi : i = .geniv) :
      ExecCase i s ({ s with iv := r, entPort := none }.complete 0)
  | encryptsWithDraw (hp : s.phase = .ivgen) (r : Block) (hi : i ≠ .geniv) :
      ExecCase i s ({ s with iv := r, entPort := none }.encStart r)
  | derives (hp : s.phase = .kdf) (k : Key) : ExecCase i s ({ s with key := k, keyLen := 32#8 }.complete 0)
  | storesCipher (hp : s.phase = .eblk) (x : Block) (hle : 32 + 16 * s.bi.toNat ≤ Config.cores.obufBytes)
      (hbi : (s.bi + 1#24).toNat ≠ s.nb.toNat) : ExecCase i s (s.storeCipher x)
  | storesLastCipher (hp : s.phase = .eblk) (x : Block) (hle : 32 + 16 * s.bi.toNat ≤ Config.cores.obufBytes) :
      ExecCase i s ((s.storeCipher x).complete (16 + 16 * s.nb.toNat))
  | storesPlain (hp : s.phase = .dblk) (ct x : Block) (hle : 16 + 16 * s.bi.toNat ≤ Config.cores.obufBytes)
      (hbi : (s.bi + 1#24).toNat ≠ s.nb.toNat) : ExecCase i s (s.storePlain ct x)
  | storesLastPlain (hp : s.phase = .dblk) (ct x : Block) (hle : 16 + 16 * s.bi.toNat ≤ Config.cores.obufBytes)
      (hbi : (s.bi + 1#24).toNat = s.nb.toNat) : ExecCase i s ((s.storePlain ct x).enter .unpad)
  | unpadFails (hp : s.phase = .unpad) : ExecCase i s (s.fail .invalidPadding)
  | delivers (hp : s.phase = .unpad) (p : Nat) :
      ExecCase i s (s.complete (BitVec.ofNat 21 (16 * s.nb.toNat - p)).toNat)
  | goesToText (hp : s.phase = .unpad) (hi : i = .dect) (p : Nat) (hpad : 1 ≤ p) :
      ExecCase i s ({ s with plen := BitVec.ofNat 21 (16 * s.nb.toNat - p) }.enter .text)
  | deliversText (hp : s.phase = .text) : ExecCase i s (s.complete s.plen.toNat)
  | textFails (hp : s.phase = .text) : ExecCase i s (s.fail .invalidEncoding)
  | wipes (hp : s.phase = .wipe) : ExecCase i s (s.wipe.complete 0)

theorem cipherOperandOk_of_checks {s : State} (hl : lengthCheck Config.cores s = none) (hk : keyCheck s = none) :
    s.cipherOperandOk Config.cores := ⟨lengthCheck_eq_none.mp hl, keyCheck_eq_none.mp hk⟩

/-- ENC and ENCT after their checks draw the IV or start with the IV register (R113). -/
theorem execCase_of_startEncrypt {i : Instr} {ivs : IvSelect} {s t : State} (hp : s.phase = .check)
    (hi : i = .enc ivs ∨ i = .enct ivs) (hl : lengthCheck Config.cores s = none) (hk : keyCheck s = none)
    (h : startEncrypt ivs s = .next t) : ExecCase i s t := by
  have hop := cipherOperandOk_of_checks hl hk
  cases ivs with
  | generate =>
    cases h
    exact .goesToIvgen hp (.inr ⟨⟨_, hi⟩, hop⟩)
  | supplied =>
    cases h
    exact .startsEncrypt hp ⟨_, hi⟩ hop

/-- DEC and DECT after their checks start with the container's first block (R181). -/
theorem execCase_of_decStart {i : Instr} {s t : State} (hp : s.phase = .check) (hi : i = .dec ∨ i = .dect)
    (hl : lengthCheck Config.cores s = none) (hk : keyCheck s = none) (hc : containerCheck s = none)
    (h : Host.Outcome.next s.decStart = (.next t : Result)) : ExecCase i s t := by
  cases h
  obtain ⟨hmin, hmod⟩ := containerCheck_eq_none.mp hc
  exact .startsDecrypt hp hi (cipherOperandOk_of_checks hl hk) hmin hmod

theorem execCase_of_check {i : Instr} {s t : State} (hp : s.phase = .check) (h : exec i s = .next t) :
    ExecCase i s t := by
  rw [exec_check i hp] at h
  rcases checked_cases h with ⟨_, _, k, _, rfl⟩ | ⟨hall, hd⟩
  · exact .checkFails hp k
  · cases i <;> simp only [checksOf, dispatchOf, List.forall_mem_cons] at hall hd
    case dkey => cases hd; exact .goesToKdf hp rfl (lengthCheck_eq_none.mp hall.1)
    case geniv => cases hd; exact .goesToIvgen hp (.inl rfl)
    case zero => cases hd; exact .goesToWipe hp rfl
    case enc ivs =>
      obtain ⟨hl, hk, _⟩ := hall
      exact execCase_of_startEncrypt hp (.inl rfl) hl hk hd
    case enct ivs =>
      obtain ⟨hl, hk, _⟩ := hall
      exact execCase_of_startEncrypt hp (.inr rfl) hl hk hd
    case dec =>
      obtain ⟨hl, hk, hc, _⟩ := hall
      exact execCase_of_decStart hp (.inl rfl) hl hk hc hd
    case dect =>
      obtain ⟨hl, hk, hc, _⟩ := hall
      exact execCase_of_decStart hp (.inr rfl) hl hk hc hd

theorem afterDrawOf_of_ne {i : Instr} (hi : i ≠ .geniv) : afterDrawOf i = thenEncrypt := by
  cases i
  case geniv => contradiction
  all_goals rfl

theorem execCase_of_ivgen {i : Instr} {s t : State} (hp : s.phase = .ivgen) (h : exec i s = .next t) :
    ExecCase i s t := by
  rw [exec_ivgen i hp] at h
  cases hent : s.entPort with
  | none =>
    rw [ivgenStep_none hent] at h
    cases h
    exact .waits hp hent
  | some r =>
    rw [ivgenStep_some hent] at h
    by_cases hi : i = .geniv
    · subst hi
      cases h
      exact .endsWithDraw hp r rfl
    · rw [afterDrawOf_of_ne hi] at h
      cases h
      exact .encryptsWithDraw hp r hi

theorem execCase_of_eblk {i : Instr} {s t : State} (hp : s.phase = .eblk) (h : exec i s = .next t) :
    ExecCase i s t := by
  rw [exec_eblk i hp] at h
  obtain ⟨p, _, hle, rfl⟩ := eblkStep_next h
  unfold State.afterEblk
  split
  · exact .storesLastCipher hp _ hle
  · exact .storesCipher hp _ hle ‹_›

theorem execCase_of_dblk {i : Instr} {s t : State} (hp : s.phase = .dblk) (h : exec i s = .next t) :
    ExecCase i s t := by
  rw [exec_dblk i hp] at h
  obtain ⟨ct, _, hle, rfl⟩ := dblkStep_next h
  unfold State.afterDblk
  split
  · exact .storesLastPlain hp _ _ hle ‹_›
  · exact .storesPlain hp _ _ hle ‹_›

theorem afterUnpadOf_of_ne {i : Instr} (hi : i ≠ .dect) : afterUnpadOf i = thenDeliver := by
  cases i
  case dect => contradiction
  all_goals rfl

theorem execCase_of_unpad {i : Instr} {s t : State} (hp : s.phase = .unpad) (h : exec i s = .next t) :
    ExecCase i s t := by
  rw [exec_unpad i hp] at h
  rcases unpadStep_cases (afterUnpadOf i) s with ⟨_, hs⟩ | ⟨p, hpad, hs⟩ <;> rw [hs] at h
  · cases h
    exact .unpadFails hp
  · by_cases hi : i = .dect
    · subst hi
      cases h
      exact .goesToText hp rfl p (padOf_bound hpad).1
    · rw [afterUnpadOf_of_ne hi] at h
      cases h
      exact .delivers hp p

/-- The inversion of `exec`: a step that answers is one of the rows of R120. -/
theorem exec_cases {i : Instr} {s t : State} (h : exec i s = .next t) : ExecCase i s t := by
  cases hp : s.phase with
  | idle =>
    rw [exec_idle i hp] at h
    cases h
    exact .rests hp
  | check => exact execCase_of_check hp h
  | ivgen => exact execCase_of_ivgen hp h
  | kdf =>
    rw [exec_kdf i hp] at h
    obtain ⟨_, rfl⟩ := kdfStep_next h
    exact .derives hp _
  | eblk => exact execCase_of_eblk hp h
  | dblk => exact execCase_of_dblk hp h
  | unpad => exact execCase_of_unpad hp h
  | text =>
    rw [exec_text i hp] at h
    obtain ⟨_, ⟨_, rfl⟩ | ⟨_, rfl⟩⟩ := textStep_next h
    · exact .deliversText hp
    · exact .textFails hp
  | wipe =>
    rw [exec_wipe i hp] at h
    cases h
    exact .wipes hp

/-! ### The frame of a sequencer step (R48) -/

/-- No sequencer step touches the interrupt enable, the command register or what the outside holds. -/
theorem exec_keeps_outside {i : Instr} {s t : State} (h : exec i s = .next t) :
    t.ie = s.ie ∧ t.cmdReg = s.cmdReg ∧ t.env = s.env ∧ t.entReq = s.entReq ∧ t.busResp = s.busResp := by
  cases exec_cases h <;> exact ⟨rfl, rfl, rfl, rfl, rfl⟩

/-- The command goes on from `s` to `t`: STATUS and OUT_LEN stay, and the hidden registers change only where R48 lets them. -/
def State.GoesOn (s t : State) : Prop :=
  t.busy = s.busy ∧ t.done = s.done ∧ t.err = s.err ∧ t.outLen = s.outLen ∧ hiddenFrame s.phase s t

/-- The command has ended in `t`, with no output where it failed (R114, R115). -/
def State.Ended (t : State) : Prop :=
  t.busy = false ∧ t.done = true ∧ t.phase = .idle ∧ t.hiddenClear ∧ (t.err ≠ 0#3 → t.outLen = 0#32)

theorem complete_ended (n : Nat) (s : State) : (s.complete n).Ended :=
  ⟨rfl, rfl, rfl, complete_hiddenClear n s, fun h => absurd rfl h⟩

theorem fail_ended (k : ErrorKind) (s : State) : (s.fail k).Ended :=
  ⟨rfl, rfl, rfl, fail_hiddenClear k s, fun _ => rfl⟩

theorem goesOn_refl (s : State) : s.GoesOn s :=
  ⟨rfl, rfl, rfl, rfl, fun _ => rfl, fun _ => rfl, fun _ => rfl, fun _ => rfl, fun _ => rfl, fun _ => rfl⟩

/-- A step goes on under R48's frame, or it is one of R114's and R115's ends. -/
theorem exec_goesOn_or_ended {i : Instr} {s t : State} (h : exec i s = .next t) : s.GoesOn t ∨ t.Ended := by
  cases exec_cases h
  case rests | waits => exact .inl (goesOn_refl s)
  case checkFails | unpadFails | textFails => exact .inr (fail_ended _ _)
  case endsWithDraw | derives | storesLastCipher | delivers | deliversText | wipes => exact .inr (complete_ended _ _)
  case goesToKdf hp _ _ | goesToWipe hp _ | goesToIvgen hp _ | startsEncrypt hp _ _ | startsDecrypt hp _ _ _ _ |
      encryptsWithDraw hp _ _ | goesToText hp _ _ _ =>
    exact .inl ⟨rfl, rfl, rfl, rfl, by simp [hiddenFrame, hp]⟩
  case storesCipher hp _ _ _ => exact .inl ⟨rfl, rfl, rfl, rfl, by simp [hiddenFrame, hp, State.storeCipher]⟩
  case storesPlain hp _ _ _ _ | storesLastPlain hp _ _ _ _ =>
    exact .inl ⟨rfl, rfl, rfl, rfl, by simp [hiddenFrame, hp, State.storePlain]⟩

/-- Only WIPE writes the operand (R32, R48). -/
theorem exec_keeps_operand {i : Instr} {s t : State} (h : exec i s = .next t) (hw : s.phase ≠ .wipe) :
    t.inLen = s.inLen ∧ t.ibuf = s.ibuf := by
  cases exec_cases h
  case wipes hp => exact absurd hp hw
  all_goals exact ⟨rfl, rfl⟩

/-- Only KDF and WIPE write the key (R30, R48). -/
theorem exec_keeps_key {i : Instr} {s t : State} (h : exec i s = .next t) (hw : s.phase ≠ .wipe)
    (hk : s.phase ≠ .kdf) : t.key = s.key ∧ t.keyLen = s.keyLen := by
  cases exec_cases h
  case wipes hp => exact absurd hp hw
  case derives hp _ => exact absurd hp hk
  all_goals exact ⟨rfl, rfl⟩

/-- Only IVGEN and WIPE write IV, and only IVGEN takes an answer from the port (R31, R48). -/
theorem exec_keeps_iv {i : Instr} {s t : State} (h : exec i s = .next t) (hw : s.phase ≠ .wipe)
    (hv : s.phase ≠ .ivgen) : t.iv = s.iv ∧ t.entPort = s.entPort := by
  cases exec_cases h
  case wipes hp => exact absurd hp hw
  case endsWithDraw hp _ _ | encryptsWithDraw hp _ _ => exact absurd hp hv
  all_goals exact ⟨rfl, rfl⟩

/-- Sixteen bytes written at `i` are seen only there. -/
theorem read_writeBlock_out (m : Memory) (i : Nat) (b : Block) {a : Nat} (ha : a < i ∨ i + 16 ≤ a) :
    Memory.read (Memory.writeBytes m i b.toList) a = Memory.read m a :=
  Memory.read_writeBytes_out m i b.toList (by simpa using ha)

/-- Outside WIPE a step writes at most sixteen bytes of the output store: the IV at its start, or block BI of EBLK or
DBLK (R33, R48). -/
theorem exec_keeps_output {i : Instr} {s t : State} {a : Nat} (h : exec i s = .next t) (hw : s.phase ≠ .wipe)
    (hstart : s.phase = .check ∨ s.phase = .ivgen → 16 ≤ a)
    (heblk : s.phase = .eblk → a < 16 + 16 * s.bi.toNat ∨ 16 + 16 * s.bi.toNat + 16 ≤ a)
    (hdblk : s.phase = .dblk → a < 16 * s.bi.toNat ∨ 16 * s.bi.toNat + 16 ≤ a) :
    Memory.read t.obufs a = Memory.read s.obufs a := by
  cases exec_cases h
  case wipes hp => exact absurd hp hw
  case startsEncrypt hp _ _ => exact read_writeBlock_out _ _ _ (.inr (hstart (.inl hp)))
  case encryptsWithDraw hp r _ => exact read_writeBlock_out _ _ _ (.inr (hstart (.inr hp)))
  case storesCipher hp _ _ _ | storesLastCipher hp _ _ => exact read_writeBlock_out _ _ _ (heblk hp)
  case storesPlain hp _ _ _ _ | storesLastPlain hp _ _ _ _ => exact read_writeBlock_out _ _ _ (hdblk hp)
  all_goals rfl

/-- Settles O20: the frame, part by part, of each row of R120. -/
theorem sequencerFrame : Obligations.SequencerFrame := by
  intro i s t h
  obtain ⟨hie, hcmd, henv, hreq, hresp⟩ := exec_keeps_outside h
  refine ⟨hie, hcmd, henv, hreq, hresp, exec_goesOn_or_ended h, fun hw => ?_, exec_keeps_key h, exec_keeps_iv h,
    fun a ha => ?_⟩
  · obtain ⟨hlen, hbuf⟩ := exec_keeps_operand h hw
    exact ⟨hlen, fun a => by rw [hbuf]⟩
  · refine exec_keeps_output h (fun hp => ?_) (fun hp => ?_) (fun hp => ?_) (fun hp => ?_)
    · simp [hp] at ha
    · rcases hp with hp | hp <;> simpa [hp] using ha
    all_goals simpa [hp] using ha

/-! ### The parts of the invariant (R46) -/

/-- Both stores are canonical and inside their capacity. -/
structure State.StoresOk (s : State) : Prop where
  ibuf_wf : Memory.wf s.ibuf = true
  ibuf_below : Memory.below Config.ibufBytes s.ibuf = true
  obufs_wf : Memory.wf s.obufs = true
  obufs_below : Memory.below Config.cores.obufBytes s.obufs = true

theorem storesOk_of_inv {s : State} (h : s.Inv Config.cores) : s.StoresOk :=
  ⟨h.ibuf_wf, h.ibuf_below, h.obufs_wf, h.obufs_below⟩

/-- Only IBUF and OBUFS matter. -/
theorem State.StoresOk.congr {s t : State} (h : s.StoresOk) (hi : t.ibuf = s.ibuf) (ho : t.obufs = s.obufs) :
    t.StoresOk where
  ibuf_wf := hi ▸ h.ibuf_wf
  ibuf_below := hi ▸ h.ibuf_below
  obufs_wf := ho ▸ h.obufs_wf
  obufs_below := ho ▸ h.obufs_below

/-- A block written inside the output store's capacity keeps the stores as the invariant wants them. -/
theorem storesOk_writeBlock {s t : State} {i : Nat} {b : Block} (h : s.StoresOk) (hi : t.ibuf = s.ibuf)
    (ho : t.obufs = Memory.writeBytes s.obufs i b.toList) (hle : i + 16 ≤ Config.cores.obufBytes) : t.StoresOk where
  ibuf_wf := hi ▸ h.ibuf_wf
  ibuf_below := hi ▸ h.ibuf_below
  obufs_wf := ho ▸ Memory.wf_writeBytes i _ h.obufs_wf
  obufs_below := ho ▸ Memory.below_writeBytes i _ h.obufs_below (by simpa using hle)

/-- A command that ends well leaves the invariant (R114). -/
theorem complete_inv {s : State} {n : Nat} (h : s.StoresOk) (hent : s.entPort = none)
    (hn : n ≤ Config.cores.obufBytes) : (s.complete n).Inv Config.cores :=
  inv_of_idle rfl rfl (complete_hiddenClear n s) (fun he => absurd rfl he)
    (by simpa using (Nat.mod_le n _).trans hn) (by simp) h.ibuf_wf h.ibuf_below h.obufs_wf h.obufs_below hent

theorem ErrorKind.code_le (k : ErrorKind) : k.code.toNat ≤ 6 := by cases k <;> decide

/-- A command that fails leaves the invariant (R115). -/
theorem fail_inv {s : State} (k : ErrorKind) (h : s.StoresOk) (hent : s.entPort = none) :
    (s.fail k).Inv Config.cores :=
  inv_of_idle rfl rfl (fail_hiddenClear k s) (fun _ => rfl) (by simp) k.code_le
    h.ibuf_wf h.ibuf_below h.obufs_wf h.obufs_below hent

/-- STATUS and OUT_LEN while a command runs (R24, R27, R46). -/
def State.Running (s : State) : Prop := s.busy = true ∧ s.done = false ∧ s.err = 0#3 ∧ s.outLen = 0#32

theorem running_of_inv {s : State} (h : s.Inv Config.cores) (hb : s.busy = true) : s.Running :=
  ⟨hb, h.legal.busy_quiet hb⟩

/-- A running command with no answer left at the port meets the invariant where the facts of its phase hold. -/
theorem running_inv {s : State} (hr : s.Running) (hst : s.StoresOk) (hp : s.phase ≠ .idle)
    (hbi : s.bi.toNat ≤ s.nb.toNat) (hent : s.entPort = none) (hok : s.phaseOk Config.cores) : s.Inv Config.cores :=
  inv_of_busy hr.1 hp hr.2 hbi hst.ibuf_wf hst.ibuf_below hst.obufs_wf hst.obufs_below (by simp [hent]) hok

/-! ### The rows of R120 keep the invariant -/

theorem encrypts_of_decode {s : State} {i : Instr} (hd : decode s.cmdReg = .ok i)
    (hi : ∃ ivs, i = .enc ivs ∨ i = .enct ivs) : s.encrypts := by
  obtain ⟨ivs, rfl | rfl⟩ := hi
  · exact ⟨ivs, .inl hd⟩
  · exact ⟨ivs, .inr hd⟩

theorem decrypts_of_decode {s : State} {i : Instr} (hd : decode s.cmdReg = .ok i) (hi : i = .dec ∨ i = .dect) :
    s.decrypts := by
  obtain rfl | rfl := hi
  · exact .inl hd
  · exact .inr hd

/-- A phase that starts with clear hidden registers, entered with its own facts. -/
theorem enter_inv {s : State} {p : Phase} (hr : s.Running) (hst : s.StoresOk) (hp : p ≠ .idle) (hh : s.hiddenClear)
    (hent : s.entPort = none) (hok : (s.enter p).phaseOk Config.cores) : (s.enter p).Inv Config.cores := by
  refine running_inv hr (hst.congr rfl rfl) hp ?_ hent hok
  obtain ⟨hbi, _, _, hnb, _⟩ := hh
  simp [hbi, hnb]

/-- `EncStart` counts at least one block and has none done (R161). -/
theorem encStart_inv {s : State} (v : Block) (hr : s.Running) (hst : s.StoresOk) (hh : s.hiddenClear)
    (hent : s.entPort = none) (henc : s.encrypts) (hop : s.cipherOperandOk Config.cores) :
    (s.encStart v).Inv Config.cores := by
  obtain ⟨_, _, hlastp, _, hplen⟩ := hh
  have hcap : s.inLen.toNat ≤ Config.ibufBytes := hop.1
  have hmax := ibufBytes_le
  have hnb : (s.encStart v).nb.toNat = s.inLen.toNat / 16 + 1 := by simp [encBlocks]; omega
  refine running_inv hr (storesOk_writeBlock hst rfl rfl (by simp)) (by simp) (by simp) hent ?_
  simp only [State.phaseOk, encStart_phase]
  exact ⟨henc, hop, hnb, by rw [hnb]; simp, hlastp, hplen⟩

/-- `DecStart` counts the container's blocks after the IV, at least one, and has none done (R181). -/
theorem decStart_inv {s : State} (hr : s.Running) (hst : s.StoresOk) (hh : s.hiddenClear) (hent : s.entPort = none)
    (hdec : s.decrypts) (hop : s.cipherOperandOk Config.cores) (hmin : 32 ≤ s.inLen.toNat)
    (hmod : (s.inLen.toNat - 16) % 16 = 0) : s.decStart.Inv Config.cores := by
  obtain ⟨_, _, _, _, hplen⟩ := hh
  have hcap : s.inLen.toNat ≤ Config.ibufBytes := hop.1
  have hmax := ibufBytes_le
  have hnb : s.decStart.nb.toNat = (s.inLen.toNat - 16) / 16 := by simp; omega
  refine running_inv hr (hst.congr rfl rfl) (by simp) (by simp) hent ?_
  simp only [State.phaseOk, decStart_phase]
  exact ⟨hdec, ⟨hop, hmin, by simp; omega, hnb⟩, by rw [hnb]; simp; omega, hplen⟩

/-- EBLK with blocks left to do (R163). -/
theorem storeCipher_inv {s : State} (x : Block) (h : s.Inv Config.cores) (hb : s.busy = true) (hp : s.phase = .eblk)
    (hle : 32 + 16 * s.bi.toNat ≤ Config.cores.obufBytes) (hbi : (s.bi + 1#24).toNat ≠ s.nb.toNat) :
    (s.storeCipher x).Inv Config.cores := by
  have hr := running_of_inv h hb
  have hent : s.entPort = none := entPort_none h (by simp [hp])
  have hok := h.phase_ok
  simp only [State.phaseOk, hp] at hok
  obtain ⟨henc, hop, hnb, hlt, hlastp, hplen⟩ := hok
  have hsucc := bi_succ hlt
  have hlt' : (s.bi + 1#24).toNat < s.nb.toNat := by omega
  refine running_inv hr (storesOk_writeBlock (storesOk_of_inv h) rfl rfl (by omega))
    (by simp [State.storeCipher, hp]) hlt'.le hent ?_
  simp only [State.phaseOk, State.storeCipher, hp]
  exact ⟨henc, hop, hnb, hlt', hlastp, hplen⟩

/-- DBLK with blocks left to do (R182). -/
theorem storePlain_inv {s : State} (ct x : Block) (h : s.Inv Config.cores) (hb : s.busy = true) (hp : s.phase = .dblk)
    (hle : 16 + 16 * s.bi.toNat ≤ Config.cores.obufBytes) (hbi : (s.bi + 1#24).toNat ≠ s.nb.toNat) :
    (s.storePlain ct x).Inv Config.cores := by
  have hr := running_of_inv h hb
  have hent : s.entPort = none := entPort_none h (by simp [hp])
  have hok := h.phase_ok
  simp only [State.phaseOk, hp] at hok
  obtain ⟨hdec, hcont, hlt, hplen⟩ := hok
  have hsucc := bi_succ hlt
  have hlt' : (s.bi + 1#24).toNat < s.nb.toNat := by omega
  refine running_inv hr (storesOk_writeBlock (storesOk_of_inv h) rfl rfl (by omega))
    (by simp [State.storePlain, hp]) hlt'.le hent ?_
  simp only [State.phaseOk, State.storePlain, hp]
  exact ⟨hdec, hcont, hlt', hplen⟩

/-- DBLK's last block leads to UNPAD with BI at NB (R182). -/
theorem storePlain_enter_unpad_inv {s : State} (ct x : Block) (h : s.Inv Config.cores) (hb : s.busy = true)
    (hp : s.phase = .dblk) (hle : 16 + 16 * s.bi.toNat ≤ Config.cores.obufBytes)
    (hbi : (s.bi + 1#24).toNat = s.nb.toNat) : ((s.storePlain ct x).enter .unpad).Inv Config.cores := by
  have hr := running_of_inv h hb
  have hent : s.entPort = none := entPort_none h (by simp [hp])
  have hok := h.phase_ok
  simp only [State.phaseOk, hp] at hok
  obtain ⟨hdec, hcont, _, hplen⟩ := hok
  have hend : s.bi + 1#24 = s.nb.setWidth 24 := by
    apply BitVec.eq_of_toNat_eq
    have := s.nb.isLt
    rw [hbi, BitVec.toNat_setWidth]
    omega
  refine running_inv hr (storesOk_writeBlock (storesOk_of_inv h) rfl rfl (by omega))
    (by simp) hbi.le hent ?_
  simp only [State.phaseOk, enter_phase]
  exact ⟨hdec, hcont, hend, hplen⟩

/-- DECT's padding test leaves a length below the padded length, since the pad value is not 0 (R14, R183). -/
theorem enter_text_inv {s : State} {p : Nat} (h : s.Inv Config.cores) (hb : s.busy = true) (hp : s.phase = .unpad)
    (hd : decode s.cmdReg = .ok .dect) (hpad : 1 ≤ p) :
    ({ s with plen := BitVec.ofNat 21 (16 * s.nb.toNat - p) }.enter .text).Inv Config.cores := by
  have hr := running_of_inv h hb
  have hent : s.entPort = none := entPort_none h (by simp [hp])
  have hok := h.phase_ok
  simp only [State.phaseOk, hp] at hok
  obtain ⟨_, hcont, hbi, _⟩ := hok
  have ⟨_, hmin, _, hnb⟩ := hcont
  have hlen : (BitVec.ofNat 21 (16 * s.nb.toNat - p)).toNat < 16 * s.nb.toNat := by
    have : (BitVec.ofNat 21 (16 * s.nb.toNat - p)).toNat ≤ 16 * s.nb.toNat - p := by
      rw [BitVec.toNat_ofNat]
      exact Nat.mod_le _ _
    omega
  refine running_inv hr ((storesOk_of_inv h).congr rfl rfl) (by simp) h.legal.bi_le hent ?_
  simp only [State.phaseOk, enter_phase]
  exact ⟨hd, hcont, hbi, hlen⟩

/-- The padded plaintext of a container fits the output store (R33, R181). -/
theorem plain_fits {s : State} (h : s.containerOk Config.cores) : 16 * s.nb.toNat ≤ Config.cores.obufBytes := by
  obtain ⟨⟨hcap, _⟩, _, _, hnb⟩ := h
  simp only [cores_ibufBytes, cores_obufBytes] at hcap ⊢
  omega

/-- Every row of R120 keeps the invariant. -/
theorem exec_keeps_inv {i : Instr} {s t : State} (h : s.Inv Config.cores) (hb : s.busy = true)
    (hd : decode s.cmdReg = .ok i) (hx : exec i s = .next t) : t.Inv Config.cores := by
  have hst := storesOk_of_inv h
  have hr := running_of_inv h hb
  have hok := h.phase_ok
  have hent (hp : s.phase ≠ .ivgen) : s.entPort = none := entPort_none h hp
  cases exec_cases hx
  case rests | waits => exact h
  case checkFails hp k => exact fail_inv k hst (hent (by simp [hp]))
  case unpadFails hp | textFails hp => exact fail_inv _ hst (hent (by simp [hp]))
  case goesToKdf hp hi hlen =>
    simp only [State.phaseOk, hp] at hok
    exact enter_inv hr hst (by simp) hok (hent (by simp [hp])) ⟨hok, hi ▸ hd, hlen⟩
  case goesToWipe hp hi =>
    simp only [State.phaseOk, hp] at hok
    exact enter_inv hr hst (by simp) hok (hent (by simp [hp])) ⟨hok, hi ▸ hd⟩
  case goesToIvgen hp hi =>
    simp only [State.phaseOk, hp] at hok
    exact enter_inv hr hst (by simp) hok (hent (by simp [hp]))
      ⟨hok, hi.imp (fun hg : i = .geniv => hg ▸ hd) fun ⟨henc, hop⟩ => ⟨encrypts_of_decode hd henc, hop⟩⟩
  case startsEncrypt hp hi hop =>
    simp only [State.phaseOk, hp] at hok
    exact encStart_inv _ hr hst hok (hent (by simp [hp])) (encrypts_of_decode hd hi) hop
  case startsDecrypt hp hi hop hmin hmod =>
    simp only [State.phaseOk, hp] at hok
    exact decStart_inv hr hst hok (hent (by simp [hp])) (decrypts_of_decode hd hi) hop hmin hmod
  case endsWithDraw => exact complete_inv (hst.congr rfl rfl) rfl (by simp)
  case encryptsWithDraw hp r hi =>
    simp only [State.phaseOk, hp] at hok
    obtain ⟨hh, hg | ⟨henc, hop⟩⟩ := hok
    · rw [hd] at hg
      cases hg
      exact absurd rfl hi
    · exact encStart_inv (s := { s with iv := r, entPort := none }) r hr (hst.congr rfl rfl) hh rfl henc hop
  case derives hp _ => exact complete_inv (hst.congr rfl rfl) (hent (by simp [hp])) (by simp)
  case storesCipher hp x hle hbi => exact storeCipher_inv x h hb hp hle hbi
  case storesLastCipher hp x hle =>
    simp only [State.phaseOk, hp] at hok
    obtain ⟨_, ⟨hcap, _⟩, hnb, _⟩ := hok
    refine complete_inv (storesOk_writeBlock hst rfl rfl (by omega)) (hent (by simp [hp])) ?_
    simp only [cores_ibufBytes, cores_obufBytes] at hcap ⊢
    omega
  case storesPlain hp ct x hle hbi => exact storePlain_inv ct x h hb hp hle hbi
  case storesLastPlain hp ct x hle hbi => exact storePlain_enter_unpad_inv ct x h hb hp hle hbi
  case delivers hp p =>
    simp only [State.phaseOk, hp] at hok
    obtain ⟨_, hcont, _⟩ := hok
    have hfits := plain_fits hcont
    refine complete_inv hst (hent (by simp [hp])) ?_
    rw [BitVec.toNat_ofNat]
    exact (Nat.mod_le _ _).trans (by omega)
  case goesToText hp hi p hpad => exact enter_text_inv h hb hp (hi ▸ hd) hpad
  case deliversText hp =>
    simp only [State.phaseOk, hp] at hok
    obtain ⟨_, hcont, _, hlen⟩ := hok
    exact complete_inv hst (hent (by simp [hp])) (hlen.le.trans (plain_fits hcont))
  case wipes hp => exact complete_inv ⟨rfl, rfl, rfl, rfl⟩ (hent (by simp [hp])) (by simp)

/-! ### Every step keeps the invariant -/

theorem sequencerStep_keeps_inv {s t : State} (h : s.Inv Config.cores) (hx : sequencerStep s = .next t) :
    t.Inv Config.cores := by
  cases hb : s.busy with
  | false =>
    rw [sequencerStep_idle hb] at hx
    cases hx
    exact h
  | true =>
    cases hd : decode s.cmdReg with
    | ok i =>
      rw [sequencerStep_ok hb hd] at hx
      exact exec_keeps_inv h hb hd hx
    | error e =>
      have hp := illegal_in_check h hb hd
      rw [sequencerStep_illegal hb hd, illegalStep_check hp] at hx
      cases hx
      exact fail_inv _ (storesOk_of_inv h) (entPort_none h (by simp [hp]))

/-- An acceptance, which BUSY = 0 allows, starts from clear hidden registers (R111). -/
theorem accept_inv {s : State} (w : Word) (h : s.Inv Config.cores) (hb : s.busy = false) :
    (s.accept w).Inv Config.cores := by
  obtain ⟨_, ⟨_, hcv, hlastp, hnb, hplen⟩, hent⟩ := idle_of_not_busy h hb
  exact running_inv ⟨rfl, rfl, rfl, rfl⟩ ((storesOk_of_inv h).congr rfl rfl) (by simp) (by simp) hent
    ⟨rfl, hcv, hlastp, hnb, hplen⟩

/-- The host may switch the interrupt enable and take DONE away at any time (R23, R24). -/
theorem ie_done_inv {s : State} (ie done : Bool) (h : s.Inv Config.cores) (hd : done = true → s.done = true) :
    ({ s with ie := ie, done := done } : State).Inv Config.cores where
  legal := {
    busy_iff := h.legal.busy_iff
    busy_quiet := fun hb => by
      obtain ⟨hdone, hquiet⟩ := h.legal.busy_quiet hb
      exact ⟨Bool.eq_false_iff.mpr fun hc => by simp [hd hc] at hdone, hquiet⟩
    failed_empty := h.legal.failed_empty
    idle_clear := h.legal.idle_clear
    out_le := h.legal.out_le
    bi_le := h.legal.bi_le
    phase_le := h.legal.phase_le
    err_le := h.legal.err_le
    irq_iff := by simp [irq] }
  ibuf_wf := h.ibuf_wf
  ibuf_below := h.ibuf_below
  obufs_wf := h.obufs_wf
  obufs_below := h.obufs_below
  entropy_asked := h.entropy_asked
  phase_ok := h.phase_ok

/-- With BUSY = 0 the host may load any operand, key and IV, in a store that stays as the invariant wants it. -/
theorem idle_load_inv {s : State} (inLen : Word) (keyLen : BitVec 8) (key : Key) (iv : Block) (ibuf : Memory)
    (h : s.Inv Config.cores) (hb : s.busy = false) (hwf : Memory.wf ibuf = true)
    (hbelow : Memory.below Config.ibufBytes ibuf = true) :
    ({ s with inLen := inLen, keyLen := keyLen, key := key, iv := iv, ibuf := ibuf } : State).Inv Config.cores := by
  obtain ⟨hp, hh, hent⟩ := idle_of_not_busy h hb
  exact inv_of_idle hb hp hh h.legal.failed_empty h.legal.out_le h.legal.err_le hwf hbelow h.obufs_wf h.obufs_below hent

theorem writeCsr_keeps_inv {s t : State} {r : Csr} {v : Word} (h : s.Inv Config.cores)
    (hw : writeCsr s r v = some t) : t.Inv Config.cores := by
  rcases writeCsr_eq_some hw with ⟨_, rfl⟩ | ⟨_, rfl⟩ | ⟨hb, ⟨_, rfl⟩ | ⟨_, rfl⟩ | ⟨_, rfl⟩⟩
  · exact ie_done_inv _ _ h id
  · exact ie_done_inv _ _ h fun hd => (Bool.and_eq_true_iff.mp hd).1
  · exact accept_inv v h hb
  · exact idle_load_inv _ _ _ _ _ h hb h.ibuf_wf h.ibuf_below
  · exact idle_load_inv _ _ _ _ _ h hb h.ibuf_wf h.ibuf_below

theorem writeWindow_keeps_inv {s t : State} {w : Window} {i : Nat} {bytes : List Byte} (h : s.Inv Config.cores)
    (hfit : i + bytes.length ≤ w.size Config.ibufBytes) (hw : writeWindow s w i bytes = some t) :
    t.Inv Config.cores := by
  obtain ⟨hb, ⟨_, rfl⟩ | ⟨_, rfl⟩ | ⟨rfl, rfl⟩⟩ := writeWindow_eq_some hw
  · exact idle_load_inv _ _ _ _ _ h hb h.ibuf_wf h.ibuf_below
  · exact idle_load_inv _ _ _ _ _ h hb h.ibuf_wf h.ibuf_below
  · exact idle_load_inv _ _ _ _ _ h hb (Memory.wf_writeBytes _ _ h.ibuf_wf)
      (Memory.below_writeBytes _ _ h.ibuf_below hfit)

theorem hostAccess_keeps_inv {s : State} (a : HostAccess) (h : s.Inv Config.cores) :
    (hostAccess Config.cores a s).Inv Config.cores := by
  rcases hostAccess_cases Config.cores a s with ⟨r, hr⟩ | ⟨off, n, v, t, _, hw, ht⟩
  · rw [hr]
    exact inv_congr h rfl
  · rw [ht]
    have hinv : t.Inv Config.cores := by
      rcases hostWrite_eq_some hw with ⟨_, r, _, hr⟩ | ⟨_, w, i, _, hfit, hr⟩
      · exact writeCsr_keeps_inv h hr
      · refine writeWindow_keeps_inv h ?_ hr
        have : ((wordBytes v).take n).length ≤ n := by simp
        simp only [cores_ibufBytes] at hfit
        omega
    exact inv_congr hinv rfl

/-- An answer is taken to the port only where IVGEN waits for it (R118). -/
theorem entropyAnswer_keeps_inv {s : State} (req : Nat) (r : Block) (h : s.Inv Config.cores) :
    (s.entropyAnswer req r).Inv Config.cores := by
  rcases entropyAnswer_cases req r s with hs | ⟨hw, _, hs⟩ <;> rw [hs]
  · exact h
  · simp only [State.awaitsEntropy, Bool.and_eq_true, beq_iff_eq] at hw
    obtain ⟨⟨hb, hp⟩, _⟩ := hw
    exact inv_of_busy hb (by simp [hp]) (h.legal.busy_quiet hb) h.legal.bi_le h.ibuf_wf h.ibuf_below
      h.obufs_wf h.obufs_below (fun _ => hp) h.phase_ok

/-- Settles O32: the reset state is idle, with clear hidden registers and empty stores. -/
theorem resetMeetsTheInvariant : Obligations.ResetMeetsTheInvariant :=
  inv_of_idle rfl rfl ⟨rfl, rfl, rfl, rfl, rfl⟩ (fun he => absurd rfl he) (by simp [State.reset])
    (by simp [State.reset]) rfl rfl rfl rfl rfl

theorem applyReset_inv (s : State) : s.applyReset.Inv Config.cores := inv_congr resetMeetsTheInvariant rfl

theorem handleEvent_keeps_inv {s t : State} {e : Event} (h : s.Inv Config.cores) (hx : handleEvent e s = .next t) :
    t.Inv Config.cores := by
  cases e with
  | access a =>
    cases hx
    exact hostAccess_keeps_inv a h
  | sequencer => exact sequencerStep_keeps_inv h hx
  | entropy req r =>
    cases hx
    exact entropyAnswer_keeps_inv req r h
  | reset =>
    cases hx
    exact applyReset_inv s

theorem runAlone_keeps_inv {s t : State} (h : s.Inv Config.cores) (hx : runAlone s = .next t) :
    t.Inv Config.cores := by
  unfold runAlone at hx
  split at hx
  · cases hx
    exact entropyAnswer_keeps_inv _ _ h
  · exact sequencerStep_keeps_inv h hx

/-- Settles O33, by what the step is: the next event of the schedule, or the machine's own move. -/
theorem everyStepKeepsTheInvariant : Obligations.EveryStepKeepsTheInvariant := by
  intro s t h hx
  cases henv : s.env with
  | nil =>
    rw [step_nil henv] at hx
    exact runAlone_keeps_inv h hx
  | cons e rest =>
    rw [step_cons henv] at hx
    exact handleEvent_keeps_inv (s := { s with env := rest }) (inv_congr h rfl) hx

/-- The induction over a run, once for every fact that the invariant gives. -/
theorem run_keeps_inv {n : Nat} {s t : State} (h : s.Inv Config.cores) (hx : run n s = .next t) :
    t.Inv Config.cores := by
  induction n generalizing s with
  | zero =>
    cases hx
    exact h
  | succ n ih =>
    obtain ⟨s', hs, hrun⟩ := run_succ_cases hx
    exact ih (everyStepKeepsTheInvariant s s' h hs) hrun

/-- Settles O35: R46 is a part of the invariant, which holds at reset and along every run. -/
theorem reachableStatesAreLegal : Obligations.ReachableStatesAreLegal :=
  fun _ _ _ hx => (run_keeps_inv (inv_congr resetMeetsTheInvariant rfl) hx).legal

/-! ### The registers as the host reads and writes them (R21 to R29) -/

/-- A register's value is its fields', each at its place. -/
theorem toNat_append_fields {m n : Nat} (x : BitVec m) (y : BitVec n) :
    (x ++ y).toNat = 2 ^ n * x.toNat + y.toNat := by
  rw [BitVec.toNat_append, ← Nat.shiftLeft_add_eq_or_of_lt y.isLt, Nat.shiftLeft_eq, Nat.mul_comm]

theorem configWord_toNat : (configWord Config.cores).toNat = Config.ibufBytes := by
  have := ibufBytes_le
  simp only [configWord, toNat_append_fields, cores_ibufBytes, BitVec.toNat_ofNat]
  omega

theorem ctrlWord_toNat (s : State) : (ctrlWord s).toNat = s.ie.toNat := by
  simp only [ctrlWord, toNat_append_fields, BitVec.toNat_ofNat, BitVec.toNat_ofBool]
  omega

theorem statusWord_toNat (s : State) :
    (statusWord s).toNat = s.busy.toNat + 2 * s.done.toNat + 16 * s.err.toNat := by
  simp only [statusWord, toNat_append_fields, BitVec.toNat_ofNat, BitVec.toNat_ofBool]
  omega

theorem keyLenWord_toNat (s : State) : (keyLenWord s).toNat = s.keyLen.toNat := by
  simp only [keyLenWord, toNat_append_fields, BitVec.toNat_ofNat]
  omega

theorem seqWord_toNat (s : State) : (seqWord s).toNat = s.phase.code.toNat + 256 * s.bi.toNat := by
  simp only [seqWord, toNat_append_fields, BitVec.toNat_ofNat]
  omega

/-- Settles O42: a read answers the register's word, whose value is that of its fields. -/
theorem registerReadValues : Obligations.RegisterReadValues := by
  intro s phaseCode
  have hread := hostRead_csr Config.cores s
  have hcode : s.phase.code.toNat = phaseCode := by
    simp only [phaseCode]
    cases s.phase <;> rfl
  exact ⟨hread .id, ⟨_, hread .config, configWord_toNat⟩, ⟨_, hread .ctrl, ctrlWord_toNat s⟩,
    ⟨_, hread .status, statusWord_toNat s⟩, hread .cmd, hread .inLen, hread .outLen,
    ⟨_, hread .keyLen, keyLenWord_toNat s⟩, ⟨_, hread .seq, hcode ▸ seqWord_toNat s⟩⟩

/-- CTRL takes bit 0 in every state (R23). -/
theorem writeCsr_ctrl (s : State) (v : Word) : writeCsr s .ctrl v = some { s with ie := v.getLsbD 0 } := rfl

/-- STATUS takes DONE away where bit 1 is set, in every state (R24). -/
theorem writeCsr_status (s : State) (v : Word) :
    writeCsr s .status v = some { s with done := s.done && !v.getLsbD 1 } := by
  unfold writeCsr
  cases v.getLsbD 1 <;> simp [State.ackDone]

/-- CMD, IN_LEN and KEY_LEN are locked while BUSY = 1 (R69). -/
theorem writeCsr_locked {s : State} {r : Csr} {v : Word} (hb : s.busy = true)
    (hr : r = .cmd ∨ r = .inLen ∨ r = .keyLen) : writeCsr s r v = none := by
  rcases hr with rfl | rfl | rfl <;> simp [writeCsr, hb]

/-- Settles O43: a word write at a register's offset is the register's write, and each register says what that is. -/
theorem registerWriteEffects : Obligations.RegisterWriteEffects := by
  intro s v
  have hwrite (r : Csr) := hostWrite_csr Config.cores s r v
  have hlow : v.extractLsb' 0 8 = v.setWidth 8 := (BitVec.setWidth_eq_extractLsb' (by decide)).symm
  refine ⟨(hwrite .ctrl).trans (writeCsr_ctrl s v), (hwrite .status).trans (writeCsr_status s v), fun hb => ?_,
    fun hb => ?_, hwrite .id, hwrite .config, hwrite .outLen, hwrite .seq⟩
  · exact ⟨(hwrite .cmd).trans (writeCsr_cmd hb), (hwrite .inLen).trans (writeCsr_inLen hb),
      hlow ▸ (hwrite .keyLen).trans (writeCsr_keyLen hb)⟩
  · exact ⟨(hwrite .cmd).trans (writeCsr_locked hb (by simp)), (hwrite .inLen).trans (writeCsr_locked hb (by simp)),
      (hwrite .keyLen).trans (writeCsr_locked hb (by simp))⟩

/-! ### The reset state (R45) -/

theorem byteAt_replicate_zero {n : Nat} (i : Nat) : byteAt (Vector.replicate n 0#8) i = 0#8 := by
  rcases Nat.lt_or_ge i n with h | h
  · rw [byteAt_of_lt _ h, Vector.getElem_replicate]
  · exact byteAt_of_ge _ h

/-- Settles O50: every field is its reset value, a store with no listed byte reads 0x00, and ID and CONFIG have no field. -/
theorem resetStateIsAllZero : Obligations.ResetStateIsAllZero :=
  ⟨rfl, rfl, rfl, rfl, rfl, rfl, rfl, rfl, rfl, rfl, byteAt_replicate_zero, byteAt_replicate_zero,
    Memory.read_nil, Memory.read_nil, byteAt_replicate_zero, byteAt_replicate_zero, rfl, rfl, rfl,
    hostRead_csr Config.cores _ .id, ⟨_, hostRead_csr Config.cores _ .config, configWord_toNat⟩, rfl, rfl, rfl, rfl⟩

end Sys2Proof.Machine
end

section
/-! PROOFS. Family 20_memory.md: which host accesses get OKAY, what the windows answer and take, and why no sequencer access to the
buffers faults. -/

namespace Sys2Proof.Machine

/-! ### The accesses that get OKAY (R62 to R69) -/

/-- The offset lies in the window. -/
def InWindow (c : Cores) (w : Window) (off : Nat) : Prop :=
  windowBase w ≤ off ∧ off < windowBase w + w.size c.ibufBytes

/-- Base and size of every window are whole words (R62). -/
theorem window_aligned {c : Cores} (hc : c.Lawful) (w : Window) :
    windowBase w % 4 = 0 ∧ w.size c.ibufBytes % 4 = 0 := by
  have := hc.ibuf_aligned
  refine ⟨by cases w <;> rfl, ?_⟩
  cases w with
  | key | iv => simp only [Window.size]
  | ibuf | obuf =>
    simp only [Window.size]
    omega

/-- An access of a right size and alignment that starts in a window lies in it whole (R64). -/
theorem InWindow.index {c : Cores} {w : Window} {off n : Nat} (h : InWindow c w off) (hc : c.Lawful)
    (hn : n = 1 ∨ n = 4 ∧ off % 4 = 0) :
    ∃ i, off = windowBase w + i ∧ (n = 1 ∨ n = 4 ∧ i % 4 = 0) ∧ i + n ≤ w.size c.ibufBytes := by
  obtain ⟨hbase, hlt⟩ := h
  obtain ⟨halign, hsize⟩ := window_aligned hc w
  exact ⟨off - windowBase w, by omega, by omega, by omega⟩

theorem inWindow_index {c : Cores} {w : Window} {i n : Nat} (hn : n = 1 ∨ n = 4 ∧ (windowBase w + i) % 4 = 0)
    (hi : i + n ≤ w.size c.ibufBytes) : InWindow c w (windowBase w + i) := by
  unfold InWindow
  omega

/-- The registers stand at the words up to 0x020 (R62). -/
theorem exists_csrOffset_iff {off : Nat} : (∃ r, off = csrOffset r) ↔ off % 4 = 0 ∧ off ≤ 0x020 := by
  constructor
  · rintro ⟨r, rfl⟩
    cases r <;> simp [csrOffset]
  · rintro ⟨hm, hle⟩
    obtain ⟨q, rfl⟩ := Nat.dvd_of_mod_eq_zero hm
    have hq : q < 9 := by omega
    interval_cases q
    exacts [⟨.id, rfl⟩, ⟨.config, rfl⟩, ⟨.ctrl, rfl⟩, ⟨.status, rfl⟩, ⟨.cmd, rfl⟩, ⟨.inLen, rfl⟩, ⟨.outLen, rfl⟩,
      ⟨.keyLen, rfl⟩, ⟨.seq, rfl⟩]

/-- The reads that get OKAY: a register's word, and with BUSY = 0 the bytes and words of a window (R62 to R69). -/
theorem hostRead_okay_iff {c : Cores} (hc : c.Lawful) (s : State) (off n : Nat) :
    (∃ x, hostRead c s off n = .readOkay x) ↔
      (n = 4 ∧ ∃ r, off = csrOffset r) ∨
      (s.busy = false ∧ (n = 1 ∨ n = 4 ∧ off % 4 = 0) ∧ ∃ w : Window, InWindow c w off) := by
  constructor
  · rintro ⟨x, hx⟩
    rcases hostRead_cases c s off n with he | ⟨hn, r, hr, _⟩ | ⟨hb, hn, w, i, rfl, hi, _⟩
    · simp [he] at hx
    · exact .inl ⟨hn, r, hr⟩
    · exact .inr ⟨hb, hn, w, inWindow_index hn hi⟩
  · rintro (⟨rfl, r, rfl⟩ | ⟨hb, hn, w, hw⟩)
    · exact ⟨_, hostRead_csr c s r⟩
    · obtain ⟨i, rfl, hn', hi⟩ := hw.index hc hn
      exact ⟨_, by rw [hostRead_window hc.ibuf_le hn' hi, hb]; rfl⟩

/-- A read that does not get OKAY gets ERROR (R61). -/
theorem hostRead_eq_error {c : Cores} {s : State} {off n : Nat} (h : ¬ ∃ x, hostRead c s off n = .readOkay x) :
    hostRead c s off n = .error := by
  rcases hostRead_cases c s off n with he | ⟨_, _, _, hr⟩ | ⟨_, _, _, _, _, _, hr⟩
  · exact he
  · exact absurd ⟨_, hr⟩ h
  · exact absurd ⟨_, hr⟩ h

/-- The registers that take a write: CTRL and STATUS always, CMD, IN_LEN and KEY_LEN with BUSY = 0 (R68, R69). -/
def State.TakesWrite (s : State) (r : Csr) : Prop :=
  r = .ctrl ∨ r = .status ∨ (s.busy = false ∧ (r = .cmd ∨ r = .inLen ∨ r = .keyLen))

theorem writeCsr_okay_iff (s : State) (r : Csr) (v : Word) : (∃ t, writeCsr s r v = some t) ↔ s.TakesWrite r := by
  constructor
  · rintro ⟨t, ht⟩
    rcases writeCsr_eq_some ht with ⟨hr, _⟩ | ⟨hr, _⟩ | ⟨hb, ⟨hr, _⟩ | ⟨hr, _⟩ | ⟨hr, _⟩⟩ <;> simp [State.TakesWrite, *]
  · rintro (rfl | rfl | ⟨hb, rfl | rfl | rfl⟩)
    exacts [⟨_, writeCsr_ctrl s v⟩, ⟨_, writeCsr_status s v⟩, ⟨_, writeCsr_cmd hb⟩, ⟨_, writeCsr_inLen hb⟩,
      ⟨_, writeCsr_keyLen hb⟩]

/-- KEY, IV and IBUF take a write with BUSY = 0, OBUF never (R68, R69). -/
theorem writeWindow_okay_iff (s : State) (w : Window) (i : Nat) (bytes : List Byte) :
    (∃ t, writeWindow s w i bytes = some t) ↔ s.busy = false ∧ w ≠ .obuf := by
  constructor
  · rintro ⟨t, ht⟩
    obtain ⟨hb, ⟨rfl, _⟩ | ⟨rfl, _⟩ | ⟨rfl, _⟩⟩ := writeWindow_eq_some ht <;> exact ⟨hb, by simp⟩
  · rintro ⟨hb, hw⟩
    cases w with
    | key => exact ⟨_, writeWindow_key hb⟩
    | iv => exact ⟨_, writeWindow_iv hb⟩
    | ibuf => exact ⟨_, writeWindow_ibuf hb⟩
    | obuf => exact absurd rfl hw

/-- The writes that get OKAY: a word of a register that takes it, and with BUSY = 0 the bytes and words of KEY, IV and IBUF
(R62 to R69). -/
theorem hostWrite_okay_iff {c : Cores} (hc : c.Lawful) (s : State) (off n : Nat) (v : Word) :
    (∃ t, hostWrite c s off n v = some t) ↔
      (n = 4 ∧ ∃ r : Csr, off = csrOffset r ∧ s.TakesWrite r) ∨
      (s.busy = false ∧ (n = 1 ∨ n = 4 ∧ off % 4 = 0) ∧ ∃ w : Window, InWindow c w off ∧ w ≠ .obuf) := by
  constructor
  · rintro ⟨t, ht⟩
    rcases hostWrite_eq_some ht with ⟨hn, r, hr, hw⟩ | ⟨hn, w, i, rfl, hi, hw⟩
    · exact .inl ⟨hn, r, hr, (writeCsr_okay_iff s r v).mp ⟨t, hw⟩⟩
    · obtain ⟨hb, hne⟩ := (writeWindow_okay_iff s w i _).mp ⟨t, hw⟩
      exact .inr ⟨hb, hn, w, inWindow_index hn hi, hne⟩
  · rintro (⟨rfl, r, rfl, hr⟩ | ⟨hb, hn, w, hw, hne⟩)
    · rw [hostWrite_csr]
      exact (writeCsr_okay_iff s r v).mpr hr
    · obtain ⟨i, rfl, hn', hi⟩ := hw.index hc hn
      rw [hostWrite_window hc.ibuf_le hn' hi]
      exact (writeWindow_okay_iff s w i _).mpr ⟨hb, hne⟩

/-- A write that does not get OKAY gets ERROR and changes nothing of CBCC (R61). -/
theorem hostAccess_write_error {c : Cores} {s : State} {off : Offset} {n : Nat} {v : Word}
    (h : ¬ ∃ t, hostWrite c s off.toNat n v = some t) :
    hostAccess c (.write off n v) s = { s with busResp := some .error } :=
  hostAccess_write_none (Option.eq_none_iff_forall_ne_some.mpr fun t ht => h ⟨t, ht⟩)

/-- The response to a write that gets OKAY (R61). -/
theorem busResp_of_hostWrite {c : Cores} {s : State} {off : Offset} {n : Nat} {v : Word}
    (h : ∃ t, hostWrite c s off.toNat n v = some t) :
    (hostAccess c (.write off n v) s).busResp = some .writeOkay := by
  obtain ⟨t, ht⟩ := h
  rw [hostAccess_write_some ht]

/-- Settles O40: an access leaves a response and nothing else, or it is a write that got OKAY. -/
theorem readsAndErrorsChangeNothing : Obligations.ReadsAndErrorsChangeNothing := by
  refine ⟨fun _ _ _ => rfl, fun s a he => ?_, fun s off n v => ?_⟩
  · rcases hostAccess_cases Config.cores a s with ⟨r, hr⟩ | ⟨_, _, _, t, _, _, ht⟩
    · rw [hr] at he ⊢
      simp only [Option.some.injEq] at he
      rw [he]
    · simp [ht] at he
  · by_cases hw : ∃ t, hostWrite Config.cores s off.toNat n v = some t
    · exact .inl (busResp_of_hostWrite hw)
    · exact .inr (by rw [hostAccess_write_error hw])

/-- With BUSY = 1 only a register's word can be read (R69). -/
theorem hostRead_busy_okay_iff {c : Cores} (hc : c.Lawful) {s : State} (hb : s.busy = true) (off n : Nat) :
    (∃ x, hostRead c s off n = .readOkay x) ↔ n = 4 ∧ off % 4 = 0 ∧ off ≤ 0x020 := by
  rw [hostRead_okay_iff hc, exists_csrOffset_iff]
  simp [hb]

/-- With BUSY = 1 only CTRL and STATUS can be written (R69). -/
theorem hostWrite_busy_okay_iff {c : Cores} (hc : c.Lawful) {s : State} (hb : s.busy = true) (off : Offset) (n : Nat)
    (v : Word) :
    (∃ t, hostWrite c s off.toNat n v = some t) ↔ n = 4 ∧ (off = 0x008#22 ∨ off = 0x00C#22) := by
  rw [hostWrite_okay_iff hc]
  simp [hb, State.TakesWrite, csrOffset, BitVec.toNat_eq, and_or_left, exists_or]

/-- Settles O38: with BUSY = 1 the windows and the locked registers are shut. -/
theorem busyLockout : Obligations.BusyLockout := by
  intro s a hb
  cases a with
  | read off n =>
    have hiff := hostRead_busy_okay_iff cores_lawful hb off.toNat n
    constructor
    · intro hok
      obtain ⟨x, hx⟩ := hiff.mpr hok
      exact ⟨x, congrArg some hx⟩
    · intro hno
      simp only [hostAccess, hostRead_eq_error (mt hiff.mp hno)]
  | write off n v =>
    have hiff := hostWrite_busy_okay_iff cores_lawful hb off n v
    exact ⟨fun hok => busResp_of_hostWrite (hiff.mpr hok), fun hno => hostAccess_write_error (mt hiff.mp hno)⟩

/-- The offsets of the windows that take a write (R62, R68). -/
theorem inWindow_writable_iff {c : Cores} {off : Nat} :
    (∃ w : Window, InWindow c w off ∧ w ≠ .obuf) ↔
      (0x040 ≤ off ∧ off < 0x070) ∨ (0x100000 ≤ off ∧ off < 0x100000 + c.ibufBytes) := by
  constructor
  · rintro ⟨w, ⟨hbase, hlt⟩, hne⟩
    cases w <;> simp only [windowBase, Window.size] at hbase hlt
    case obuf => exact absurd rfl hne
    all_goals omega
  · rintro (⟨h1, h2⟩ | ⟨h1, h2⟩)
    · rcases Nat.lt_or_ge off 0x060 with h | h
      · exact ⟨.key, ⟨h1, h⟩, by simp⟩
      · exact ⟨.iv, ⟨h, h2⟩, by simp⟩
    · exact ⟨.ibuf, ⟨h1, h2⟩, by simp⟩

/-- The offsets of all windows: OBUF besides those that take a write (R62). -/
theorem inWindow_iff {c : Cores} {off : Nat} :
    (∃ w : Window, InWindow c w off) ↔
      (∃ w : Window, InWindow c w off ∧ w ≠ .obuf) ∨ (0x200000 ≤ off ∧ off < 0x200000 + c.obufBytes) := by
  constructor
  · rintro ⟨w, hw⟩
    by_cases h : w = .obuf
    · subst h
      exact .inr hw
    · exact .inl ⟨w, hw, h⟩
  · rintro (⟨w, hw, _⟩ | h)
    · exact ⟨w, hw⟩
    · exact ⟨.obuf, h⟩

/-- With BUSY = 0 the five registers that are not read-only take a write (R68). -/
theorem exists_takesWrite_iff {s : State} (hb : s.busy = false) {off : Nat} :
    (∃ r : Csr, off = csrOffset r ∧ s.TakesWrite r) ↔
      off = 0x008 ∨ off = 0x00C ∨ off = 0x010 ∨ off = 0x014 ∨ off = 0x01C := by
  simp [hb, State.TakesWrite, csrOffset, and_or_left, exists_or]

/-- With BUSY = 0 the reads that get OKAY, by their offsets (R62 to R67). -/
theorem hostRead_idle_okay_iff {c : Cores} (hc : c.Lawful) {s : State} (hb : s.busy = false) (off n : Nat) :
    (∃ x, hostRead c s off n = .readOkay x) ↔
      (n = 1 ∧ ∃ w : Window, InWindow c w off) ∨
      (n = 4 ∧ off % 4 = 0 ∧ (off ≤ 0x020 ∨ ∃ w : Window, InWindow c w off)) := by
  rw [hostRead_okay_iff hc, exists_csrOffset_iff]
  simp only [hb]
  tauto

/-- With BUSY = 0 the writes that get OKAY, by their offsets (R62 to R68). -/
theorem hostWrite_idle_okay_iff {c : Cores} (hc : c.Lawful) {s : State} (hb : s.busy = false) (off n : Nat) (v : Word) :
    (∃ t, hostWrite c s off n v = some t) ↔
      (n = 1 ∧ ∃ w : Window, InWindow c w off ∧ w ≠ .obuf) ∨
      (n = 4 ∧ off % 4 = 0 ∧ ((off = 0x008 ∨ off = 0x00C ∨ off = 0x010 ∨ off = 0x014 ∨ off = 0x01C) ∨
        ∃ w : Window, InWindow c w off ∧ w ≠ .obuf)) := by
  rw [hostWrite_okay_iff hc, exists_takesWrite_iff hb]
  have halign (h : off = 0x008 ∨ off = 0x00C ∨ off = 0x010 ∨ off = 0x014 ∨ off = 0x01C) : off % 4 = 0 := by omega
  simp only [hb, true_and]
  generalize (∃ w : Window, InWindow c w off ∧ w ≠ .obuf) = window
  generalize (off = 0x008 ∨ off = 0x00C ∨ off = 0x010 ∨ off = 0x014 ∨ off = 0x01C) = register at halign ⊢
  tauto

/-- Settles O41: the windows' offsets written out. -/
theorem mappedAccessesAreOkay : Obligations.MappedAccessesAreOkay := by
  intro s off n v hb writable window writableCsr readOk writeOk afterRead afterWrite
  have hread : (∃ x, hostRead Config.cores s off.toNat n = .readOkay x) ↔ readOk := by
    rw [hostRead_idle_okay_iff cores_lawful hb, inWindow_iff, inWindow_writable_iff]
    exact Iff.rfl
  have hwrite : (∃ t, hostWrite Config.cores s off.toNat n v = some t) ↔ writeOk := by
    rw [hostWrite_idle_okay_iff cores_lawful hb, inWindow_writable_iff]
    exact Iff.rfl
  refine ⟨fun hok => ?_, fun hno => ?_, fun hok => busResp_of_hostWrite (hwrite.mpr hok), fun hno => ?_⟩
  · obtain ⟨x, hx⟩ := hread.mpr hok
    exact ⟨x, congrArg some hx⟩
  · exact congrArg some (hostRead_eq_error (mt hread.mp hno))
  · simp only [afterWrite, hostAccess_write_error (mt hwrite.mp hno)]

/-! ### What a window answers (R64, R65, R80) -/

/-- With BUSY = 0 a byte read answers the window's byte (R65). -/
theorem hostRead_byte_idle {c : Cores} (hc : c.Lawful) {s : State} {w : Window} {i : Nat} (hb : s.busy = false)
    (hi : i < w.size c.ibufBytes) : hostRead c s (windowBase w + i) 1 = .readOkay ((windowByte s w i).setWidth 32) := by
  rw [hostRead_byte hc.ibuf_le hi, hb]
  rfl

/-- With BUSY = 0 an aligned word read answers the value of the window's four bytes (R64, R65). -/
theorem hostRead_word_idle {c : Cores} (hc : c.Lawful) {s : State} {w : Window} {i : Nat} (hb : s.busy = false)
    (hm : i % 4 = 0) (hi : i + 4 ≤ w.size c.ibufBytes) :
    ∃ x : Word, hostRead c s (windowBase w + i) 4 = .readOkay x ∧
      x.toNat = (windowByte s w i).toNat + 2 ^ 8 * (windowByte s w (i + 1)).toNat +
        2 ^ 16 * (windowByte s w (i + 2)).toNat + 2 ^ 24 * (windowByte s w (i + 3)).toNat := by
  refine ⟨_, by rw [hostRead_window hc.ibuf_le (.inr ⟨rfl, hm⟩) hi, hb]; rfl, ?_⟩
  have hbytes : windowBytes s w i 4 =
      [windowByte s w i, windowByte s w (i + 1), windowByte s w (i + 2), windowByte s w (i + 3)] := rfl
  have := (windowByte s w i).isLt
  have := (windowByte s w (i + 1)).isLt
  have := (windowByte s w (i + 2)).isLt
  have := (windowByte s w (i + 3)).isLt
  simp only [hbytes, leValue, BitVec.toNat_ofNat]
  omega

/-- Settles O46: the OBUF window's bytes are those of the store below OUT_LEN. -/
theorem outputWindowIsMasked : Obligations.OutputWindowIsMasked := by
  intro s i hb shown
  have hshown (j : Nat) : (windowByte s .obuf j).toNat = shown j := by
    simp only [windowByte, shown]
    split <;> rfl
  have hsize : Window.obuf.size Config.cores.ibufBytes = Config.cores.obufBytes := rfl
  refine ⟨fun hi => ⟨_, hostRead_byte_idle (w := .obuf) cores_lawful hb hi, ?_⟩, fun hm hi => ?_⟩
  · have := (windowByte s .obuf i).isLt
    rw [← hshown, BitVec.toNat_setWidth]
    omega
  · obtain ⟨_, hmod⟩ := window_aligned cores_lawful .obuf
    simp only [← hshown]
    exact hostRead_word_idle (w := .obuf) cores_lawful hb hm (by omega)

/-! ### What a window takes (R65, R83) -/

/-- The bus carries a byte in its low lane (R65). -/
theorem hostWrite_byte {c : Cores} (hc : c.Lawful) {s : State} {w : Window} {i : Nat} (b : Byte)
    (hi : i < w.size c.ibufBytes) :
    hostWrite c s (windowBase w + i) 1 (b.setWidth 32) = writeWindow s w i [b] := by
  have hlow : byteOf (b.setWidth 32) 0 = b := by simp [byteOf, BitVec.extractLsb'_setWidth_of_le]
  rw [hostWrite_window hc.ibuf_le (.inl rfl) hi]
  simp only [wordBytes, List.take_succ_cons, List.take_zero, hlow]

/-- Bytes are written one after another, from the lowest index upward (R65, R83). -/
theorem writeWindow_cons (s : State) (w : Window) (i : Nat) (b : Byte) (bs : List Byte) :
    writeWindow s w i (b :: bs) = (writeWindow s w i [b]).bind fun s => writeWindow s w (i + 1) bs := by
  cases hb : s.busy with
  | true => simp [writeWindow, hb]
  | false => cases w <;> simp [writeWindow, hb, setBytes, Memory.writeBytes]

/-- Settles O44: a word write is its bytes' writes, and each byte read shows what stands at its index. -/
theorem wordAccessIsFourByteAccesses : Obligations.WordAccessIsFourByteAccesses := by
  intro s w i v hb hm hi at_ b stored
  have hstored (k : Nat) : windowByte s w (i + k) = stored k := by cases w <;> rfl
  have hbyte {k : Nat} (hk : k < 4) (s : State) :
      hostWrite Config.cores s (at_ + k) 1 (b k) = writeWindow s w (i + k) [byteOf v k] := by
    have hik : i + k < w.size Config.cores.ibufBytes := by
      simp only [cores_ibufBytes]
      omega
    rw [show at_ + k = windowBase w + (i + k) by simp only [at_]; omega, ← hostWrite_byte cores_lawful _ hik]
    rfl
  refine ⟨?_, fun k hk => ?_, ?_⟩
  · have hword : hostWrite Config.cores s at_ 4 v = writeWindow s w i (wordBytes v) :=
      hostWrite_window ibufBytes_le (.inr ⟨rfl, hm⟩) hi
    have h0 : hostWrite Config.cores s at_ 1 (b 0) = writeWindow s w i [byteOf v 0] := hbyte (k := 0) (by decide) s
    rw [hword, h0, wordBytes]
    simp only [hbyte (k := 1) (by decide), hbyte (k := 2) (by decide), hbyte (k := 3) (by decide),
      writeWindow_cons _ w _ _ (_ :: _), Option.bind_assoc, Nat.add_assoc, Nat.reduceAdd]
  · rw [← hstored, ← hostRead_byte_idle cores_lawful hb (by simp only [cores_ibufBytes]; omega)]
    simp only [at_, Nat.add_assoc]
  · simp only [← hstored]
    exact hostRead_word_idle cores_lawful hb hm hi

theorem byteAt_setBytes_self {n : Nat} (v : Vector Byte n) {i : Nat} (b : Byte) (h : i < n) :
    byteAt (setBytes v i [b]) i = b := by
  simp [setBytes, byteAt_of_lt _ h]

theorem byteAt_setBytes_ne {n : Nat} (v : Vector Byte n) {i j : Nat} (b : Byte) (h : j ≠ i) :
    byteAt (setBytes v i [b]) j = byteAt v j := by
  by_cases hj : j < n
  · simp [setBytes, byteAt_of_lt _ hj, Vector.getElem_setIfInBounds_ne, Ne.symm h]
  · rw [byteAt_of_ge _ (by omega), byteAt_of_ge _ (by omega)]

/-- A byte written to a window stands at its index (R83). -/
theorem windowByte_writeWindow_self {cap : Nat} {s t : State} {w : Window} {i : Nat} {b : Byte}
    (hwf : Memory.wf s.ibuf = true) (hi : i < w.size cap) (h : writeWindow s w i [b] = some t) :
    windowByte t w i = b := by
  obtain ⟨_, ⟨rfl, rfl⟩ | ⟨rfl, rfl⟩ | ⟨rfl, rfl⟩⟩ := writeWindow_eq_some h
  · exact byteAt_setBytes_self _ b hi
  · exact byteAt_setBytes_self _ b hi
  · exact Memory.read_write_eq i b hwf

/-- A byte written to a window changes no other byte of any window (R83). -/
theorem windowByte_writeWindow_ne {s t : State} {w w' : Window} {i j : Nat} {b : Byte} (hne : (w', j) ≠ (w, i))
    (h : writeWindow s w i [b] = some t) : windowByte t w' j = windowByte s w' j := by
  obtain ⟨_, ⟨rfl, rfl⟩ | ⟨rfl, rfl⟩ | ⟨rfl, rfl⟩⟩ := writeWindow_eq_some h
  · cases w' with
    | key => exact byteAt_setBytes_ne _ b (by simpa using hne)
    | iv | ibuf | obuf => rfl
  · cases w' with
    | iv => exact byteAt_setBytes_ne _ b (by simpa using hne)
    | key | ibuf | obuf => rfl
  · cases w' with
    | ibuf => exact Memory.read_write_ne _ b (by simpa using hne)
    | key | iv | obuf => rfl

/-- A window write changes nothing but KEY, IV and IBUF (R83). -/
theorem writeWindow_frame {s t : State} {w : Window} {i : Nat} {bytes : List Byte}
    (h : writeWindow s w i bytes = some t) : t = { s with key := t.key, iv := t.iv, ibuf := t.ibuf } := by
  obtain ⟨_, ⟨_, rfl⟩ | ⟨_, rfl⟩ | ⟨_, rfl⟩⟩ := writeWindow_eq_some h <;> rfl

/-- Settles O45: a byte write is a window write, which the windows' bytes show at its index only. -/
theorem windowByteReadBack : Obligations.WindowByteReadBack := by
  intro s w i b hb hwf hw hi
  obtain ⟨t, ht⟩ := (writeWindow_okay_iff s w i [b]).mpr ⟨hb, hw⟩
  have hframe := writeWindow_frame ht
  have hbt : t.busy = false := by rw [hframe]; exact hb
  have hother {w' : Window} {j : Nat} (hne : (w', j) ≠ (w, i)) := windowByte_writeWindow_ne hne ht
  refine ⟨t, by rw [hostWrite_byte cores_lawful b hi, ht], ?_, fun w' j hne hj => ?_, fun w' j hne => hother hne, hframe⟩
  · rw [hostRead_byte_idle cores_lawful hbt hi, windowByte_writeWindow_self hwf hi ht]
  · rw [hostRead_byte_idle cores_lawful hbt hj, hostRead_byte_idle cores_lawful hb hj, hother hne]

/-! ### No sequencer access faults (R73, R122) -/

/-- Checks end a command with a failure or let it go on; neither stops the machine (R112). -/
theorem checked_answers {chs : List Check} {k : State → Result} {s : State} (hk : ∃ t, k s = .next t) :
    ∃ t, checked chs k s = .next t := by
  induction chs with
  | nil => exact hk
  | cons ch chs ih =>
    unfold checked
    split
    · exact ⟨_, rfl⟩
    · exact ih

theorem dispatchOf_answers (i : Instr) (s : State) : ∃ t, dispatchOf i s = .next t := by
  cases i with
  | enc ivs | enct ivs => cases ivs <;> exact ⟨_, rfl⟩
  | dkey | geniv | dec | dect | zero => exact ⟨_, rfl⟩

theorem ivgenStep_answers (i : Instr) (s : State) : ∃ t, ivgenStep (afterDrawOf i) s = .next t := by
  cases hent : s.entPort with
  | none => exact ⟨_, ivgenStep_none hent⟩
  | some r =>
    rw [ivgenStep_some hent]
    cases i <;> exact ⟨_, rfl⟩

theorem unpadStep_answers (i : Instr) (s : State) : ∃ t, unpadStep (afterUnpadOf i) s = .next t := by
  rcases unpadStep_cases (afterUnpadOf i) s with ⟨_, hs⟩ | ⟨p, _, hs⟩ <;> rw [hs]
  · exact ⟨_, rfl⟩
  · cases i <;> exact ⟨_, rfl⟩

/-- Block BI of an encryption and its place in the output store exist (R73, R163). -/
theorem eblkStep_answers {s : State} (h : s.Inv Config.cores) (hp : s.phase = .eblk) :
    ∃ t, eblkStep Config.cores s = .next t := by
  have hok := h.phase_ok
  simp only [State.phaseOk, hp] at hok
  obtain ⟨_, ⟨hcap, _⟩, hnb, hlt, _⟩ := hok
  refine ⟨_, eblkStep_of_le hcap ?_⟩
  simp only [cores_ibufBytes, cores_obufBytes] at hcap ⊢
  omega

/-- Ciphertext block BI of a container that passed its checks exists, and so does its place in the output store (R73, R182). -/
theorem dblkStep_answers {s : State} (h : s.Inv Config.cores) (hp : s.phase = .dblk) :
    ∃ t, dblkStep Config.cores s = .next t := by
  have hok := h.phase_ok
  simp only [State.phaseOk, hp] at hok
  obtain ⟨_, ⟨⟨hcap, _⟩, _, _, hnb⟩, hlt, _⟩ := hok
  exact ⟨_, dblkStep_of_le (by omega) hcap⟩

/-- The recovered text lies in the output store (R73, R202). -/
theorem textStep_answers {s : State} (h : s.Inv Config.cores) (hp : s.phase = .text) :
    ∃ t, textStep Config.cores s = .next t := by
  have hok := h.phase_ok
  simp only [State.phaseOk, hp] at hok
  obtain ⟨_, hcont, _, hlen⟩ := hok
  exact ⟨_, textStep_of_le (hlen.le.trans (plain_fits hcont))⟩

/-- Every row of R120 answers from a state that meets the invariant. -/
theorem exec_answers (i : Instr) {s : State} (h : s.Inv Config.cores) : ∃ t, exec i s = .next t := by
  cases hp : s.phase with
  | idle => exact ⟨_, exec_idle i hp⟩
  | check =>
    rw [exec_check i hp]
    exact checked_answers (dispatchOf_answers i s)
  | ivgen =>
    rw [exec_ivgen i hp]
    exact ivgenStep_answers i s
  | kdf =>
    have hok := h.phase_ok
    simp only [State.phaseOk, hp] at hok
    obtain ⟨_, _, hcap⟩ := hok
    exact ⟨_, (exec_kdf i hp).trans (kdfStep_of_le hcap)⟩
  | eblk =>
    rw [exec_eblk i hp]
    exact eblkStep_answers h hp
  | dblk =>
    rw [exec_dblk i hp]
    exact dblkStep_answers h hp
  | unpad =>
    rw [exec_unpad i hp]
    exact unpadStep_answers i s
  | text =>
    rw [exec_text i hp]
    exact textStep_answers h hp
  | wipe => exact ⟨_, exec_wipe i hp⟩

theorem sequencerStep_answers {s : State} (h : s.Inv Config.cores) : ∃ t, sequencerStep s = .next t := by
  cases hb : s.busy with
  | false => exact ⟨s, sequencerStep_idle hb⟩
  | true =>
    cases hd : decode s.cmdReg with
    | ok i =>
      rw [sequencerStep_ok hb hd]
      exact exec_answers i h
    | error e => exact ⟨_, (sequencerStep_illegal hb hd).trans (illegalStep_check (illegal_in_check h hb hd))⟩

theorem handleEvent_answers (e : Event) {s : State} (h : s.Inv Config.cores) : ∃ t, handleEvent e s = .next t := by
  cases e with
  | sequencer => exact sequencerStep_answers h
  | access | entropy | reset => exact ⟨_, rfl⟩

theorem runAlone_answers {s : State} (h : s.Inv Config.cores) : ∃ t, runAlone s = .next t := by
  unfold runAlone
  split
  · exact ⟨_, rfl⟩
  · exact sequencerStep_answers h

/-- Settles O34, by what the step is: the next event of the schedule, or the machine's own move. -/
theorem noStepStopsTheMachine : Obligations.NoStepStopsTheMachine := by
  intro s h
  cases henv : s.env with
  | nil =>
    rw [step_nil henv]
    exact runAlone_answers h
  | cons e rest =>
    rw [step_cons henv]
    exact handleEvent_answers e (inv_congr h rfl)

end Sys2Proof.Machine
end

section
/-! PROOFS. Family 30_encoding.md: the legal command words are the encoded commands and no others, an illegal word fails in CHECK,
and the load statements of the host script leave what they name. -/

namespace Sys2Proof

/-! ### The word of a command (R90, R94) -/

theorem decode_encode (i : Instr) : decode (encode i) = .ok i := by
  cases i with
  | dkey => exact Laws.EncodedWord.dkey.2
  | geniv => exact Laws.EncodedWord.geniv.2
  | enc ivs => exact (Laws.EncodedWord.enc ivs).2
  | dec => exact Laws.EncodedWord.dec.2
  | enct ivs => exact (Laws.EncodedWord.enct ivs).2
  | dect => exact Laws.EncodedWord.dect.2
  | zero => exact Laws.EncodedWord.zero.2

/-- The word of a command is fixed by its three fields (R90). -/
theorem eq_encode_iff {w : Word} {i : Instr} :
    w = encode i ↔ rsvField w = 0#23 ∧ ivsField w = i.ivsBit ∧ opField w = i.opcode := by
  constructor
  · rintro rfl
    exact ⟨rsvField_encode i, ivsField_encode i, opField_encode i⟩
  · rintro ⟨hrsv, hivs, hop⟩
    rw [word_eq_fields w, hrsv, hivs, hop, encode]

theorem ivsBit_cases (b : BitVec 1) : b = 0#1 ∨ b = 1#1 := by
  have := b.isLt
  rcases (by omega : b.toNat = 0 ∨ b.toNat = 1) with h | h
  · exact .inl (BitVec.eq_of_toNat_eq h)
  · exact .inr (BitVec.eq_of_toNat_eq h)

theorem bit_ivSelectOf (b : BitVec 1) : (ivSelectOf b).bit = b := by
  rcases ivsBit_cases b with rfl | rfl <;> rfl

/-- A command without an IVS bit has its own opcode, and its IVS is 0 (R90, R99). -/
theorem fields_of_plainCommand {op : BitVec 8} {i : Instr} (h : plainCommand op = some i) :
    op = i.opcode ∧ i.ivsBit = 0#1 := by
  unfold plainCommand at h
  split_ifs at h
  all_goals
    cases h
    exact ⟨‹_›, rfl⟩

/-- Every branch of `Decode` that answers a command has seen the command's three fields (R99). -/
theorem fields_of_decode {w : Word} {i : Instr} (h : decode w = .ok i) :
    rsvField w = 0#23 ∧ ivsField w = i.ivsBit ∧ opField w = i.opcode := by
  unfold decode at h
  split at h
  · cases h
  · rename_i hrsv
    refine ⟨not_not.mp hrsv, ?_⟩
    split at h
    · cases h
      exact ⟨(bit_ivSelectOf _).symm, ‹_›⟩
    · split at h
      · cases h
        exact ⟨(bit_ivSelectOf _).symm, ‹_›⟩
      · split at h
        · cases h
        · rename_i hplain
          obtain ⟨hop, hbit⟩ := fields_of_plainCommand hplain
          split at h
          · cases h
          · rename_i hivs
            cases h
            exact ⟨((ivsBit_cases _).resolve_right hivs).trans hbit.symm, hop⟩

/-- The decoder answers a command for that command's word and for no other (R94, R99). -/
theorem decode_eq_ok_iff {w : Word} {i : Instr} : decode w = .ok i ↔ w = encode i :=
  ⟨fun h => eq_encode_iff.mpr (fields_of_decode h), fun h => h ▸ decode_encode i⟩

/-! ### The bytes of a command word (R65, R90) -/

/-- The decoder on bytes takes the first four of them as one word and leaves the others. -/
theorem decodeBytes_eq_ok_iff {bs rest : List Byte} {i : Instr} :
    decodeBytes bs = .ok (i, rest) ↔ ∃ w, bs = wordBytes w ++ rest ∧ decode w = .ok i := by
  constructor
  · intro h
    unfold decodeBytes at h
    split at h
    · split at h
      · rename_i hd
        cases h
        exact ⟨_, by rw [wordBytes_leValue]; rfl, hd⟩
      · cases h
    · cases h
  · rintro ⟨w, rfl, hd⟩
    have hw : BitVec.ofNat 32 (leValue [byteOf w 0, byteOf w 1, byteOf w 2, byteOf w 3]) = w := leValue_wordBytes w
    simp only [wordBytes, List.cons_append, List.nil_append, decodeBytes, hw, hd]

/-- Settles O3: the first four bytes are a word's, and the word is the command's. -/
theorem decoderAndEncoderAgreeOnBytes : Obligations.DecoderAndEncoderAgreeOnBytes := by
  intro i bs rest _
  simp only [decodeBytes_eq_ok_iff, decode_eq_ok_iff, exists_eq_right, encodeBytes]

/-! ### The legal words and the illegal ones (R94, R95) -/

/-- Settles O1: the rows are the encoded commands. -/
theorem legalWordsAreTheTable : Obligations.LegalWordsAreTheTable := by
  intro w i
  rw [decode_eq_ok_iff]
  constructor
  · rintro rfl
    cases i with
    | enc ivs | enct ivs => cases ivs <;> decide
    | dkey | geniv | dec | dect | zero => decide
  · intro hrow
    simp only [List.mem_cons, Prod.mk.injEq, List.not_mem_nil, or_false] at hrow
    rcases hrow with ⟨rfl, rfl⟩ | ⟨rfl, rfl⟩ | ⟨rfl, rfl⟩ | ⟨rfl, rfl⟩ | ⟨rfl, rfl⟩ | ⟨rfl, rfl⟩ | ⟨rfl, rfl⟩ |
      ⟨rfl, rfl⟩ | ⟨rfl, rfl⟩ <;> rfl

/-- Settles O4: each word is its command's. -/
theorem writtenOutWordsDecode : Obligations.WrittenOutWordsDecode := by
  refine ⟨?_, ?_, ?_, ?_, ?_, ?_, ?_⟩ <;> exact decode_eq_ok_iff.mpr rfl

theorem decodeCommand_eq_none_iff {w : Word} : decodeCommand w = none ↔ ∀ i, w ≠ encode i := by
  simp only [ne_eq, ← decode_eq_ok_iff, decodeCommand]
  cases decode w <;> simp [Except.toOption]

/-- The opcodes of the table are 1 to 7 (R94). -/
theorem exists_opcode_iff {op : BitVec 8} : (∃ i : Instr, op = i.opcode) ↔ op ≠ 0#8 ∧ op.toNat < 8 := by
  constructor
  · rintro ⟨i, rfl⟩
    cases i <;> simp [Instr.opcode]
  · rintro ⟨h0, h8⟩
    have hpos : op.toNat ≠ 0 := fun h => h0 (BitVec.eq_of_toNat_eq h)
    have hop (n : Nat) (h : op.toNat = n) : op = BitVec.ofNat 8 n := by rw [← h, BitVec.ofNat_toNat, BitVec.setWidth_eq]
    rcases (by omega : op.toNat = 1 ∨ op.toNat = 2 ∨ op.toNat = 3 ∨ op.toNat = 4 ∨ op.toNat = 5 ∨ op.toNat = 6 ∨
      op.toNat = 7) with h | h | h | h | h | h | h
    · exact ⟨.dkey, hop _ h⟩
    · exact ⟨.geniv, hop _ h⟩
    · exact ⟨.enc .generate, hop _ h⟩
    · exact ⟨.dec, hop _ h⟩
    · exact ⟨.enct .generate, hop _ h⟩
    · exact ⟨.dect, hop _ h⟩
    · exact ⟨.zero, hop _ h⟩

/-- IVS = 0 goes with every opcode of the table, IVS = 1 with those of ENC and ENCT only (R90). -/
theorem exists_ivsBit_opcode_iff {b : BitVec 1} {op : BitVec 8} :
    (∃ i : Instr, b = i.ivsBit ∧ op = i.opcode) ↔
      (∃ i : Instr, op = i.opcode) ∧ (b = 1#1 → op = 0x03#8 ∨ op = 0x05#8) := by
  constructor
  · rintro ⟨i, rfl, rfl⟩
    refine ⟨⟨i, rfl⟩, ?_⟩
    cases i with
    | enc ivs => exact fun _ => .inl rfl
    | enct ivs => exact fun _ => .inr rfl
    | dkey | geniv | dec | dect | zero => exact fun h => absurd h (by decide)
  · rintro ⟨⟨i, rfl⟩, hb⟩
    cases i with
    | enc _ => exact ⟨.enc (ivSelectOf b), (bit_ivSelectOf b).symm, rfl⟩
    | enct _ => exact ⟨.enct (ivSelectOf b), (bit_ivSelectOf b).symm, rfl⟩
    | dkey | geniv | dec | dect | zero =>
      have hzero : b = 0#1 := (ivsBit_cases b).resolve_right fun h => absurd (hb h) (by decide)
      refine ⟨_, ?_, rfl⟩
      exact hzero

theorem ivsField_eq_one_iff (w : Word) : ivsField w = 1#1 ↔ w.getLsbD 8 = true := by
  have hbit : (ivsField w).getLsbD 0 = w.getLsbD 8 := by simp [ivsField]
  rw [← hbit]
  rcases ivsBit_cases (ivsField w) with h | h <;> simp [h]

/-- Settles O2: the word is no command's, so one of its fields is none's. -/
theorem illegalWordsByField : Obligations.IllegalWordsByField := by
  intro w
  have hlegal : (∃ i, w = encode i) ↔
      rsvField w = 0#23 ∧ (opField w ≠ 0#8 ∧ (opField w).toNat < 8) ∧
        (w.getLsbD 8 = true → opField w = 0x03#8 ∨ opField w = 0x05#8) := by
    simp only [eq_encode_iff, exists_and_left, exists_ivsBit_opcode_iff, exists_opcode_iff, ivsField_eq_one_iff]
  rw [decodeCommand_eq_none_iff, ← not_exists, hlegal]
  simp only [rsvField, opField, ne_eq, ← Nat.not_lt]
  tauto

end Sys2Proof

namespace Sys2Proof.Machine

/-! ### An illegal word in CHECK (R95, R225) -/

/-- Settles O7: an accepted word that is no command's fails in its CHECK step. -/
theorem illegalWordFailsInCheck : Obligations.IllegalWordFailsInCheck := by
  intro s w hw henv
  obtain ⟨e, hd⟩ : ∃ e, decode (s.accept w).cmdReg = .error e := by
    cases hd : decode w with
    | error e => exact ⟨e, hd⟩
    | ok i => simp [decodeCommand, hd, Except.toOption] at hw
  have hstep : step (s.accept w) = .next ((s.accept w).fail .illegalCommand) :=
    calc step (s.accept w)
      _ = sequencerStep (s.accept w) := step_alone henv (awaitsEntropy_of_phase (by simp))
      _ = illegalStep Config.cores (s.accept w) := sequencerStep_illegal rfl hd
      _ = .next ((s.accept w).fail .illegalCommand) := illegalStep_check rfl
  rw [run_succ hstep]
  rfl

/-! ### The load statements (R100, R102) -/

theorem byteAt_setBytes_below {n : Nat} (v : Vector Byte n) (bs : List Byte) {i j : Nat} (h : j < i) :
    byteAt (setBytes v i bs) j = byteAt v j := by
  induction bs generalizing v i with
  | nil => rfl
  | cons b bs ih => exact (ih _ (Nat.lt_succ_of_lt h)).trans (byteAt_setBytes_ne v b h.ne)

theorem byteAt_setBytes_in {n : Nat} (v : Vector Byte n) (bs : List Byte) {i k : Nat} (hk : k < bs.length)
    (hn : i + k < n) : byteAt (setBytes v i bs) (i + k) = bs.getD k 0#8 := by
  induction bs generalizing v i k with
  | nil => simp at hk
  | cons b bs ih =>
    cases k with
    | zero => exact (byteAt_setBytes_below _ bs (Nat.lt_succ_self i)).trans (byteAt_setBytes_self v b hn)
    | succ k =>
      rw [show i + (k + 1) = i + 1 + k by omega] at hn ⊢
      exact ih _ (by simpa using hk) hn

/-- All bytes written, nothing stays of what stood before. -/
theorem setBytes_toList {n : Nat} (v u : Vector Byte n) : setBytes v 0 u.toList = u := by
  apply Vector.ext
  intro j hj
  have h := byteAt_setBytes_in v u.toList (i := 0) (k := j) (by simpa using hj) (by omega)
  rwa [Nat.zero_add, toList_getD, byteAt_of_lt _ hj, byteAt_of_lt _ hj] at h

/-- The recorded response has no part in a window write (R61). -/
theorem writeWindow_busResp {s t : State} {w : Window} {i : Nat} {bs : List Byte} (r : Option Response)
    (h : writeWindow s w i bs = some t) :
    writeWindow { s with busResp := r } w i bs = some { t with busResp := r } := by
  obtain ⟨hb, ⟨rfl, rfl⟩ | ⟨rfl, rfl⟩ | ⟨rfl, rfl⟩⟩ := writeWindow_eq_some h
  · exact writeWindow_key (s := { s with busResp := r }) hb
  · exact writeWindow_iv (s := { s with busResp := r }) hb
  · exact writeWindow_ibuf (s := { s with busResp := r }) hb

/-- The byte writes of `WRB` are together one window write (R100). -/
theorem assignBytes_some {c : Cores} (hc : c.ibufBytes ≤ 1048544) {w : Window} {bs : List Byte} {s t : State} {i : Nat}
    (hi : i + bs.length ≤ w.size c.ibufBytes) (h : writeWindow s w i bs = some t) :
    hostAccesses c (assignBytes w i bs) s =
      { t with busResp := if bs = [] then s.busResp else some .writeOkay } := by
  induction bs generalizing s t i with
  | nil =>
    obtain ⟨_, ⟨_, rfl⟩ | ⟨_, rfl⟩ | ⟨_, rfl⟩⟩ := writeWindow_eq_some h <;> rfl
  | cons b bs ih =>
    rw [List.length_cons] at hi
    rw [writeWindow_cons, Option.bind_eq_some_iff] at h
    obtain ⟨u, hu, ht⟩ := h
    rw [assignBytes, hostAccesses, assignByte_some hc (by omega) hu,
      ih (by omega) (writeWindow_busResp (some .writeOkay) ht)]
    simp

theorem hostAccesses_concat (c : Cores) (as : List HostAccess) (a : HostAccess) (s : State) :
    hostAccesses c (as ++ [a]) s = hostAccess c a (hostAccesses c as s) :=
  hostAccesses_append c as [a] s

/-- `LDIN` writes the bytes to IBUF and their number to IN_LEN (R102). -/
theorem hostAccesses_ldin {c : Cores} (hc : c.ibufBytes ≤ 1048544) {s : State} (hb : s.busy = false) {bytes : List Byte}
    (hlen : bytes.length ≤ c.ibufBytes) :
    hostAccesses c (stmtAccesses (.ldin bytes)) s =
      { s with ibuf := Memory.writeBytes s.ibuf 0 bytes, inLen := BitVec.ofNat 32 bytes.length,
               busResp := some .writeOkay } := by
  rw [stmtAccesses, loadInput, hostAccesses_concat,
    assignBytes_some hc (by simpa [Window.size] using hlen) (writeWindow_ibuf hb)]
  exact assignCsr_some (writeCsr_inLen (by exact hb))

/-- `LDKEY` writes KEY and KEY_LEN (R102). -/
theorem hostAccesses_ldkey {c : Cores} (hc : c.ibufBytes ≤ 1048544) {s : State} (hb : s.busy = false) (k : Key) :
    hostAccesses c (stmtAccesses (.ldkey k)) s =
      { s with key := k, keyLen := 32#8, busResp := some .writeOkay } := by
  rw [stmtAccesses, hostAccesses_concat, assignBytes_some hc (by simp [Window.size]) (writeWindow_key hb),
    setBytes_toList]
  exact assignCsr_some (writeCsr_keyLen (by exact hb))

/-- `LDIV` writes IV (R102). -/
theorem hostAccesses_ldiv {c : Cores} (hc : c.ibufBytes ≤ 1048544) {s : State} (hb : s.busy = false) (v : Block) :
    hostAccesses c (stmtAccesses (.ldiv v)) s = { s with iv := v, busResp := some .writeOkay } := by
  have hne : v.toList ≠ [] := List.ne_nil_of_length_pos (by simp)
  rw [stmtAccesses, assignBytes_some hc (by simp [Window.size]) (writeWindow_iv hb), setBytes_toList, if_neg hne]

/-- Settles O49: each load statement is its window write and its register write. -/
theorem loadStatementsLoad : Obligations.LoadStatementsLoad := by
  intro s bytes k v hb hwf hlen
  have hfit : (BitVec.ofNat 32 bytes.length).toNat = bytes.length := by
    have := ibufBytes_le
    simp only [BitVec.toNat_ofNat]
    omega
  refine ⟨?_, hostAccesses_ldkey ibufBytes_le hb k, hostAccesses_ldiv ibufBytes_le hb v⟩
  rw [hostAccesses_ldin ibufBytes_le hb hlen]
  refine ⟨?_, hfit, fun a ha => Memory.read_writeBytes_out _ _ _ (.inr (by omega)), rfl⟩
  simp only [operand, hfit]
  exact Memory.slice_writeBytes 0 bytes hwf

end Sys2Proof.Machine
end

section
/-! PROOFS. Family 40_sequencer.md: the acceptance and the two ends of a command, its CHECK step, the wait for ENT, the transition
table, why every command ends, and why a command's outcome depends on its operands and its draw only. -/

namespace Sys2Proof.Machine

/-! ### A step of the machine (R110, R119) -/

/-- A request is outstanding exactly in a running IVGEN at whose port no answer stands (R118). -/
theorem awaitsEntropy_iff {s : State} :
    s.awaitsEntropy = true ↔ s.busy = true ∧ s.phase = .ivgen ∧ s.entPort = none := by
  simp [State.awaitsEntropy, and_assoc]

theorem awaitsEntropy_eq_false {s : State} (h : ¬ (s.phase = .ivgen ∧ s.entPort = none)) : s.awaitsEntropy = false :=
  Bool.eq_false_iff.mpr fun hw => h (awaitsEntropy_iff.mp hw).2

theorem awaitsEntropy_of_not_busy {s : State} (hb : s.busy = false) : s.awaitsEntropy = false := by
  simp [State.awaitsEntropy, hb]

/-- With BUSY = 0 no sequencer step is enabled, scheduled or not (R110). -/
theorem step_sequencer_idle {s : State} {rest : List Event} (he : s.env = .sequencer :: rest) (hb : s.busy = false) :
    step s = .next { s with env := rest } := by
  rw [step_cons he]
  exact sequencerStep_idle hb

/-- Settles O5: a step by what is scheduled first. -/
theorem stepRunsTheDecodedCommand : Obligations.StepRunsTheDecodedCommand := by
  refine ⟨fun s i hd hb _ => ⟨fun he hw => ?_, fun rest he => step_sequencer he hb hd⟩,
    fun s hb => ⟨fun he => ?_, fun rest he => step_sequencer_idle he hb⟩, fun s a rest he => step_cons he⟩
  · rw [step_alone he (awaitsEntropy_eq_false hw), sequencerStep_ok hb hd]
  · rw [step_alone he (awaitsEntropy_of_not_busy hb), sequencerStep_idle hb]

/-! ### Acceptance and the two ends of a command (R111, R114, R115) -/

/-- Settles O6: the word is written to CMD, which takes it with BUSY = 0 only. -/
theorem acceptanceOfACommand : Obligations.AcceptanceOfACommand := by
  refine fun s w => ⟨fun hb => ?_, fun hb => ?_⟩
  · exact assignCsr_some (r := .cmd) (writeCsr_cmd hb)
  · exact hostAccess_write_none ((hostWrite_csr Config.cores s .cmd w).trans (writeCsr_locked hb (.inl rfl)))

/-- Settles O18, by the error kind. -/
theorem commandEndsWriteWhatTheySay : Obligations.CommandEndsWriteWhatTheySay :=
  fun _ _ k => ⟨rfl, by cases k <;> rfl⟩

/-! ### The CHECK step (R112, R113) -/

theorem checked_of_fails {ch : Check} {chs : List Check} {k : State → Result} {s : State} {kind : ErrorKind}
    (h : ch s = some kind) : checked (ch :: chs) k s = .next (s.fail kind) := by
  simp only [checked, h]

theorem checked_of_passes {ch : Check} {chs : List Check} {k : State → Result} {s : State} (h : ch s = none) :
    checked (ch :: chs) k s = checked chs k s := by
  simp only [checked, h]

theorem lengthCheck_fails {c : Cores} {s : State} (h : c.ibufBytes < s.inLen.toNat) :
    lengthCheck c s = some .lengthRange := if_pos h

theorem keyCheck_fails {s : State} (h : s.keyLen ≠ 32#8) : keyCheck s = some .invalidKeyLength := if_pos h

theorem containerCheck_fails {s : State} (h : s.inLen.toNat < 32 ∨ (s.inLen.toNat - 16) % 16 ≠ 0) :
    containerCheck s = some .malformedInput := if_pos h

/-- DKEY and the cipher commands check the operand's length first. -/
theorem checksOf_length {i : Instr} (hg : i ≠ .geniv) (hz : i ≠ .zero) :
    ∃ chs, checksOf i = lengthCheck Config.cores :: chs := by
  cases i with
  | geniv => exact absurd rfl hg
  | zero => exact absurd rfl hz
  | dkey | enc | dec | enct | dect => exact ⟨_, rfl⟩

/-- The cipher commands check the key's length next. -/
theorem checksOf_key {i : Instr} (hi : i ≠ .dkey ∧ i ≠ .geniv ∧ i ≠ .zero) :
    ∃ chs, checksOf i = lengthCheck Config.cores :: keyCheck :: chs := by
  obtain ⟨hd, hg, hz⟩ := hi
  cases i with
  | dkey => exact absurd rfl hd
  | geniv => exact absurd rfl hg
  | zero => exact absurd rfl hz
  | enc | dec | enct | dect => exact ⟨_, rfl⟩

/-- The decryptions check the container last. -/
theorem checksOf_decrypt {i : Instr} (hi : i = .dec ∨ i = .dect) :
    checksOf i = [lengthCheck Config.cores, keyCheck, containerCheck] := by
  obtain rfl | rfl := hi <;> rfl

theorem checksOf_encrypt {i : Instr} {ivs : IvSelect} (hi : i = .enc ivs ∨ i = .enct ivs) :
    checksOf i = [lengthCheck Config.cores, keyCheck] ∧ dispatchOf i = startEncrypt ivs := by
  obtain rfl | rfl := hi <;> exact ⟨rfl, rfl⟩

/-- ENC and ENCT with an operand and a key that pass go to their dispatch. -/
theorem exec_check_encrypt {i : Instr} {ivs : IvSelect} {s : State} (hp : s.phase = .check)
    (hi : i = .enc ivs ∨ i = .enct ivs) (hlen : s.inLen.toNat ≤ Config.ibufBytes) (hkey : s.keyLen = 32#8) :
    exec i s = startEncrypt ivs s := by
  obtain ⟨hchecks, hdispatch⟩ := checksOf_encrypt hi
  rw [exec_check i hp, hchecks, hdispatch, checked_of_passes (lengthCheck_eq_none.mpr hlen),
    checked_of_passes (keyCheck_eq_none.mpr hkey)]
  rfl

/-- DEC and DECT with an operand and a key that pass come to the container's check. -/
theorem exec_check_decrypt {i : Instr} {s : State} (hp : s.phase = .check) (hi : i = .dec ∨ i = .dect)
    (hlen : s.inLen.toNat ≤ Config.ibufBytes) (hkey : s.keyLen = 32#8) :
    exec i s = checked [containerCheck] (fun s => .next s.decStart) s := by
  have hdispatch : dispatchOf i = fun s => .next s.decStart := by obtain rfl | rfl := hi <;> rfl
  rw [exec_check i hp, checksOf_decrypt hi, hdispatch, checked_of_passes (lengthCheck_eq_none.mpr hlen),
    checked_of_passes (keyCheck_eq_none.mpr hkey)]

/-- Settles O8: the first check that fails, or the dispatch after the last. -/
theorem checkStepInOrder : Obligations.CheckStepInOrder := by
  intro i s hp cipher
  have hcheck := exec_check i hp
  refine ⟨fun hg hz hlong => ?_, fun hlen hi hkey => ?_, fun hlen hkey hi hbad => ?_, ?_, ?_, ?_,
    fun hlen hkey hi => exec_check_encrypt hp hi hlen hkey, fun hlen hkey hi => exec_check_encrypt hp hi hlen hkey,
    fun hlen hkey hi hmin hmod => ?_⟩
  · obtain ⟨chs, hchs⟩ := checksOf_length hg hz
    rw [hcheck, hchs, checked_of_fails (lengthCheck_fails hlong)]
  · obtain ⟨chs, hchs⟩ := checksOf_key hi
    rw [hcheck, hchs, checked_of_passes (lengthCheck_eq_none.mpr hlen), checked_of_fails (keyCheck_fails hkey)]
  · rw [exec_check_decrypt hp hi hlen hkey, checked_of_fails (containerCheck_fails hbad)]
  · rintro rfl
    exact hcheck
  · rintro rfl
    exact hcheck
  · rintro hlen rfl
    exact hcheck.trans (checked_of_passes (lengthCheck_eq_none.mpr hlen))
  · rw [exec_check_decrypt hp hi hlen hkey, checked_of_passes (containerCheck_eq_none.mpr ⟨hmin, hmod⟩)]
    rfl

/-! ### The wait for ENT (R118, R262) -/

theorem illegalStep_ivgen {c : Cores} {s : State} (hp : s.phase = .ivgen) :
    illegalStep c s = ivgenStep thenEncrypt s := by
  simp only [illegalStep, phaseStep, hp]

/-- The answer to the outstanding request stands at the port, and the request is over (R118). -/
theorem entropyAnswer_awaited {s : State} (h : s.awaitsEntropy = true) (r : Block) :
    s.entropyAnswer s.entReq r = { s with entPort := some r, entReq := s.entReq + 1 } := by
  rw [State.entropyAnswer, State.nextReq, if_pos h, if_pos ⟨h, rfl⟩]

theorem entropyAnswer_keeps_env {s : State} (req : Nat) (r : Block) : (s.entropyAnswer req r).env = s.env := by
  rcases entropyAnswer_cases req r s with hs | ⟨_, _, hs⟩ <;> rw [hs]

/-- Settles O12: IVGEN without an answer, the outstanding request's answer, and every other answer. -/
theorem ivgenWaitsForEntropy : Obligations.IvgenWaitsForEntropy := by
  intro s i r
  refine ⟨fun hp hn => ?_, fun hp hn hb => ?_, fun req hno => ?_⟩
  · have hexec (i : Instr) : exec i s = .next s := (exec_ivgen i hp).trans (ivgenStep_none hn)
    refine ⟨hexec i, ?_⟩
    cases hb : s.busy with
    | false => exact sequencerStep_idle hb
    | true =>
      cases hd : decode s.cmdReg with
      | ok i => exact (sequencerStep_ok hb hd).trans (hexec i)
      | error e => rw [sequencerStep_illegal hb hd, illegalStep_ivgen hp, ivgenStep_none hn]
  · exact congrArg Host.Outcome.next (entropyAnswer_awaited (awaitsEntropy_iff.mpr ⟨hb, hp, hn⟩) r)
  · refine congrArg Host.Outcome.next (entropyAnswer_ignored (fun hw hreq => ?_) r)
    obtain ⟨hb, hp, hn⟩ := awaitsEntropy_iff.mp hw
    simp [hb, hp, hn, hreq] at hno

/-! ### The host beside a running command (R121) -/

/-- A write that gets OKAY while a command runs sets CTRL.IE, or takes away a DONE that is not there (R69). -/
theorem hostWrite_running {c : Cores} {s t : State} {off n : Nat} {v : Word} (hb : s.busy = true)
    (hdone : s.done = false) (h : hostWrite c s off n v = some t) : ∃ b, t = { s with ie := b } := by
  rcases hostWrite_eq_some h with ⟨_, r, _, hw⟩ | ⟨_, w, i, _, _, hw⟩
  · rcases writeCsr_eq_some hw with ⟨_, rfl⟩ | ⟨_, rfl⟩ | ⟨hidle, _⟩
    · exact ⟨_, rfl⟩
    · exact ⟨s.ie, by rw [hdone, Bool.false_and, ← hdone]⟩
    · simp [hb] at hidle
  · obtain ⟨hidle, _⟩ := writeWindow_eq_some hw
    simp [hb] at hidle

/-- Settles O39: an access leaves a response and nothing else, or it is a write that got OKAY. -/
theorem hostCannotDisturbACommand : Obligations.HostCannotDisturbACommand := by
  intro s a hb hdone
  rcases hostAccess_cases Config.cores a s with ⟨r, hr⟩ | ⟨off, n, v, t, _, hw, ht⟩
  · exact ⟨s.ie, r, hr⟩
  · obtain ⟨b, rfl⟩ := hostWrite_running hb hdone hw
    exact ⟨b, .writeOkay, ht⟩

/-! ### The course of an accepted command -/

/-- A state after a command's CHECK step: a command that still runs is a legal one, and one that has ended has left its phase. -/
structure State.PastCheck (s : State) : Prop where
  not_check : s.phase ≠ .check
  legal : s.busy = true → ∃ i, decode s.cmdReg = .ok i
  ended_idle : s.busy = false → s.phase = .idle

theorem fail_pastCheck (k : ErrorKind) (s : State) : (s.fail k).PastCheck where
  not_check := by simp
  legal := by simp
  ended_idle _ := rfl

/-- No row of R120 leads to CHECK. -/
theorem exec_leaves_check {i : Instr} {s t : State} (h : exec i s = .next t) : t.phase ≠ .check := by
  cases exec_cases h
  case rests hp | waits hp _ => simp [hp]
  case storesCipher hp _ _ _ | storesPlain hp _ _ _ _ => simp [State.storeCipher, State.storePlain, hp]
  all_goals simp

theorem exec_pastCheck {i : Instr} {s t : State} (hb : s.busy = true) (hd : decode s.cmdReg = .ok i)
    (h : exec i s = .next t) : t.PastCheck where
  not_check := exec_leaves_check h
  legal _ := by
    obtain ⟨_, hcmd, _⟩ := exec_keeps_outside h
    exact ⟨i, hcmd ▸ hd⟩
  ended_idle ht := by
    rcases exec_goesOn_or_ended h with ⟨hbusy, _⟩ | ⟨_, _, hidle, _⟩
    · simp [hbusy, hb] at ht
    · exact hidle

/-- Every way a sequencer step of a running command goes that is in CHECK or past it. -/
theorem sequencerStep_cases {s t : State} (hb : s.busy = true) (hs : s.PastCheck ∨ s.phase = .check)
    (h : sequencerStep s = .next t) :
    (∃ i, decode s.cmdReg = .ok i ∧ exec i s = .next t) ∨
    (s.phase = .check ∧ (∃ e, decode s.cmdReg = .error e) ∧ t = s.fail .illegalCommand) := by
  cases hd : decode s.cmdReg with
  | ok i => exact .inl ⟨i, rfl, sequencerStep_ok hb hd ▸ h⟩
  | error e =>
    have hp : s.phase = .check := hs.resolve_left fun hpast => by
      obtain ⟨i, hi⟩ := hpast.legal hb
      simp [hd] at hi
    rw [sequencerStep_illegal hb hd, illegalStep_check hp] at h
    cases h
    exact .inr ⟨hp, ⟨e, rfl⟩, rfl⟩

theorem sequencerStep_pastCheck {s t : State} (hs : s.PastCheck ∨ s.phase = .check ∧ s.busy = true)
    (h : sequencerStep s = .next t) : t.PastCheck := by
  cases hb : s.busy with
  | false =>
    rw [sequencerStep_idle hb] at h
    cases h
    exact hs.resolve_right (by simp [hb])
  | true =>
    rcases sequencerStep_cases hb (hs.imp_right And.left) h with ⟨i, hd, hx⟩ | ⟨_, _, rfl⟩
    · exact exec_pastCheck hb hd hx
    · exact fail_pastCheck _ s

/-- A sequencer step leaves the schedule and the number of the next request alone (R48). -/
theorem sequencerStep_keeps_outside {s t : State} (hs : s.PastCheck ∨ s.phase = .check)
    (h : sequencerStep s = .next t) : t.env = s.env ∧ t.entReq = s.entReq := by
  cases hb : s.busy with
  | false =>
    rw [sequencerStep_idle hb] at h
    cases h
    exact ⟨rfl, rfl⟩
  | true =>
    rcases sequencerStep_cases hb hs h with ⟨i, _, hx⟩ | ⟨_, _, rfl⟩
    · obtain ⟨_, _, henv, hreq, _⟩ := exec_keeps_outside hx
      exact ⟨henv, hreq⟩
    · exact ⟨rfl, rfl⟩

/-! ### The transition table (R120) -/

theorem pastCheck_or_check_of_inv {s : State} (h : s.Inv Config.cores) : s.PastCheck ∨ s.phase = .check := by
  by_cases hp : s.phase = .check
  · exact .inr hp
  · refine .inl ⟨hp, fun hb => ?_, fun hb => (idle_of_not_busy h hb).1⟩
    cases hd : decode s.cmdReg with
    | ok i => exact ⟨i, rfl⟩
    | error e => exact absurd (illegal_in_check h hb hd) hp

theorem check_transition {i : Instr} {s t : State} (hp : s.phase = .check) (hbi : s.bi = 0#24)
    (h : exec i s = .next t) : t.bi = 0#24 ∧ t.phase ∈ [Phase.idle, .kdf, .ivgen, .eblk, .dblk, .wipe] := by
  cases execCase_of_check hp h
  case checkFails | startsEncrypt | startsDecrypt => simp
  case goesToKdf | goesToWipe | goesToIvgen => simp [hbi]
  all_goals simp_all -- the rows of the other phases

theorem ivgen_transition {i : Instr} {s t : State} (hp : s.phase = .ivgen) (h : exec i s = .next t) :
    (s.entPort = none ∧ t = s) ∨
    (s.entPort.isSome = true ∧ t.bi = 0#24 ∧ (i = .geniv → t.phase = .idle) ∧ (i ≠ .geniv → t.phase = .eblk)) := by
  cases hent : s.entPort with
  | none =>
    rw [exec_ivgen i hp, ivgenStep_none hent] at h
    cases h
    exact .inl ⟨rfl, rfl⟩
  | some r =>
    refine .inr ⟨rfl, ?_⟩
    cases execCase_of_ivgen hp h
    case endsWithDraw hi => exact ⟨rfl, fun _ => rfl, fun hne => absurd hi hne⟩
    case encryptsWithDraw hi => exact ⟨rfl, fun heq => absurd heq hi, fun _ => rfl⟩
    all_goals simp_all -- the rows of the other phases

theorem afterEblk_of_last {s : State} (h : s.bi.toNat = s.nb.toNat) :
    s.afterEblk = s.complete (16 + 16 * s.nb.toNat) := if_pos h

theorem afterEblk_of_more {s : State} (h : s.bi.toNat ≠ s.nb.toNat) : s.afterEblk = s := if_neg h

theorem eblk_transition {i : Instr} {s t : State} (hp : s.phase = .eblk) (hlt : s.bi.toNat < s.nb.toNat)
    (h : exec i s = .next t) :
    (s.bi.toNat + 1 < s.nb.toNat → t.phase = .eblk ∧ t.bi = s.bi + 1#24) ∧
    (s.bi.toNat + 1 = s.nb.toNat → t.phase = .idle ∧ t.bi = 0#24) := by
  rw [exec_eblk i hp] at h
  obtain ⟨p, _, _, rfl⟩ := eblkStep_next h
  have hsucc := bi_succ hlt
  refine ⟨fun hmore => ?_, fun hlast => ?_⟩
  · rw [afterEblk_of_more (by simp only [State.storeCipher]; omega)]
    exact ⟨hp, rfl⟩
  · rw [afterEblk_of_last (by simp only [State.storeCipher]; omega)]
    exact ⟨rfl, rfl⟩

theorem afterDblk_of_last {s : State} (h : s.bi.toNat = s.nb.toNat) : s.afterDblk = s.enter .unpad := if_pos h

theorem afterDblk_of_more {s : State} (h : s.bi.toNat ≠ s.nb.toNat) : s.afterDblk = s := if_neg h

theorem dblk_transition {i : Instr} {s t : State} (hp : s.phase = .dblk) (hlt : s.bi.toNat < s.nb.toNat)
    (h : exec i s = .next t) :
    (s.bi.toNat + 1 < s.nb.toNat → t.phase = .dblk ∧ t.bi = s.bi + 1#24) ∧
    (s.bi.toNat + 1 = s.nb.toNat → t.phase = .unpad ∧ t.bi.toNat = s.nb.toNat) := by
  rw [exec_dblk i hp] at h
  obtain ⟨ct, _, _, rfl⟩ := dblkStep_next h
  have hsucc := bi_succ hlt
  refine ⟨fun hmore => ?_, fun hlast => ?_⟩
  · rw [afterDblk_of_more (by simp only [State.storePlain]; omega)]
    exact ⟨hp, rfl⟩
  · rw [afterDblk_of_last (by simp only [State.storePlain]; omega)]
    exact ⟨rfl, hsucc.trans hlast⟩

theorem unpad_transition {i : Instr} {s t : State} (hp : s.phase = .unpad) (hbi : s.bi = s.nb.setWidth 24)
    (h : exec i s = .next t) :
    (t.phase = .idle ∧ t.bi = 0#24) ∨ (i = .dect ∧ t.phase = .text ∧ t.bi.toNat = s.nb.toNat) := by
  have hend : s.bi.toNat = s.nb.toNat := by
    have := s.nb.isLt
    rw [hbi, BitVec.toNat_setWidth]
    omega
  cases execCase_of_unpad hp h
  case unpadFails | delivers => exact .inl ⟨rfl, rfl⟩
  case goesToText hi _ _ => exact .inr ⟨hi, rfl, hend⟩
  all_goals simp_all -- the rows of the other phases

/-- The phases of one step end the command (R140, R202, R210). -/
theorem one_step_phase_transition {i : Instr} {s t : State} (hp : s.phase = .kdf ∨ s.phase = .text ∨ s.phase = .wipe)
    (h : exec i s = .next t) : t.phase = .idle ∧ t.bi = 0#24 := by
  cases exec_cases h
  case derives | deliversText | textFails | wipes => exact ⟨rfl, rfl⟩
  all_goals simp_all -- the rows of the other phases

/-- Settles O19, row by row; an illegal word's row is its failure in CHECK. -/
theorem transitionsFollowTheTable : Obligations.TransitionsFollowTheTable := by
  intro s t h hb hx
  have hok := h.phase_ok
  rcases sequencerStep_cases hb (pastCheck_or_check_of_inv h) hx with ⟨i, hd, hx⟩ | ⟨hp, _, rfl⟩
  · cases hp : s.phase <;> simp only [State.phaseOk, hp] at hok ⊢
    case idle => exact absurd hp (h.legal.busy_iff.mp hb)
    case check =>
      obtain ⟨hbi, _⟩ := hok
      exact check_transition hp hbi hx
    case ivgen => simpa [hd] using ivgen_transition hp hx
    case kdf | text | wipe => exact one_step_phase_transition (by simp [hp]) hx
    case eblk =>
      obtain ⟨_, _, _, hlt, _⟩ := hok
      exact eblk_transition hp hlt hx
    case dblk =>
      obtain ⟨_, _, hlt, _⟩ := hok
      exact dblk_transition hp hlt hx
    case unpad =>
      obtain ⟨_, _, hbi, _⟩ := hok
      simpa [hd] using unpad_transition hp hbi hx
  · simp [hp]

/-! ### Every command ends (R122) -/

/-- A bound on the steps that a running command has left, ENT's answer among them. -/
def State.stepsLeft (s : State) : Nat :=
  match s.phase with
  | .idle => 0
  | .kdf | .text | .wipe => 1
  | .unpad => 2
  | .eblk => s.nb.toNat - s.bi.toNat
  | .dblk => 2 + (s.nb.toNat - s.bi.toNat)
  | .ivgen => if s.entPort.isSome then 2 ^ 21 else 2 ^ 21 + 1
  | .check => 2 ^ 21 + 2

/-- The command has ended, or it still runs and is nearer to its end. -/
def State.Progress (s t : State) : Prop :=
  (t.busy = false ∧ t.done = true) ∨ (t.busy = true ∧ t.stepsLeft < s.stepsLeft)

/-- A row of the table that does not end the command leads nearer to its end. -/
theorem stepsLeft_lt {s t : State} (h : s.Inv Config.cores) (hb : s.busy = true) (hw : s.awaitsEntropy = false)
    (hx : sequencerStep s = .next t) (ht : t.phase ≠ .idle) (hnb : s.phase ∉ [Phase.check, .ivgen] → t.nb = s.nb) :
    t.stepsLeft < s.stepsLeft := by
  have htable := transitionsFollowTheTable s t h hb hx
  have hok := h.phase_ok
  have hsmall := t.nb.isLt
  cases hp : s.phase <;> simp only [State.phaseOk, hp] at htable hok hnb
  case check =>
    obtain ⟨hbi, hmem⟩ := htable
    simp only [List.mem_cons, List.not_mem_nil, or_false, ht, false_or] at hmem
    rcases hmem with hq | hq | hq | hq | hq <;> simp only [State.stepsLeft, hp, hq]
    case inr.inl => split <;> omega
    all_goals omega
  case ivgen =>
    obtain ⟨hn, _⟩ | ⟨hsome, _, hgeniv, henc⟩ := htable
    · rw [awaitsEntropy_iff.mpr ⟨hb, hp, hn⟩] at hw
      cases hw
    · have hq := henc fun hd => ht (hgeniv hd)
      simp only [State.stepsLeft, hp, hq, hsome, if_true]
      omega
  case eblk =>
    obtain ⟨_, _, _, hlt, _⟩ := hok
    obtain ⟨hmore, hlast⟩ := htable
    rcases Nat.lt_or_eq_of_le hlt with hmore' | hlast'
    · obtain ⟨hq, hbi⟩ := hmore hmore'
      simp only [State.stepsLeft, hp, hq, hbi, bi_succ hlt, hnb (by simp)]
      omega
    · exact absurd (hlast hlast').1 ht
  case dblk =>
    obtain ⟨_, _, hlt, _⟩ := hok
    obtain ⟨hmore, hlast⟩ := htable
    rcases Nat.lt_or_eq_of_le hlt with hmore' | hlast'
    · obtain ⟨hq, hbi⟩ := hmore hmore'
      simp only [State.stepsLeft, hp, hq, hbi, bi_succ hlt, hnb (by simp)]
      omega
    · simp only [State.stepsLeft, hp, (hlast hlast').1]
      omega
  case unpad =>
    obtain ⟨hq, _⟩ | ⟨_, hq, _⟩ := htable
    · exact absurd hq ht
    · simp only [State.stepsLeft, hp, hq]
      omega
  case kdf | text | wipe => exact absurd htable.1 ht

theorem sequencerStep_progress {s t : State} (h : s.Inv Config.cores) (hb : s.busy = true)
    (hw : s.awaitsEntropy = false) (hx : sequencerStep s = .next t) : s.Progress t := by
  rcases sequencerStep_cases hb (pastCheck_or_check_of_inv h) hx with ⟨i, _, hexec⟩ | ⟨_, _, rfl⟩
  · rcases exec_goesOn_or_ended hexec with ⟨hbusy, _, _, _, _, _, hnb, _⟩ | ⟨hbusy, hdone, _⟩
    · have hbt : t.busy = true := hbusy.trans hb
      have ht : t.phase ≠ .idle := (sequencerStep_keeps_inv h hx).legal.busy_iff.mp hbt
      exact .inr ⟨hbt, stepsLeft_lt h hb hw hx ht hnb⟩
    · exact .inl ⟨hbusy, hdone⟩
  · exact .inl ⟨rfl, rfl⟩

/-- ENT's answer is one of the steps counted (log entry 4). -/
theorem answer_progress {s : State} (hw : s.awaitsEntropy = true) (r : Block) :
    s.Progress (s.entropyAnswer s.entReq r) := by
  obtain ⟨hb, hp, hn⟩ := awaitsEntropy_iff.mp hw
  rw [entropyAnswer_awaited hw]
  exact .inr ⟨hb, by simp [State.stepsLeft, hp, hn]⟩

/-- With nothing scheduled a running command makes progress in each step (R122). -/
theorem step_progress {s : State} (h : s.Inv Config.cores) (he : s.env = []) (hb : s.busy = true) :
    ∃ t, step s = .next t ∧ t.env = [] ∧ s.Progress t := by
  cases hw : s.awaitsEntropy with
  | true =>
    refine ⟨s.entropyAnswer s.entReq (Config.entDraw s.entReq), ?_, (entropyAnswer_keeps_env _ _).trans he,
      answer_progress hw _⟩
    rw [step_nil he, runAlone, if_pos hw]
  | false =>
    obtain ⟨t, ht⟩ := sequencerStep_answers h
    obtain ⟨henv, _⟩ := sequencerStep_keeps_outside (pastCheck_or_check_of_inv h) ht
    exact ⟨t, (step_alone he hw).trans ht, henv.trans he, sequencerStep_progress h hb hw ht⟩

/-- Settles O30, by induction on the bound. -/
theorem everyCommandEnds : Obligations.EveryCommandEnds := by
  intro s h he hb
  induction hk : s.stepsLeft using Nat.strong_induction_on generalizing s with
  | _ k ih =>
    obtain ⟨t, ht, henv, ⟨hidle, hdone⟩ | ⟨hbusy, hlt⟩⟩ := step_progress h he hb
    · exact ⟨1, t, run_succ ht, hidle, hdone⟩
    · obtain ⟨n, u, hrun, hend⟩ := ih _ (hk ▸ hlt) t (everyStepKeepsTheInvariant s t h ht) henv hbusy rfl
      exact ⟨n + 1, u, (run_succ ht).trans hrun, hend⟩

/-! ### Two machines that run the same command (R123) -/

/-- The first `n` bytes of two stores are the same. -/
def Memory.AgreeBelow (n : Nat) (m m' : Memory) : Prop := ∀ a, a < n → Memory.read m a = Memory.read m' a

theorem Memory.AgreeBelow.mono {n k : Nat} {m m' : Memory} (h : Memory.AgreeBelow n m m') (hk : k ≤ n) :
    Memory.AgreeBelow k m m' :=
  fun a ha => h a (by omega)

theorem Memory.AgreeBelow.zero (m m' : Memory) : Memory.AgreeBelow 0 m m' :=
  fun _ ha => absurd ha (Nat.not_lt_zero _)

/-- The same block written behind what agrees. -/
theorem Memory.AgreeBelow.writeBlock {i : Nat} {m m' : Memory} (h : Memory.AgreeBelow i m m') (hm : Memory.wf m = true)
    (hm' : Memory.wf m' = true) (b : Block) :
    Memory.AgreeBelow (i + 16) (Memory.writeBytes m i b.toList) (Memory.writeBytes m' i b.toList) := by
  intro a ha
  rcases Nat.lt_or_ge a i with hlt | hge
  · rw [read_writeBlock_out m i b (.inl hlt), read_writeBlock_out m' i b (.inl hlt), h a hlt]
  · obtain ⟨k, rfl⟩ := Nat.exists_eq_add_of_le hge
    have hk : k < b.toList.length := by rw [Vector.length_toList]; omega
    rw [Memory.read_writeBytes_in i _ hm hk, Memory.read_writeBytes_in i _ hm' hk]

/-- What of a state no command's course depends on, or only in some phases, taken out: the stores, the hidden registers and what the
outside holds. -/
def State.shared (s : State) : State :=
  { s with
    ibuf := []
    obufs := []
    cv := zeroBlock
    lastp := zeroBlock
    nb := 0#21
    plen := 0#21
    entReq := 0
    busResp := none
    env := [] }

/-- Two states that agree in every register but the hidden ones, and on the operand; their output stores are canonical. Every
operation does to the shared part what it does to the state, so that its own equation is a `congrArg`. -/
structure State.Matches (s t : State) : Prop where
  shared : s.shared = t.shared
  operand : operand s = operand t
  wf_left : Memory.wf s.obufs = true
  wf_right : Memory.wf t.obufs = true

section
variable {s t : State}

theorem State.Matches.busy (h : s.Matches t) : s.busy = t.busy := congrArg (·.busy) h.shared
theorem State.Matches.cmdReg (h : s.Matches t) : s.cmdReg = t.cmdReg := congrArg (·.cmdReg) h.shared
theorem State.Matches.inLen (h : s.Matches t) : s.inLen = t.inLen := congrArg (·.inLen) h.shared
theorem State.Matches.outLen (h : s.Matches t) : s.outLen = t.outLen := congrArg (·.outLen) h.shared
theorem State.Matches.phase (h : s.Matches t) : s.phase = t.phase := congrArg (·.phase) h.shared
theorem State.Matches.bi (h : s.Matches t) : s.bi = t.bi := congrArg (·.bi) h.shared
theorem State.Matches.key (h : s.Matches t) : s.key = t.key := congrArg (·.key) h.shared
theorem State.Matches.iv (h : s.Matches t) : s.iv = t.iv := congrArg (·.iv) h.shared
theorem State.Matches.entPort (h : s.Matches t) : s.entPort = t.entPort := congrArg (·.entPort) h.shared
theorem State.Matches.awaitsEntropy (h : s.Matches t) : s.awaitsEntropy = t.awaitsEntropy :=
  (congrArg State.awaitsEntropy h.shared :)

theorem State.Matches.enter (h : s.Matches t) (p : Phase) : (s.enter p).Matches (t.enter p) :=
  ⟨congrArg (State.enter p) h.shared, h.operand, h.wf_left, h.wf_right⟩

theorem State.Matches.complete (h : s.Matches t) (n : Nat) : (s.complete n).Matches (t.complete n) :=
  ⟨congrArg (State.complete n) h.shared, h.operand, h.wf_left, h.wf_right⟩

theorem State.Matches.fail (h : s.Matches t) (k : ErrorKind) : (s.fail k).Matches (t.fail k) :=
  ⟨congrArg (State.fail k) h.shared, h.operand, h.wf_left, h.wf_right⟩

theorem State.Matches.encStart (h : s.Matches t) (v : Block) : (s.encStart v).Matches (t.encStart v) :=
  ⟨congrArg (fun u => (u.encStart v).shared) h.shared, h.operand, Memory.wf_writeBytes _ _ h.wf_left,
    Memory.wf_writeBytes _ _ h.wf_right⟩

theorem State.Matches.decStart (h : s.Matches t) : s.decStart.Matches t.decStart :=
  ⟨congrArg (fun u => u.decStart.shared) h.shared, h.operand, h.wf_left, h.wf_right⟩

theorem State.Matches.storeCipher (h : s.Matches t) (x : Block) : (s.storeCipher x).Matches (t.storeCipher x) :=
  ⟨congrArg (fun u => (u.storeCipher x).shared) h.shared, h.operand, Memory.wf_writeBytes _ _ h.wf_left,
    Memory.wf_writeBytes _ _ h.wf_right⟩

theorem State.Matches.storePlain (h : s.Matches t) (ct x : Block) :
    (s.storePlain ct x).Matches (t.storePlain ct x) :=
  ⟨congrArg (fun u => (u.storePlain ct x).shared) h.shared, h.operand, Memory.wf_writeBytes _ _ h.wf_left,
    Memory.wf_writeBytes _ _ h.wf_right⟩

theorem State.Matches.wipe (h : s.Matches t) : s.wipe.Matches t.wipe :=
  ⟨congrArg State.wipe h.shared, rfl, rfl, rfl⟩

theorem State.Matches.setKey (h : s.Matches t) (k : Key) (n : BitVec 8) :
    ({ s with key := k, keyLen := n } : State).Matches { t with key := k, keyLen := n } :=
  ⟨congrArg (fun u => { u with key := k, keyLen := n }) h.shared, h.operand, h.wf_left, h.wf_right⟩

theorem State.Matches.takeDraw (h : s.Matches t) (r : Block) :
    ({ s with iv := r, entPort := none } : State).Matches { t with iv := r, entPort := none } :=
  ⟨congrArg (fun u => { u with iv := r, entPort := none }) h.shared, h.operand, h.wf_left, h.wf_right⟩

theorem State.Matches.setPlen (h : s.Matches t) (p : BitVec 21) :
    ({ s with plen := p } : State).Matches { t with plen := p } :=
  ⟨h.shared, h.operand, h.wf_left, h.wf_right⟩

/-- Bytes inside the operand. -/
theorem State.Matches.slice (h : s.Matches t) {i n : Nat} (hin : i + n ≤ s.inLen.toNat) :
    Memory.slice s.ibuf i n = Memory.slice t.ibuf i n := by
  refine Memory.slice_congr fun k hk => ?_
  have hs : i + k < s.inLen.toNat := by omega
  have ht : i + k < t.inLen.toNat := h.inLen ▸ hs
  rw [← operand_getD s hs, ← operand_getD t ht]
  exact congrArg (List.getD · (i + k) 0#8) h.operand

theorem State.Matches.readIbuf (h : s.Matches t) (c : Cores) (i n : Nat) : readIbuf c s i n = readIbuf c t i n := by
  unfold Machine.readIbuf
  rw [← h.inLen]
  split
  · rename_i hle
    rw [h.slice hle.1]
  · rfl

theorem State.Matches.plainBlock (h : s.Matches t) (c : Cores) : plainBlock c s = plainBlock c t := by
  simp only [Machine.plainBlock, plainBytes, h.bi, h.inLen, h.readIbuf]

theorem State.Matches.cipherBlock (h : s.Matches t) (c : Cores) : cipherBlock c s = cipherBlock c t := by
  simp only [Machine.cipherBlock, h.bi, h.readIbuf]

theorem State.Matches.checksOf (h : s.Matches t) (i : Instr) : ∀ ch ∈ checksOf i, ch s = ch t := by
  have hlen (c : Cores) : lengthCheck c s = lengthCheck c t := (congrArg (lengthCheck c) h.shared :)
  have hkey : keyCheck s = keyCheck t := (congrArg keyCheck h.shared :)
  have hcont : containerCheck s = containerCheck t := (congrArg containerCheck h.shared :)
  cases i <;> simp [Machine.checksOf, hlen, hkey, hcont]

end

/-- How many bytes of the output store the running command has written, or the host can read once it has ended. -/
def State.written (s : State) : Nat :=
  match s.phase with
  | .idle => s.outLen.toNat
  | .eblk => 16 + 16 * s.bi.toNat
  | .dblk => 16 * s.bi.toNat
  | .unpad => 16 * s.nb.toNat
  | .text => s.plen.toNat
  | .check | .ivgen | .kdf | .wipe => 0

/-- The hidden registers that the rest of a command depends on are the same, by its phase. -/
def State.SameHidden (s t : State) : Prop :=
  match s.phase with
  | .eblk | .dblk => s.cv = t.cv ∧ s.nb = t.nb
  | .unpad => s.lastp = t.lastp ∧ s.nb = t.nb
  | .text => s.plen = t.plen
  | .idle | .check | .ivgen | .kdf | .wipe => True

/-- The relation that equal steps keep: matching states that agree on the output written so far and on the hidden registers in
use. -/
structure State.Alike (s t : State) : Prop extends s.Matches t where
  output : Memory.AgreeBelow s.written s.obufs t.obufs
  hidden : s.SameHidden t

/-- Where the one step answers, the other answers with a state alike. -/
def ResultsAlike (x y : Result) : Prop := ∀ s', x = .next s' → ∃ t', y = .next t' ∧ s'.Alike t'

theorem State.Alike.next {s t : State} (h : s.Alike t) : ResultsAlike (.next s) (.next t) := by
  rintro s' hs
  cases hs
  exact ⟨t, rfl, h⟩

section
variable {s t : State}

/-- A phase that has written nothing and depends on no hidden register. -/
theorem State.Matches.enter_alike (h : s.Matches t) {p : Phase} (hp : p = .ivgen ∨ p = .kdf ∨ p = .wipe) :
    (s.enter p).Alike (t.enter p) where
  toMatches := h.enter p
  output := by
    rcases hp with rfl | rfl | rfl <;> exact Memory.AgreeBelow.zero _ _
  hidden := by
    rcases hp with rfl | rfl | rfl <;> trivial

theorem State.Matches.complete_alike (h : s.Matches t) {n : Nat} (ho : Memory.AgreeBelow n s.obufs t.obufs) :
    (s.complete n).Alike (t.complete n) where
  toMatches := h.complete n
  output := ho.mono (Nat.mod_le n _)
  hidden := trivial

theorem State.Matches.fail_alike (h : s.Matches t) (k : ErrorKind) : (s.fail k).Alike (t.fail k) where
  toMatches := h.fail k
  output := Memory.AgreeBelow.zero _ _
  hidden := trivial

theorem State.Matches.encStart_alike (h : s.Matches t) (v : Block) : (s.encStart v).Alike (t.encStart v) where
  toMatches := h.encStart v
  output := (Memory.AgreeBelow.zero _ _).writeBlock h.wf_left h.wf_right v
  hidden := ⟨rfl, by simp only [encStart_nb, h.inLen]⟩

theorem State.Matches.decStart_alike (h : s.Matches t) (hmin : 16 ≤ s.inLen.toNat) : s.decStart.Alike t.decStart where
  toMatches := h.decStart
  output := Memory.AgreeBelow.zero _ _
  hidden := ⟨by simp only [decStart_cv, h.slice (i := 0) (n := 16) (by omega)], by simp only [decStart_nb, h.inLen]⟩

/-- What EBLK uses. -/
theorem State.Alike.in_eblk (h : s.Alike t) (hp : s.phase = .eblk) :
    Memory.AgreeBelow (16 + 16 * s.bi.toNat) s.obufs t.obufs ∧ s.cv = t.cv ∧ s.nb = t.nb := by
  obtain ⟨_, hout, hhid⟩ := h
  simp only [State.written, State.SameHidden, hp] at hout hhid
  exact ⟨hout, hhid⟩

/-- What DBLK uses. -/
theorem State.Alike.in_dblk (h : s.Alike t) (hp : s.phase = .dblk) :
    Memory.AgreeBelow (16 * s.bi.toNat) s.obufs t.obufs ∧ s.cv = t.cv ∧ s.nb = t.nb := by
  obtain ⟨_, hout, hhid⟩ := h
  simp only [State.written, State.SameHidden, hp] at hout hhid
  exact ⟨hout, hhid⟩

/-- What UNPAD uses. -/
theorem State.Alike.in_unpad (h : s.Alike t) (hp : s.phase = .unpad) :
    Memory.AgreeBelow (16 * s.nb.toNat) s.obufs t.obufs ∧ s.lastp = t.lastp ∧ s.nb = t.nb := by
  obtain ⟨_, hout, hhid⟩ := h
  simp only [State.written, State.SameHidden, hp] at hout hhid
  exact ⟨hout, hhid⟩

/-- What TEXT uses. -/
theorem State.Alike.in_text (h : s.Alike t) (hp : s.phase = .text) :
    Memory.AgreeBelow s.plen.toNat s.obufs t.obufs ∧ s.plen = t.plen := by
  obtain ⟨_, hout, hhid⟩ := h
  simp only [State.written, State.SameHidden, hp] at hout hhid
  exact ⟨hout, hhid⟩

/-! #### The rows of R120 on alike states -/

theorem checked_alike {chs : List Check} {k : State → Result} (h : s.Matches t) (hch : ∀ ch ∈ chs, ch s = ch t)
    (hk : (∀ ch ∈ chs, ch s = none) → ResultsAlike (k s) (k t)) : ResultsAlike (checked chs k s) (checked chs k t) := by
  induction chs with
  | nil => exact hk (by simp)
  | cons ch chs ih =>
    rw [List.forall_mem_cons] at hch
    cases hs : ch s with
    | some kind =>
      rw [checked_of_fails hs, checked_of_fails (hch.1 ▸ hs)]
      exact (h.fail_alike kind).next
    | none =>
      rw [checked_of_passes hs, checked_of_passes (hch.1 ▸ hs)]
      exact ih hch.2 fun hall => hk (List.forall_mem_cons.mpr ⟨hs, hall⟩)

theorem startEncrypt_alike (h : s.Matches t) (ivs : IvSelect) : ResultsAlike (startEncrypt ivs s) (startEncrypt ivs t) := by
  cases ivs with
  | generate => exact (h.enter_alike (.inl rfl)).next
  | supplied =>
    rw [startEncrypt, startEncrypt, ← h.iv]
    exact (h.encStart_alike s.iv).next

theorem dispatchOf_alike (h : s.Matches t) {i : Instr} (hall : ∀ ch ∈ checksOf i, ch s = none) :
    ResultsAlike (dispatchOf i s) (dispatchOf i t) := by
  cases i with
  | dkey | geniv | zero => exact (h.enter_alike (by simp)).next
  | enc ivs | enct ivs => exact startEncrypt_alike h ivs
  | dec | dect =>
    obtain ⟨hmin, _⟩ := containerCheck_eq_none.mp (hall containerCheck (by simp [checksOf]))
    exact (h.decStart_alike (by omega)).next

theorem ivgenStep_alike (h : s.Alike t) (i : Instr) :
    ResultsAlike (ivgenStep (afterDrawOf i) s) (ivgenStep (afterDrawOf i) t) := by
  cases hent : s.entPort with
  | none =>
    rw [ivgenStep_none hent, ivgenStep_none (h.entPort ▸ hent)]
    exact h.next
  | some r =>
    rw [ivgenStep_some hent, ivgenStep_some (h.entPort ▸ hent)]
    have hdraw := h.takeDraw r
    by_cases hi : i = .geniv
    · subst hi
      exact (hdraw.complete_alike (Memory.AgreeBelow.zero _ _)).next
    · rw [afterDrawOf_of_ne hi]
      exact (hdraw.encStart_alike r).next

theorem kdfStep_alike (h : s.Matches t) (c : Cores) : ResultsAlike (kdfStep c s) (kdfStep c t) := by
  intro s' hs
  obtain ⟨hcap, rfl⟩ := kdfStep_next hs
  refine ⟨_, kdfStep_of_le (h.inLen ▸ hcap), ?_⟩
  have hoperand : Memory.slice s.ibuf 0 s.inLen.toNat = Memory.slice t.ibuf 0 t.inLen.toNat := h.operand
  rw [← hoperand]
  exact (h.setKey _ _).complete_alike (Memory.AgreeBelow.zero _ _)

/-- The next block index, whether or not it wraps (R29). -/
theorem bi_succ_le (b : BitVec 24) : (b + 1#24).toNat ≤ b.toNat + 1 := by
  rw [BitVec.toNat_add]
  exact Nat.mod_le _ _

theorem eblkStep_of_block {c : Cores} {p : Block} (hp : plainBlock c s = some p)
    (hle : 32 + 16 * s.bi.toNat ≤ c.obufBytes) :
    eblkStep c s = .next (s.storeCipher (c.bcEnc s.key (xor16 p s.cv))).afterEblk := by
  simp only [eblkStep, hp]
  rw [writeObuf_of_le (by simp; omega)]
  simp only [State.storeCipher]

/-- The end of an EBLK step: the same block index is or is not the last (R163). -/
theorem afterEblk_alike (h : s.Alike t) (hp : s.phase = .eblk) : s.afterEblk.Alike t.afterEblk := by
  obtain ⟨hout, _, hnb⟩ := h.in_eblk hp
  by_cases hlast : s.bi.toNat = s.nb.toNat
  · rw [afterEblk_of_last hlast, afterEblk_of_last (h.bi ▸ hnb ▸ hlast), ← hnb]
    exact h.complete_alike (hlast ▸ hout)
  · rw [afterEblk_of_more hlast, afterEblk_of_more (h.bi ▸ hnb ▸ hlast)]
    exact h

theorem eblkStep_alike (h : s.Alike t) (hp : s.phase = .eblk) (c : Cores) :
    ResultsAlike (eblkStep c s) (eblkStep c t) := by
  intro s' hs
  obtain ⟨hout, hcv, hnb⟩ := h.in_eblk hp
  obtain ⟨p, hblock, hle, rfl⟩ := eblkStep_next hs
  refine ⟨_, eblkStep_of_block (h.plainBlock c ▸ hblock) (h.bi ▸ hle), ?_⟩
  rw [← h.key, ← hcv]
  generalize c.bcEnc s.key (xor16 p s.cv) = x
  refine afterEblk_alike ⟨h.storeCipher x, ?_, ?_⟩ hp
  · simp only [State.written, State.storeCipher, hp, ← h.bi]
    have := bi_succ_le s.bi
    exact (hout.writeBlock h.wf_left h.wf_right x).mono (by omega)
  · simp only [State.SameHidden, State.storeCipher, hp, hnb, and_self]

theorem dblkStep_of_block {c : Cores} {ct : Block} (hct : cipherBlock c s = some ct)
    (hle : 16 + 16 * s.bi.toNat ≤ c.obufBytes) :
    dblkStep c s = .next (s.storePlain ct (xor16 (c.bcDec s.key ct) s.cv)).afterDblk := by
  simp only [dblkStep, hct]
  rw [writeObuf_of_le (by simp; omega)]
  simp only [State.storePlain]

/-- The end of a DBLK step, in which LASTP was set (R182). -/
theorem afterDblk_alike (h : s.Alike t) (hp : s.phase = .dblk) (hlastp : s.lastp = t.lastp) :
    s.afterDblk.Alike t.afterDblk := by
  obtain ⟨hout, _, hnb⟩ := h.in_dblk hp
  by_cases hlast : s.bi.toNat = s.nb.toNat
  · rw [afterDblk_of_last hlast, afterDblk_of_last (h.bi ▸ hnb ▸ hlast)]
    rw [hlast] at hout
    exact ⟨h.enter .unpad, hout, hlastp, hnb⟩
  · rw [afterDblk_of_more hlast, afterDblk_of_more (h.bi ▸ hnb ▸ hlast)]
    exact h

theorem dblkStep_alike (h : s.Alike t) (hp : s.phase = .dblk) (c : Cores) :
    ResultsAlike (dblkStep c s) (dblkStep c t) := by
  intro s' hs
  obtain ⟨hout, hcv, hnb⟩ := h.in_dblk hp
  obtain ⟨ct, hblock, hle, rfl⟩ := dblkStep_next hs
  refine ⟨_, dblkStep_of_block (h.cipherBlock c ▸ hblock) (h.bi ▸ hle), ?_⟩
  rw [← h.key, ← hcv]
  generalize xor16 (c.bcDec s.key ct) s.cv = x
  refine afterDblk_alike ⟨h.storePlain ct x, ?_, ?_⟩ hp rfl
  · simp only [State.written, State.storePlain, hp, ← h.bi]
    have := bi_succ_le s.bi
    exact (hout.writeBlock h.wf_left h.wf_right x).mono (by omega)
  · simp only [State.SameHidden, State.storePlain, hp, hnb, and_self]

theorem unpadStep_of_none {f : State → Result} (h : padOf s.lastp.toList = none) :
    unpadStep f s = .next (s.fail .invalidPadding) := by
  simp only [unpadStep, h]

theorem unpadStep_of_some {f : State → Result} {p : Nat} (h : padOf s.lastp.toList = some p) :
    unpadStep f s = f { s with plen := BitVec.ofNat 21 (16 * s.nb.toNat - p) } := by
  simp only [unpadStep, h]

/-- The padding test reads LASTP; the length it leaves is below what was written (R183). -/
theorem unpadStep_alike (h : s.Alike t) (hp : s.phase = .unpad) (i : Instr) :
    ResultsAlike (unpadStep (afterUnpadOf i) s) (unpadStep (afterUnpadOf i) t) := by
  obtain ⟨hout, hlastp, hnb⟩ := h.in_unpad hp
  cases hpad : padOf s.lastp.toList with
  | none =>
    rw [unpadStep_of_none hpad, unpadStep_of_none (hlastp ▸ hpad)]
    exact (h.fail_alike .invalidPadding).next
  | some p =>
    rw [unpadStep_of_some hpad, unpadStep_of_some (hlastp ▸ hpad)]
    have hlen : Memory.AgreeBelow (BitVec.ofNat 21 (16 * s.nb.toNat - p)).toNat s.obufs t.obufs :=
      hout.mono ((Nat.mod_le _ _).trans (Nat.sub_le _ _))
    have heq : BitVec.ofNat 21 (16 * t.nb.toNat - p) = BitVec.ofNat 21 (16 * s.nb.toNat - p) := by rw [hnb]
    rw [heq]
    have hplen := h.setPlen (BitVec.ofNat 21 (16 * s.nb.toNat - p))
    by_cases hi : i = .dect
    · subst hi
      exact State.Alike.next ⟨hplen.enter .text, hlen, rfl⟩
    · rw [afterUnpadOf_of_ne hi]
      exact (hplen.complete_alike hlen).next

theorem textStep_alike (h : s.Alike t) (hp : s.phase = .text) (c : Cores) :
    ResultsAlike (textStep c s) (textStep c t) := by
  intro s' hs
  obtain ⟨hout, hplen⟩ := h.in_text hp
  have hslice : Memory.slice t.obufs 0 t.plen.toNat = Memory.slice s.obufs 0 s.plen.toNat := by
    rw [← hplen]
    exact Memory.slice_congr fun k hk => by simpa using (hout k hk).symm
  obtain ⟨hle, ⟨hv, rfl⟩ | ⟨hv, rfl⟩⟩ := textStep_next hs <;>
    refine ⟨_, textStep_of_le (hplen ▸ hle), ?_⟩ <;> rw [hslice, hv]
  · rw [if_pos rfl, ← hplen]
    exact h.complete_alike hout
  · exact h.fail_alike .invalidEncoding

/-- Every row of R120 keeps states alike. -/
theorem exec_alike (h : s.Alike t) (i : Instr) : ResultsAlike (exec i s) (exec i t) := by
  have hpt := h.phase
  cases hp : s.phase with
  | idle =>
    rw [exec_idle i hp, exec_idle i (hpt ▸ hp)]
    exact h.next
  | check =>
    rw [exec_check i hp, exec_check i (hpt ▸ hp)]
    exact checked_alike h.toMatches (h.checksOf i) (dispatchOf_alike h.toMatches)
  | ivgen =>
    rw [exec_ivgen i hp, exec_ivgen i (hpt ▸ hp)]
    exact ivgenStep_alike h i
  | kdf =>
    rw [exec_kdf i hp, exec_kdf i (hpt ▸ hp)]
    exact kdfStep_alike h.toMatches _
  | eblk =>
    rw [exec_eblk i hp, exec_eblk i (hpt ▸ hp)]
    exact eblkStep_alike h hp _
  | dblk =>
    rw [exec_dblk i hp, exec_dblk i (hpt ▸ hp)]
    exact dblkStep_alike h hp _
  | unpad =>
    rw [exec_unpad i hp, exec_unpad i (hpt ▸ hp)]
    exact unpadStep_alike h hp i
  | text =>
    rw [exec_text i hp, exec_text i (hpt ▸ hp)]
    exact textStep_alike h hp _
  | wipe =>
    rw [exec_wipe i hp, exec_wipe i (hpt ▸ hp)]
    exact (h.wipe.complete_alike (Memory.AgreeBelow.zero _ _)).next

end

/-! #### Their draw and their schedules -/

/-- The dispatch goes to IVGEN for the commands that draw, and for no other (R113). -/
theorem draws_of_dispatchOf {i : Instr} {s t : State} (h : dispatchOf i s = .next t) (ht : t.phase = .ivgen) :
    i = .geniv ∨ i = .enc .generate ∨ i = .enct .generate := by
  cases i with
  | geniv => exact .inl rfl
  | enc ivs | enct ivs =>
    cases ivs with
    | generate => simp
    | supplied =>
      cases h
      simp at ht
  | dkey | dec | dect | zero =>
    cases h
    simp at ht

/-- A command comes to IVGEN out of CHECK where it draws, and stays there while it waits (R113, R118). -/
theorem exec_to_ivgen {i : Instr} {s t : State} (h : exec i s = .next t) (ht : t.phase = .ivgen) :
    (s.phase = .check ∧ (i = .geniv ∨ i = .enc .generate ∨ i = .enct .generate)) ∨ t = s := by
  cases hp : s.phase with
  | check =>
    rw [exec_check i hp] at h
    rcases checked_cases h with ⟨_, _, k, _, rfl⟩ | ⟨_, hd⟩
    · simp at ht
    · exact .inl ⟨rfl, draws_of_dispatchOf hd ht⟩
  | idle | ivgen | kdf | eblk | dblk | unpad | text | wipe =>
    cases exec_cases h
    case rests | waits => exact .inr rfl
    all_goals simp_all [State.storeCipher, State.storePlain]

/-- Past CHECK, a step that leads to IVGEN has changed nothing. -/
theorem sequencerStep_stays_in_ivgen {s t : State} (hs : s.PastCheck) (h : sequencerStep s = .next t)
    (ht : t.phase = .ivgen) : t = s := by
  cases hb : s.busy with
  | false =>
    rw [sequencerStep_idle hb] at h
    cases h
    rfl
  | true =>
    rcases sequencerStep_cases hb (.inl hs) h with ⟨i, _, hx⟩ | ⟨hp, _⟩
    · exact (exec_to_ivgen hx ht).resolve_left fun hc => hs.not_check hc.1
    · exact absurd hp hs.not_check

/-- The CHECK step leads to IVGEN where the accepted word draws, and only there. -/
theorem draws_of_sequencerStep {s t : State} (hb : s.busy = true) (hp : s.phase = .check)
    (h : sequencerStep s = .next t) (ht : t.phase = .ivgen) : drawsEntropy s.cmdReg := by
  rcases sequencerStep_cases hb (.inr hp) h with ⟨i, hd, hx⟩ | ⟨_, _, rfl⟩
  · rcases exec_to_ivgen hx ht with ⟨_, rfl | rfl | rfl⟩ | rfl
    · exact .inl hd
    · exact .inr (.inl hd)
    · exact .inr (.inr hd)
    · simp [hp] at ht
  · simp at ht

/-- Alike states make the same sequencer step. -/
theorem sequencerStep_alike {s t : State} (h : s.Alike t) (hs : s.PastCheck ∨ s.phase = .check) :
    ResultsAlike (sequencerStep s) (sequencerStep t) := by
  cases hb : s.busy with
  | false =>
    rw [sequencerStep_idle hb, sequencerStep_idle (h.busy ▸ hb)]
    exact h.next
  | true =>
    intro s' hs'
    rcases sequencerStep_cases hb hs hs' with ⟨i, hd, hx⟩ | ⟨hp, ⟨e, hd⟩, rfl⟩
    · rw [sequencerStep_ok (h.busy ▸ hb) (h.cmdReg ▸ hd)]
      exact exec_alike h i s' hx
    · rw [sequencerStep_illegal (h.busy ▸ hb) (h.cmdReg ▸ hd), illegalStep_check (h.phase ▸ hp)]
      exact (h.fail_alike .illegalCommand).next _ rfl

theorem State.Alike.pastCheck {s t : State} (h : s.Alike t) (hs : s.PastCheck) : t.PastCheck where
  not_check := h.phase ▸ hs.not_check
  legal := h.cmdReg ▸ h.busy ▸ hs.legal
  ended_idle := h.phase ▸ h.busy ▸ hs.ended_idle

/-- A sequencer step of two alike machines, each keeping its own schedule and request number. -/
theorem sequencerStep_lockstep {s t u : State} (h : s.Alike t) (hs : s.PastCheck ∨ s.phase = .check ∧ s.busy = true)
    (hu : sequencerStep s = .next u) :
    ∃ v, sequencerStep t = .next v ∧ u.Alike v ∧ u.PastCheck ∧ (u.env = s.env ∧ u.entReq = s.entReq) ∧
      v.env = t.env ∧ v.entReq = t.entReq := by
  have hs' := hs.imp_right And.left
  obtain ⟨v, hv, huv⟩ := sequencerStep_alike h hs' u hu
  have ht : t.PastCheck ∨ t.phase = .check := hs'.imp h.pastCheck fun hp => h.phase ▸ hp
  exact ⟨v, hv, huv, sequencerStep_pastCheck hs hu, sequencerStep_keeps_outside hs' hu, sequencerStep_keeps_outside ht hv⟩

/-- What the outside holds has no part in the relation. -/
theorem State.Alike.withSchedule {s t : State} (h : s.Alike t) (es et : List Event) :
    ({ s with env := es } : State).Alike { t with env := et } :=
  ⟨⟨h.shared, h.operand, h.wf_left, h.wf_right⟩, h.output, h.hidden⟩

/-- Each machine's own request is answered with the same draw. -/
theorem entropyAnswer_alike {s t : State} (h : s.Alike t) (r : Block) :
    (s.entropyAnswer s.entReq r).Alike (t.entropyAnswer t.entReq r) := by
  by_cases hw : s.awaitsEntropy = true
  · rw [entropyAnswer_awaited hw, entropyAnswer_awaited (h.awaitsEntropy ▸ hw)]
    exact ⟨⟨congrArg (fun u => { u with entPort := some r }) h.shared, h.operand, h.wf_left, h.wf_right⟩, h.output,
      h.hidden⟩
  · rw [entropyAnswer_ignored (absurd · hw), entropyAnswer_ignored (absurd · (h.awaitsEntropy ▸ hw))]
    exact h

/-- A command past its CHECK step that waits for no answer. -/
def State.NeedsNoAnswer (s : State) : Prop := s.PastCheck ∧ (s.phase = .ivgen → s.entPort ≠ none)

theorem State.NeedsNoAnswer.step_eq {s : State} (h : s.NeedsNoAnswer) (he : s.env = []) : step s = sequencerStep s :=
  step_alone he (awaitsEntropy_eq_false fun ⟨hp, hn⟩ => h.2 hp hn)

theorem State.Alike.needsNoAnswer {s t : State} (h : s.Alike t) (hs : s.NeedsNoAnswer) : t.NeedsNoAnswer := by
  obtain ⟨hpast, hport⟩ := hs
  exact ⟨h.pastCheck hpast, h.phase ▸ h.entPort ▸ hport⟩

/-- After an answer to its request the command waits no longer. -/
theorem entropyAnswer_needsNoAnswer {s : State} (h : s.PastCheck) (r : Block) :
    (s.entropyAnswer s.entReq r).NeedsNoAnswer := by
  by_cases hw : s.awaitsEntropy = true
  · rw [entropyAnswer_awaited hw]
    exact ⟨⟨h.not_check, h.legal, h.ended_idle⟩, fun _ => by simp⟩
  · rw [entropyAnswer_ignored (absurd · hw)]
    refine ⟨h, fun hp hn => hw (awaitsEntropy_iff.mpr ⟨?_, hp, hn⟩)⟩
    by_contra hb
    simpa [hp] using h.ended_idle (Bool.eq_false_iff.mpr hb)

/-- What a run of the first machine answers, a run of the second answers alike. -/
def RunsAlike (n : Nat) (s t : State) : Prop :=
  ∀ s', run n s = .next s' → ∃ t', run n t = .next t' ∧ s'.Alike t' ∧ s'.PastCheck

theorem runsAlike_succ {n : Nat} {s t : State}
    (h : ∀ u, step s = .next u → ∃ v, step t = .next v ∧ RunsAlike n u v) : RunsAlike (n + 1) s t := by
  intro s' hx
  obtain ⟨u, hu, hrun⟩ := run_succ_cases hx
  obtain ⟨v, hv, halike⟩ := h u hu
  rw [run_succ hv]
  exact halike s' hrun

/-- The induction over the steps in which nothing is scheduled. -/
theorem run_alike (n : Nat) {s t : State} (h : s.Alike t) (hs : s.env = []) (ht : t.env = [])
    (hn : s.NeedsNoAnswer) : RunsAlike n s t := by
  induction n generalizing s t with
  | zero =>
    intro s' hx
    cases hx
    exact ⟨t, rfl, h, hn.1⟩
  | succ n ih =>
    refine runsAlike_succ fun u hu => ?_
    rw [hn.step_eq hs] at hu
    obtain ⟨v, hv, huv, hpast, ⟨hus, _⟩, hvt, _⟩ := sequencerStep_lockstep h (.inl hn.1) hu
    refine ⟨v, ((h.needsNoAnswer hn).step_eq ht).trans hv, ih huv (hus.trans hs) (hvt.trans ht) ⟨hpast, fun hp => ?_⟩⟩
    obtain rfl := sequencerStep_stays_in_ivgen hn.1 hu hp
    exact hn.2 hp

/-- States at rest with the same operands, key and IV are alike once they have accepted the same word (R111). -/
theorem accept_alike {s t : State} (w : Word) (hs : s.AtRest Config.cores) (ht : t.AtRest Config.cores)
    (hlen : s.inLen = t.inLen) (hkeyLen : s.keyLen = t.keyLen) (hkey : s.key = t.key) (hiv : s.iv = t.iv)
    (hie : s.ie = t.ie) (hop : operand s = operand t) : (s.accept w).Alike (t.accept w) where
  shared := by
    simp only [State.shared, State.accept, hlen, hkeyLen, hkey, hiv, hie, hs.no_answer, ht.no_answer]
  operand := hop
  wf_left := hs.obufs_wf
  wf_right := ht.obufs_wf
  output := Memory.AgreeBelow.zero _ _
  hidden := trivial

/-- A command that draws nothing, from its CHECK step on, with nothing scheduled. -/
theorem run_check_alike (n : Nat) {s t : State} (h : s.Alike t) (hb : s.busy = true) (hp : s.phase = .check)
    (hs : s.env = []) (ht : t.env = []) (hw : ¬ drawsEntropy s.cmdReg) : RunsAlike (n + 1) s t := by
  have hpt : t.phase = .check := h.phase ▸ hp
  refine runsAlike_succ fun u hu => ?_
  rw [step_alone hs (awaitsEntropy_of_phase (by simp [hp]))] at hu
  obtain ⟨v, hv, huv, hpast, ⟨hus, _⟩, hvt, _⟩ := sequencerStep_lockstep h (.inr ⟨hp, hb⟩) hu
  exact ⟨v, (step_alone ht (awaitsEntropy_of_phase (by simp [hpt]))).trans hv,
    run_alike n huv (hus.trans hs) (hvt.trans ht)
      ⟨hpast, fun hup => absurd (draws_of_sequencerStep hb hp hu hup) hw⟩⟩

/-- ENT's scheduled answer to each machine's own request, and what follows. -/
theorem run_answer_alike (n : Nat) {s t : State} {r : Block} (h : s.Alike t) (hpast : s.PastCheck)
    (hs : s.env = [.entropy s.entReq r]) (ht : t.env = [.entropy t.entReq r]) : RunsAlike n s t := by
  cases n with
  | zero =>
    intro s' hx
    cases hx
    exact ⟨t, rfl, h, hpast⟩
  | succ n =>
    have hclear := h.withSchedule [] []
    refine runsAlike_succ fun u hu => ?_
    rw [step_cons hs] at hu
    cases hu
    refine ⟨_, step_cons ht, run_alike n (entropyAnswer_alike hclear r) ?_ ?_ ?_⟩
    · exact entropyAnswer_keeps_env (s := { s with env := [] }) _ r
    · exact entropyAnswer_keeps_env (s := { t with env := [] }) _ r
    · exact entropyAnswer_needsNoAnswer (s := { s with env := [] }) ⟨hpast.not_check, hpast.legal, hpast.ended_idle⟩ r

/-- A command from its CHECK step on, with a draw scheduled after it. -/
theorem run_check_answer_alike (n : Nat) {s t : State} {r : Block} (h : s.Alike t) (hb : s.busy = true)
    (hp : s.phase = .check) (hs : s.env = [.sequencer, .entropy s.entReq r])
    (ht : t.env = [.sequencer, .entropy t.entReq r]) : RunsAlike (n + 1) s t := by
  refine runsAlike_succ fun u hu => ?_
  rw [step_cons hs] at hu
  obtain ⟨v, hv, huv, hpast, ⟨hus, hureq⟩, hvt, hvreq⟩ :=
    sequencerStep_lockstep (h.withSchedule [.entropy s.entReq r] [.entropy t.entReq r]) (.inr ⟨hp, hb⟩) hu
  refine ⟨v, (step_cons ht).trans hv, run_answer_alike n (r := r) huv hpast ?_ ?_⟩
  · rw [hus, hureq]
  · rw [hvt, hvreq]

/-- The output that alike states show once the command has ended (R80). -/
theorem readableOutput_alike {s t : State} (h : s.Alike t) (hp : s.phase = .idle) :
    readableOutput s = readableOutput t := by
  have hout := h.output
  simp only [State.written, hp] at hout
  unfold readableOutput windowBytes
  rw [← h.outLen]
  refine List.map_congr_left fun a ha => ?_
  have ha' : 0 + a < s.outLen.toNat := by simpa using ha
  simp only [windowByte, ← h.outLen, hout _ ha']

/-- Settles O31: the accepted states are alike, each step keeps them alike, and alike states that have ended show the same. -/
theorem commandsAreStateless : Obligations.CommandsAreStateless := by
  intro s₁ s₂ w r n t₁ hrest₁ hrest₂ hsched hlen hkeyLen hkey hiv hie hop hrun hbusy
  have haccept := accept_alike w hrest₁ hrest₂ hlen hkeyLen hkey hiv hie hop
  obtain ⟨t₂, hrun₂, h, hpast⟩ : ∃ t₂, run n (s₂.accept w) = .next t₂ ∧ t₁.Alike t₂ ∧ t₁.PastCheck := by
    cases n with
    | zero =>
      cases hrun
      simp at hbusy
    | succ n =>
      rcases hsched with ⟨hw, hs, ht⟩ | ⟨hs, ht⟩
      · exact run_check_alike n haccept rfl rfl hs ht hw t₁ hrun
      · exact run_check_answer_alike n haccept rfl rfl hs ht t₁ hrun
  have hsame {α : Type} (f : State → α) : f t₂.shared = f t₁.shared := congrArg f h.shared.symm
  exact ⟨t₂, hrun₂, h.busy ▸ hbusy, hsame (·.done), hsame (·.err), hsame (·.outLen), hsame (·.key), hsame (·.keyLen),
    hsame (·.iv), hsame (·.inLen), hsame (·.ie), hsame (·.cmdReg), hsame (·.phase), hsame (·.bi), h.operand.symm,
    (readableOutput_alike h (hpast.ended_idle hbusy)).symm⟩

end Sys2Proof.Machine
end

section
/-! PROOFS. Family 41_key_derivation.md: the KDF step of DKEY, and the commands without a block loop (DKEY, GENIV
and ZERO) from acceptance to their end. -/

namespace Sys2Proof.Machine

/-! ### The KDF step (R140) -/

/-- Settles O10: the read of the operand stays inside it, and `Complete(0)` ends the command. -/
theorem dkeyDerivesTheKey : Obligations.DkeyDerivesTheKey :=
  fun _ hp hlen => (exec_kdf .dkey hp).trans (kdfStep_of_le hlen)

/-! ### The first two steps of an accepted command (R111 to R113) -/

/-- With nothing scheduled, the step after the acceptance is CHECK. -/
theorem step_accept {s : State} (i : Instr) (he : s.env = []) :
    step (s.accept (encode i)) = checked (checksOf i) (dispatchOf i) (s.accept (encode i)) :=
  (step_exec (s := s.accept (encode i)) he rfl (decode_encode i) (by simp)).trans (exec_check i rfl)

/-- With the sequencer scheduled first, the step after the acceptance is CHECK as well. -/
theorem step_accept_scheduled {s : State} {rest : List Event} (i : Instr) (he : s.env = .sequencer :: rest) :
    step (s.accept (encode i)) =
      checked (checksOf i) (dispatchOf i) { s.accept (encode i) with env := rest } :=
  (step_sequencer (s := s.accept (encode i)) he rfl (decode_encode i)).trans (exec_check i rfl)

/-- With nothing scheduled, the step in the phase that CHECK has led to is the command's own. -/
theorem step_accept_enter {s : State} {p : Phase} (i : Instr) (he : s.env = []) (hp : p ≠ .ivgen) :
    step ((s.accept (encode i)).enter p) = exec i ((s.accept (encode i)).enter p) :=
  step_exec (s := (s.accept (encode i)).enter p) he rfl (decode_encode i) hp

/-! ### DKEY (R140) -/

theorem run_dkey {s : State} (he : s.env = []) (hlen : s.inLen.toNat ≤ Config.ibufBytes) :
    run 2 (s.accept (encode .dkey)) =
      .next ({ s.accept (encode .dkey) with key := Config.hash256 (operand s), keyLen := 32#8 }.complete 0) := by
  have hcheck : step (s.accept (encode .dkey)) = .next ((s.accept (encode .dkey)).enter .kdf) :=
    (step_accept .dkey he).trans (checked_of_passes (lengthCheck_eq_none.mpr hlen))
  have hkdf := (step_accept_enter (p := .kdf) .dkey he (by decide)).trans (dkeyDerivesTheKey _ rfl hlen)
  rw [run_succ hcheck, run_succ hkdf, run_zero]
  rfl

theorem run_dkey_too_long {s : State} (he : s.env = []) (hlen : Config.ibufBytes < s.inLen.toNat) :
    run 1 (s.accept (encode .dkey)) = .next ((s.accept (encode .dkey)).fail .lengthRange) :=
  run_succ ((step_accept .dkey he).trans (checked_of_fails (lengthCheck_fails hlen)))

/-! ### GENIV (R150) -/

/-- The state of GENIV in which the answer `r` to its request stands at the port. -/
def State.genivAnswered (r : Block) (s : State) : State :=
  { (s.accept (encode .geniv)).enter .ivgen with env := [], entPort := some r, entReq := s.entReq + 1 }

/-- CHECK raises GENIV's request, and ENT answers it. -/
theorem run_geniv_answered {s : State} {r : Block} (he : s.env = [.sequencer, .entropy s.entReq r])
    (hn : s.entPort = none) : run 2 (s.accept (encode .geniv)) = .next (s.genivAnswered r) := by
  have hcheck : step (s.accept (encode .geniv)) =
      .next ({ s.accept (encode .geniv) with env := [.entropy s.entReq r] }.enter .ivgen) :=
    step_accept_scheduled .geniv he
  have hanswer := step_answer (s := { s.accept (encode .geniv) with env := [.entropy s.entReq r] }.enter .ivgen)
    rfl rfl rfl hn
  rw [run_succ hcheck, run_succ hanswer]
  rfl

/-- IVGEN takes the answer and ends GENIV; the port is as empty as before. -/
theorem step_genivAnswered {s : State} (r : Block) (hn : s.entPort = none) :
    step (s.genivAnswered r) =
      .next ({ s.accept (encode .geniv) with iv := r, env := [], entReq := s.entReq + 1 }.complete 0) := by
  rw [step_draw (s := s.genivAnswered r) rfl rfl (decode_encode .geniv) rfl rfl]
  simp [afterDrawOf, State.genivAnswered, State.complete, State.finish, hn]

theorem run_geniv {s : State} {r : Block} (he : s.env = [.sequencer, .entropy s.entReq r]) (hn : s.entPort = none) :
    run 3 (s.accept (encode .geniv)) =
      .next ({ s.accept (encode .geniv) with iv := r, env := [], entReq := s.entReq + 1 }.complete 0) :=
  calc run (2 + 1) (s.accept (encode .geniv))
    _ = run 1 (s.genivAnswered r) := run_add (run_geniv_answered he hn)
    _ = _ := run_succ (step_genivAnswered r hn)

/-! ### ZERO (R210) -/

theorem run_zero_command {s : State} (he : s.env = []) :
    run 2 (s.accept (encode .zero)) = .next ((s.accept (encode .zero)).wipe.complete 0) := by
  have hcheck : step (s.accept (encode .zero)) = .next ((s.accept (encode .zero)).enter .wipe) := step_accept .zero he
  have hwipe := (step_accept_enter (p := .wipe) .zero he (by decide)).trans (exec_wipe .zero rfl)
  rw [run_succ hcheck, run_succ hwipe]
  rfl

/-- Settles O21, command by command. -/
theorem shortCommandsRunToTheirEnd : Obligations.ShortCommandsRunToTheirEnd :=
  fun _ _ => ⟨run_dkey, run_dkey_too_long, run_geniv, run_zero_command⟩

end Sys2Proof.Machine
end

section
/-! PROOFS. Family 42_iv_generation.md: what a step of IVGEN does with the draw, and what two differing draws do to the
container. -/

namespace Sys2Proof.Machine

/-! ### The IVGEN step with an answer at the port (R150) -/

theorem exec_ivgen_some (i : Instr) {s : State} {r : Block} (hp : s.phase = .ivgen) (hr : s.entPort = some r) :
    exec i s = afterDrawOf i r { s with iv := r, entPort := none } :=
  (exec_ivgen i hp).trans (ivgenStep_some hr)

/-- Settles O11: by what the command does with its draw, `Complete(0)` for GENIV and `EncStart(r)` for ENC and ENCT. -/
theorem ivgenTakesTheDraw : Obligations.IvgenTakesTheDraw :=
  fun _ _ ivs hp hr =>
    ⟨exec_ivgen_some .geniv hp hr, exec_ivgen_some (.enc ivs) hp hr, exec_ivgen_some (.enct ivs) hp hr⟩

/-! ### Containers under differing draws (R151) -/

/-- The first ciphertext block of a container: padding makes sure that there is one (R10, R12). -/
theorem take_drop_encFn (c : Cores) (k : Key) (iv : Block) (m : List Byte) :
    ((encFn c k iv m).drop 16).take 16 = (c.bcEnc k (xor16 (padBlock m 0) iv)).toList := by
  rw [drop_encFn, cbcEncrypt, splitBlocks_pad, encBlocks, List.range_succ_eq_map, List.map_cons, cbcEncryptBlocks,
    joinBlocks_cons]
  exact List.take_left' (by simp)

/-- The inverse law of R7 makes the cipher injective under each key. -/
theorem bcEnc_injective {c : Cores} (hc : c.Lawful) (k : Key) : Function.Injective (c.bcEnc k) :=
  Function.LeftInverse.injective (hc.dec_enc k)

/-- Settles O60: the front of the container is the draw, and the first ciphertext block is injective in it, since XOR
with the first block of the message and the cipher both are. -/
theorem differentDrawsDifferentContainers : Obligations.DifferentDrawsDifferentContainers := by
  refine fun c k r₁ r₂ m hc hne => ⟨fun hfront => hne ?_, fun hblock => hne ?_⟩
  · rw [take_encFn, take_encFn] at hfront
    exact Vector.toList_inj.mp hfront
  · rw [take_drop_encFn, take_drop_encFn] at hblock
    have hinput : xor16 (padBlock m 0) r₁ = xor16 (padBlock m 0) r₂ :=
      bcEnc_injective hc k (Vector.toList_inj.mp hblock)
    exact xor16_left_injective hinput

end Sys2Proof.Machine
end

section
/-! PROOFS. Family 43_encrypt.md: what EncStart and DecStart set, the EBLK step, ENC and ENCT from acceptance to their end with a
supplied and with a drawn IV, and the container as the host reads it. -/

namespace Sys2Proof.Machine

/-! ### The starts of the cipher loops (R161, R181) -/

/-- An operand that passed CHECK has a block count that NB can hold (R36, R161). -/
theorem encStart_nb_toNat {s : State} (v : Block) (hlen : s.inLen.toNat ≤ Config.ibufBytes) :
    (s.encStart v).nb.toNat = encBlocks s.inLen.toNat := by
  have := ibufBytes_le
  simp only [encStart_nb, encBlocks, BitVec.toNat_ofNat]
  omega

/-- A container that passed CHECK has a block count that NB can hold (R36, R181). -/
theorem decStart_nb_toNat {s : State} (hlen : s.inLen.toNat ≤ Config.ibufBytes) :
    s.decStart.nb.toNat = (s.inLen.toNat - 16) / 16 := by
  have := ibufBytes_le
  simp only [decStart_nb, BitVec.toNat_ofNat]
  omega

theorem toList_blockOfBytes {bs : List Byte} (h : bs.length = 16) : (blockOfBytes bs).toList = bs := by
  apply List.ext_getElem
  · simp [h]
  · intro j hj hbs
    simp [blockOfBytes, blockOf, hbs]

/-- A block written to a canonical store is read back there. -/
theorem Memory.slice_writeBlock {m : Memory} (i : Nat) (b : Block) (hm : Memory.wf m = true) :
    Memory.slice (Memory.writeBytes m i b.toList) i 16 = b.toList := by
  simpa using Memory.slice_writeBytes i b.toList hm

/-- Settles O9: the two starts write the fields they name; the counts fit NB, and the write of the IV covers indices 0 to 15. -/
theorem cipherStartsSetTheChain : Obligations.CipherStartsSetTheChain := by
  refine ⟨fun s v hlen => ?_, fun s hmin hlen hmod => ?_⟩
  · exact ⟨rfl, encStart_nb_toNat v hlen, rfl, rfl, fun hwf => Memory.slice_writeBlock 0 v hwf,
      fun a ha => Memory.read_writeBytes_out _ _ _ (.inr (by simpa using ha)), rfl⟩
  · have hnb := decStart_nb_toNat hlen
    exact ⟨toList_blockOfBytes (by simp), by omega, by omega, rfl⟩

/-! ### The EBLK step (R163) -/

/-- The EBLK step of every command, for an operand within the buffer and a block within the count. -/
theorem exec_eblk_of_le (i : Instr) {s : State} (hp : s.phase = .eblk) (hlen : s.inLen.toNat ≤ Config.ibufBytes)
    (hnb : s.nb.toNat = encBlocks s.inLen.toNat) (hbi : s.bi.toNat < s.nb.toNat) :
    exec i s = .next (s.storeCipher (Config.cipher s.key (xor16 (padBlock (operand s) s.bi.toNat) s.cv))).afterEblk := by
  have hfits : 32 + 16 * s.bi.toNat ≤ Config.cores.obufBytes := by
    simp only [encBlocks] at hnb
    simp only [cores_obufBytes]
    omega
  exact (exec_eblk i hp).trans (eblkStep_of_le hlen hfits)

theorem afterEblk_storeCipher {s : State} (x : Block) (hbi : s.bi.toNat < s.nb.toNat) :
    (s.storeCipher x).afterEblk =
      if s.bi.toNat + 1 = s.nb.toNat then (s.storeCipher x).complete (16 + 16 * s.nb.toNat) else s.storeCipher x := by
  rw [← bi_succ hbi]
  rfl

/-- Settles O13: the step stores one ciphertext block; whether the command ends with it makes no difference to the buffers. -/
theorem eblkEncryptsOneBlock : Obligations.EblkEncryptsOneBlock := by
  intro s ivs hp hlen hnb hbi c t t'
  have hexec (i : Instr) : exec i s = .next t' :=
    (exec_eblk_of_le i hp hlen hnb hbi).trans (congrArg Host.Outcome.next (afterEblk_storeCipher c hbi))
  have hobufs : t'.obufs = Memory.writeBytes s.obufs (16 + 16 * s.bi.toNat) c.toList := by
    simp only [t']
    split <;> rfl
  have hibuf : t'.ibuf = s.ibuf := by
    simp only [t']
    split <;> rfl
  refine ⟨hexec _, hexec _, fun a ha => ?_, fun a => by rw [hibuf]⟩
  rw [hobufs]
  exact Memory.read_writeBytes_out _ _ _ (by simp only [Vector.length_toList]; omega)

/-! ### From EncStart to the end of the command (R161, R163) -/

/-- The blocks of an encryption, with nothing scheduled: the container stands in the output store. -/
theorem run_encStart {s : State} {i : Instr} (v : Block) (he : s.env = []) (hb : s.busy = true)
    (hd : decode s.cmdReg = .ok i) (hlen : s.inLen.toNat ≤ Config.ibufBytes) :
    run (encBlocks s.inLen.toNat) (s.encStart v) =
      .next ({ s with obufs := Memory.writeBytes s.obufs 0 (encFn Config.cores s.key v (operand s)) }.complete
        (blobLen s.inLen.toNat)) := by
  have hnb := encStart_nb_toNat v hlen
  have hloop := run_encrypted (s := s.encStart v) (v := v) (o := s.obufs) he hb hd rfl hlen hnb (s.inLen.toNat / 16) 0
    ((Nat.zero_add _).trans hnb.symm)
  rw [encStart_encrypted] at hloop
  exact hloop

/-! ### From acceptance to EncStart (R113, R160, R162) -/

theorem encryptCommand_cases (text : Bool) (ivs : IvSelect) :
    encryptCommand text ivs = .enc ivs ∨ encryptCommand text ivs = .enct ivs := by
  cases text
  · exact .inl rfl
  · exact .inr rfl

theorem afterDrawOf_encryptCommand (text : Bool) (ivs : IvSelect) :
    afterDrawOf (encryptCommand text ivs) = thenEncrypt := by
  cases text <;> rfl

/-- With a supplied IV the CHECK step starts the chain. -/
theorem step_accept_supplied {s : State} (text : Bool) (he : s.env = []) (hlen : s.inLen.toNat ≤ Config.ibufBytes)
    (hkey : s.keyLen = 32#8) :
    step (s.accept (encode (encryptCommand text .supplied))) =
      .next ((s.accept (encode (encryptCommand text .supplied))).encStart s.iv) :=
  (step_exec (s := s.accept _) he rfl (decode_encode _) (by simp)).trans
    (exec_check_encrypt rfl (encryptCommand_cases text .supplied) hlen hkey)

/-- The encryption's state in which the answer `r` to its request stands at the port. -/
def State.encryptAnswered (text : Bool) (r : Block) (s : State) : State :=
  { (s.accept (encode (encryptCommand text .generate))).enter .ivgen with
    env := [], entPort := some r, entReq := s.entReq + 1 }

/-- CHECK raises the encryption's request, and ENT answers it. -/
theorem run_encrypt_answered {s : State} {r : Block} (text : Bool) (he : s.env = [.sequencer, .entropy s.entReq r])
    (hn : s.entPort = none) (hlen : s.inLen.toNat ≤ Config.ibufBytes) (hkey : s.keyLen = 32#8) :
    run 2 (s.accept (encode (encryptCommand text .generate))) = .next (s.encryptAnswered text r) := by
  have hcheck : step (s.accept (encode (encryptCommand text .generate))) =
      .next ({ s.accept (encode (encryptCommand text .generate)) with env := [.entropy s.entReq r] }.enter .ivgen) :=
    (step_sequencer (s := s.accept _) he rfl (decode_encode _)).trans
      (exec_check_encrypt rfl (encryptCommand_cases text .generate) hlen hkey)
  have hanswer := step_answer
    (s := { s.accept (encode (encryptCommand text .generate)) with env := [.entropy s.entReq r] }.enter .ivgen)
    rfl rfl rfl hn
  rw [run_succ hcheck, run_succ hanswer]
  rfl

/-- The encryption's state once IV has taken the draw `r` and the schedule is used up; the port is as empty as before. -/
def State.encryptDrawn (text : Bool) (r : Block) (s : State) : State :=
  { s.accept (encode (encryptCommand text .generate)) with iv := r, env := [], entReq := s.entReq + 1 }

/-- IVGEN takes the answer and starts the chain with it (R162). -/
theorem step_encryptAnswered {s : State} (text : Bool) (r : Block) (hn : s.entPort = none) :
    step (s.encryptAnswered text r) = .next ((s.encryptDrawn text r).encStart r) := by
  rw [step_draw (s := s.encryptAnswered text r) rfl rfl (decode_encode _) rfl rfl, afterDrawOf_encryptCommand]
  simp [thenEncrypt, State.encryptAnswered, State.encryptDrawn, State.encStart, hn]

/-! ### Whole encryptions (R160, R166) -/

/-- Settles O22: the CHECK step starts the chain with the IV register, and the loop runs to its end. -/
theorem encryptSuppliedRunsToItsEnd : Obligations.EncryptSuppliedRunsToItsEnd := by
  intro s text he hlen hkey a
  calc run (1 + encBlocks s.inLen.toNat) a
    _ = run (encBlocks s.inLen.toNat) (a.encStart s.iv) := run_add (run_succ (step_accept_supplied text he hlen hkey))
    _ = _ := run_encStart (s := a) s.iv he rfl (decode_encode _) hlen

/-- Settles O23: CHECK asks ENT, ENT answers, IVGEN starts the chain with the answer, and the loop runs to its end. -/
theorem encryptGeneratedRunsToItsEnd : Obligations.EncryptGeneratedRunsToItsEnd := by
  intro s text r he hn hlen hkey a
  have hstart : run (2 + 1) a = .next ((s.encryptDrawn text r).encStart r) :=
    (run_add (run_encrypt_answered text he hn hlen hkey)).trans (run_succ (step_encryptAnswered text r hn))
  calc run (3 + encBlocks s.inLen.toNat) a
    _ = run (encBlocks s.inLen.toNat) ((s.encryptDrawn text r).encStart r) := run_add hstart
    _ = _ := run_encStart (s := s.encryptDrawn text r) r rfl rfl (decode_encode _) hlen

/-- Settles O29, by the three whole final states: GENIV leaves ENC.S the IV register with the draw that ENC.G starts from. -/
theorem generateThenSupplyIsGenerate : Obligations.GenerateThenSupplyIsGenerate := by
  intro s text r he hn hlen hkey
  exact ⟨_, _, _, encryptGeneratedRunsToItsEnd s text r he hn hlen hkey, run_geniv he hn,
    encryptSuppliedRunsToItsEnd _ text rfl hlen hkey, rfl, rfl, rfl⟩

/-! ### The container as the host reads it (R80, R165) -/

/-- The mask of OBUF hides nothing below OUT_LEN. -/
theorem readableOutput_eq_slice (s : State) : readableOutput s = Memory.slice s.obufs 0 s.outLen.toNat := by
  refine List.map_congr_left fun k hk => ?_
  have hshown : 0 + k < s.outLen.toNat := by simpa using hk
  simp only [windowByte, if_pos hshown]

/-- A command that writes `out` from index 0 of a canonical store and completes with its length shows `out`. -/
theorem readableOutput_complete {s : State} {o : Memory} {out : List Byte} (hwf : Memory.wf o = true)
    (hout : out.length < 2 ^ 32) :
    readableOutput ({ s with obufs := Memory.writeBytes o 0 out }.complete out.length) = out := by
  rw [readableOutput_eq_slice, complete_obufs, complete_outLen, BitVec.toNat_ofNat, Nat.mod_eq_of_lt hout]
  exact Memory.slice_writeBytes 0 out hwf

theorem blobLen_lt {n : Nat} (h : n ≤ Config.ibufBytes) : blobLen n < 2 ^ 32 := by
  have := ibufBytes_le
  unfold blobLen
  omega

theorem length_encFn_operand (c : Cores) (k : Key) (v : Block) (s : State) :
    (encFn c k v (operand s)).length = blobLen s.inLen.toNat := by
  rw [length_encFn, operand, Memory.length_slice]

/-- What the host sees of a completed encryption, whichever way its IV came. -/
theorem encryption_result {s t : State} {o : Memory} (u : State) (k : Key) (v : Block) (hwf : Memory.wf o = true)
    (hlen : s.inLen.toNat ≤ Config.ibufBytes)
    (ht : t = { u with obufs := Memory.writeBytes o 0 (encFn Config.cores k v (operand s)) }.complete
      (blobLen s.inLen.toNat)) :
    t.busy = false ∧ t.done = true ∧ t.err = 0#3 ∧ t.outLen.toNat = blobLen s.inLen.toNat ∧
      readableOutput t = encFn Config.cores k v (operand s) ∧ (readableOutput t).take 16 = v.toList := by
  subst ht
  have hblob := length_encFn_operand Config.cores k v s
  have hsmall := blobLen_lt hlen
  have hread := readableOutput_complete (s := u) (out := encFn Config.cores k v (operand s)) hwf (hblob ▸ hsmall)
  rw [hblob] at hread
  exact ⟨rfl, rfl, rfl, Nat.mod_eq_of_lt hsmall, hread, by rw [hread, take_encFn]⟩

/-- Settles O24: the whole final states of ENC.S and ENC.G, as the host reads them. -/
theorem encryptResultLaw : Obligations.EncryptResultLaw := by
  refine fun s text r hn hlen hkey hwf => ⟨fun he => ?_, fun he => ?_⟩
  · exact ⟨_, encryptSuppliedRunsToItsEnd s text he hlen hkey,
      encryption_result (s.accept (encode (encryptCommand text .supplied))) s.key s.iv hwf hlen rfl⟩
  · obtain ⟨hbusy, hdone, herr, hout, hread, hfront⟩ :=
      encryption_result (s.encryptDrawn text r) s.key r hwf hlen rfl
    exact ⟨_, encryptGeneratedRunsToItsEnd s text r he hn hlen hkey, hbusy, hdone, herr, hout, hread, rfl, hfront⟩

end Sys2Proof.Machine
end

section
/-! PROOFS. Family 44_decrypt.md: the DBLK and UNPAD steps, DEC from acceptance to its end and as the host reads it, the round
trip through the host's copying, what can be read of an unfinished or failed command, and how far a changed block reaches. -/

namespace Sys2Proof.Machine

/-! ### The DBLK step (R182) -/

/-- The DBLK step of every command, for a container that passed CHECK and a block within the count. -/
theorem exec_dblk_of_containerOk (i : Instr) {s : State} (hp : s.phase = .dblk) (hok : s.containerOk Config.cores)
    (hbi : s.bi.toNat < s.nb.toNat) :
    exec i s = .next (s.storePlain (blockAt (operand s) (s.bi.toNat + 1))
      (xor16 ((Config.cipher s.key).symm (blockAt (operand s) (s.bi.toNat + 1))) s.cv)).afterDblk := by
  obtain ⟨⟨hcap, _⟩, _, _, hnb⟩ := hok
  exact (exec_dblk i hp).trans (dblkStep_of_le (by omega) hcap)

theorem afterDblk_storePlain {s : State} (ct p : Block) (hbi : s.bi.toNat < s.nb.toNat) :
    (s.storePlain ct p).afterDblk =
      if s.bi.toNat + 1 = s.nb.toNat then (s.storePlain ct p).enter .unpad else s.storePlain ct p := by
  rw [← bi_succ hbi]
  rfl

theorem afterDblk_obufs (s : State) : s.afterDblk.obufs = s.obufs := by
  unfold State.afterDblk
  split <;> rfl

theorem afterDblk_ibuf (s : State) : s.afterDblk.ibuf = s.ibuf := by
  unfold State.afterDblk
  split <;> rfl

theorem read_storePlain_out {s : State} (ct p : Block) {a : Nat}
    (ha : a < 16 * s.bi.toNat ∨ 16 * s.bi.toNat + 16 ≤ a) :
    Memory.read (s.storePlain ct p).obufs a = Memory.read s.obufs a :=
  read_writeBlock_out s.obufs _ p ha

/-- Settles O14: the step stores one plaintext block; whether UNPAD follows makes no difference to the buffers. -/
theorem dblkDecryptsOneBlock : Obligations.DblkDecryptsOneBlock := by
  intro s hp hok hbi c p t t'
  have ht : (s.storePlain c p).afterDblk = t' := afterDblk_storePlain c p hbi
  have hexec (i : Instr) : exec i s = .next t' := ht ▸ exec_dblk_of_containerOk i hp hok hbi
  refine ⟨hexec _, hexec _, fun a ha => ?_, fun a => ?_⟩
  · rw [← ht, afterDblk_obufs]
    exact read_storePlain_out _ p (by omega)
  · rw [← ht, afterDblk_ibuf]
    rfl

/-! ### The UNPAD step (R183) -/

theorem unpad_eq_error_iff {x : List Byte} {k : ErrorKind} :
    unpad x = .error k ↔ padOf x = none ∧ k = .invalidPadding := by
  cases h : padOf x with
  | none => simp [unpad_of_none h, eq_comm]
  | some p => simp [unpad_of_some h]

theorem unpad_eq_ok_iff {x m : List Byte} :
    unpad x = .ok m ↔ ∃ p, padOf x = some p ∧ m = x.take (x.length - p) := by
  cases h : padOf x with
  | none => simp [unpad_of_none h]
  | some p => simp [unpad_of_some h, eq_comm]

/-- The padding test on one block: the pad value is its last byte, is 1..16, and fills the last bytes. -/
theorem padOf_block_eq_some_iff {b : Block} {p : Nat} :
    padOf b.toList = some p ↔ (byteAt b 15).toNat = p ∧ 1 ≤ p ∧ p ≤ 16 ∧
      ∀ j, 16 - p ≤ j → j < 16 → (byteAt b j).toNat = p := by
  rw [padOf_eq_some_iff (by simp)]
  simp only [Vector.length_toList, toList_getD]

/-- The three ways in which a block fails the padding test. -/
theorem padOf_block_eq_none_iff {b : Block} :
    padOf b.toList = none ↔ (byteAt b 15).toNat = 0 ∨ 16 < (byteAt b 15).toNat ∨
      ∃ j, 16 - (byteAt b 15).toNat ≤ j ∧ j ≤ 15 ∧ (byteAt b j).toNat ≠ (byteAt b 15).toNat := by
  constructor
  · intro hnone
    by_contra hgood
    simp only [not_or, not_exists, not_and, not_not] at hgood
    obtain ⟨h0, h16, hall⟩ := hgood
    have hsome := padOf_block_eq_some_iff.mpr ⟨rfl, by omega, by omega, fun j hle hlt => hall j hle (by omega)⟩
    exact absurd (hnone.symm.trans hsome) (by simp)
  · intro hbad
    rw [Option.eq_none_iff_forall_ne_some]
    intro p hp
    obtain ⟨rfl, hp1, hp16, hall⟩ := padOf_block_eq_some_iff.mp hp
    rcases hbad with h0 | h16 | ⟨j, hle, hlt, hj⟩
    · omega
    · omega
    · exact hj (hall j hle (by omega))

/-- A padding that the test accepts leaves a length that PLEN holds exactly (R37). -/
theorem plen_toNat {n p : Nat} (hn : 16 * n ≤ Config.cores.obufBytes) :
    (BitVec.ofNat 21 (16 * n - p)).toNat = 16 * n - p := by
  have := ibufBytes_le
  simp only [cores_obufBytes] at hn
  simp only [BitVec.toNat_ofNat]
  omega

theorem exec_unpad_fails (i : Instr) {s : State} (hp : s.phase = .unpad) (hpad : padOf s.lastp.toList = none) :
    exec i s = .next (s.fail .invalidPadding) :=
  (exec_unpad i hp).trans (unpadStep_of_none hpad)

/-- DEC delivers the bytes before the padding. -/
theorem exec_unpad_delivers {s : State} {p : Nat} (hp : s.phase = .unpad)
    (hn : 16 * s.nb.toNat ≤ Config.cores.obufBytes) (hpad : padOf s.lastp.toList = some p) :
    exec .dec s = .next (s.complete (16 * s.nb.toNat - p)) := by
  rw [exec_unpad .dec hp, unpadStep_of_some hpad, afterUnpadOf, thenDeliver, plen_toNat hn]
  rfl

/-- Settles O15: the three failures are those of the padding test on LASTP. -/
theorem unpadTestsTheLastBlock : Obligations.UnpadTestsTheLastBlock := by
  intro s hp _ hn p bad
  constructor
  · intro hbad
    have hpad : padOf s.lastp.toList = none := padOf_block_eq_none_iff.mpr hbad
    exact ⟨exec_unpad_fails .dec hp hpad, exec_unpad_fails .dect hp hpad⟩
  · intro hgood
    obtain ⟨q, hpad⟩ := Option.ne_none_iff_exists'.mp fun hnone => hgood (padOf_block_eq_none_iff.mp hnone)
    obtain rfl : p = q := (padOf_block_eq_some_iff.mp hpad).1
    exact ⟨exec_unpad_delivers hp hn hpad, (exec_unpad .dect hp).trans (unpadStep_of_some hpad), plen_toNat hn⟩

/-! ### From DecStart to UNPAD (R181, R182) -/

theorem length_operand (s : State) : (operand s).length = s.inLen.toNat := Memory.length_slice _ _ _

/-- The bytes of IBUF that DecStart takes as the IV are the container's first block. -/
theorem blockOfBytes_slice_eq_blockAt {s : State} (hmin : 16 ≤ s.inLen.toNat) :
    blockOfBytes (Memory.slice s.ibuf 0 16) = blockAt (operand s) 0 := by
  apply block_ext
  intro j hj
  rw [blockOfBytes, blockAt, byteAt_blockOf _ hj, byteAt_blockOf _ hj, Memory.getD_slice _ _ _ _ hj, operand,
    Memory.getD_slice _ _ _ _ (by omega), Nat.mul_zero, Nat.zero_add, Nat.zero_add]

/-- The chain as `DecStart` leaves it is the loop's state with no block done (R181). -/
theorem decStart_decrypted {s : State} (hmin : 16 ≤ s.inLen.toNat) :
    s.decStart.decrypted s.obufs 0 = s.decStart := by
  have hiv : blockAt (operand s.decStart) 0 = s.decStart.cv := (blockOfBytes_slice_eq_blockAt hmin).symm
  simp only [State.decrypted, hiv]
  rfl

/-- The state in which the padding test finds the recovered blocks of the container. -/
def State.recovered (s : State) : State :=
  { s.decStart.decrypted s.obufs s.decStart.nb.toNat with phase := .unpad }

/-- The blocks of a decryption, with nothing scheduled. -/
theorem run_decStart {s : State} {i : Instr} (he : s.env = []) (hb : s.busy = true) (hd : decode s.cmdReg = .ok i)
    (hlen : s.inLen.toNat ≤ Config.ibufBytes) (hmin : 32 ≤ s.inLen.toNat) (hmod : s.inLen.toNat % 16 = 0) :
    run ((s.inLen.toNat - 16) / 16) s.decStart = .next s.recovered := by
  have hnb := decStart_nb_toNat hlen
  have hblocks : 16 + 16 * s.decStart.nb.toNat = s.decStart.inLen.toNat := by
    rw [hnb, decStart_inLen]
    omega
  obtain ⟨d, hcount⟩ : ∃ d, (s.inLen.toNat - 16) / 16 = d + 1 := ⟨(s.inLen.toNat - 16) / 16 - 1, by omega⟩
  have hloop := run_decrypted (s := s.decStart) (o := s.obufs) he hb hd rfl hlen hblocks d 0 (by omega)
  rwa [decStart_decrypted (by omega), ← hcount] at hloop

/-- The first step of a decryption whose operand and key pass CHECK is the test of its container (R112). -/
theorem step_accept_container {s : State} {i : Instr} (hi : i = .dec ∨ i = .dect) (he : s.env = [])
    (hlen : s.inLen.toNat ≤ Config.ibufBytes) (hkey : s.keyLen = 32#8) :
    step (s.accept (encode i)) = checked [containerCheck] (fun s => .next s.decStart) (s.accept (encode i)) :=
  (step_exec (s := s.accept _) he rfl (decode_encode i) (by simp)).trans (exec_check_decrypt rfl hi hlen hkey)

theorem step_accept_decStart {s : State} {i : Instr} (hi : i = .dec ∨ i = .dect) (he : s.env = [])
    (hlen : s.inLen.toNat ≤ Config.ibufBytes) (hkey : s.keyLen = 32#8) (hmin : 32 ≤ s.inLen.toNat)
    (hmod : s.inLen.toNat % 16 = 0) : step (s.accept (encode i)) = .next (s.accept (encode i)).decStart := by
  have hcontainer : 32 ≤ s.inLen.toNat ∧ (s.inLen.toNat - 16) % 16 = 0 := by omega
  exact (step_accept_container hi he hlen hkey).trans (checked_of_passes (containerCheck_eq_none.mpr hcontainer))

/-! ### The recovered padded plaintext (R13, R17) -/

/-- After the last block the recovered padded plaintext stands in the output store. -/
theorem recovered_obufs {s : State} (hlen : s.inLen.toNat ≤ Config.ibufBytes) :
    s.recovered.obufs = Memory.writeBytes s.obufs 0 (recoveredPadded Config.cores s) := by
  have hcount : (s.inLen.toNat - 16) / 16 = ((operand s).length - 16) / 16 := by rw [length_operand]
  rw [recoveredPadded, ← joinBlocks_plainBlocks, ← hcount, ← decStart_nb_toNat hlen]
  rfl

theorem length_recoveredPadded (s : State) :
    (recoveredPadded Config.cores s).length = 16 * ((s.inLen.toNat - 16) / 16) := by
  rw [recoveredPadded, length_cbcDecrypt, List.length_drop, length_operand]

/-- The padding test reads the last block only. -/
theorem padOf_append_block (xs : List Byte) (b : Block) : padOf (xs ++ b.toList) = padOf b.toList := by
  have hback (j : Nat) : (xs ++ b.toList).getD (xs.length + j) 0#8 = byteAt b j := by
    rw [List.getD_append_right _ _ _ _ (by omega), Nat.add_sub_cancel_left, toList_getD]
  apply Option.ext
  intro p
  rw [padOf_block_eq_some_iff, padOf_eq_some_iff (by simp)]
  have hlen : (xs ++ b.toList).length = xs.length + 16 := by simp
  rw [hlen, Nat.add_sub_assoc (by omega : 1 ≤ 16), hback]
  refine and_congr_right fun _ => and_congr_right fun hp1 => and_congr_right fun hp16 => ?_
  constructor
  · intro hall j hle hlt
    rw [← hback]
    exact hall (xs.length + j) (by omega) (by omega)
  · intro hall i hle hlt
    obtain ⟨j, rfl⟩ := Nat.exists_eq_add_of_le (by omega : xs.length ≤ i)
    rw [hback]
    exact hall j (by omega) (by omega)

/-- LASTP holds what the padding test needs of the whole recovered plaintext (R183). -/
theorem padOf_recovered_lastp {s : State} (hlen : s.inLen.toNat ≤ Config.ibufBytes) (hmin : 32 ≤ s.inLen.toNat) :
    padOf s.recovered.lastp.toList = padOf (recoveredPadded Config.cores s) := by
  have hlength := length_operand s
  obtain ⟨d, hcount⟩ : ∃ d, (s.inLen.toNat - 16) / 16 = d + 1 := ⟨(s.inLen.toNat - 16) / 16 - 1, by omega⟩
  have hlastp : s.recovered.lastp = (plainBlocks s.key (operand s) (d + 1)).getLast?.getD s.lastp := by
    rw [← hcount, ← decStart_nb_toNat hlen]
    rfl
  rw [recoveredPadded, ← joinBlocks_plainBlocks, hlength, hcount, hlastp, plainBlocks_succ, joinBlocks_append,
    joinBlocks_cons, joinBlocks_nil, List.append_nil, padOf_append_block, List.getLast?_concat, Option.getD_some]

/-! ### DEC from acceptance to its end (R180 to R183) -/

/-- The recovered padded plaintext has been written to the output store from index 0. -/
def State.storeRecovered (s : State) : State :=
  { s with obufs := Memory.writeBytes s.obufs 0 (recoveredPadded Config.cores s) }

/-- The end of a command clears what else the loop has changed (R114, R115). -/
theorem finish_recovered {s : State} (len : Word) (code : BitVec 3) (hlen : s.inLen.toNat ≤ Config.ibufBytes) :
    s.recovered.finish len code = s.storeRecovered.finish len code := by
  rw [State.storeRecovered, ← recovered_obufs hlen]
  rfl

/-- The recovered plaintext fits the output store (R73). -/
theorem recovered_fits {s : State} (hlen : s.inLen.toNat ≤ Config.ibufBytes) :
    16 * s.recovered.nb.toNat ≤ Config.cores.obufBytes := by
  have hnb : s.recovered.nb.toNat = (s.inLen.toNat - 16) / 16 := decStart_nb_toNat hlen
  rw [hnb, cores_obufBytes]
  omega

/-- CHECK and the loop of an accepted decryption whose container passes. -/
theorem run_accept_decrypt {s : State} {i : Instr} (hi : i = .dec ∨ i = .dect) (he : s.env = [])
    (hlen : s.inLen.toNat ≤ Config.ibufBytes) (hkey : s.keyLen = 32#8) (hmin : 32 ≤ s.inLen.toNat)
    (hmod : s.inLen.toNat % 16 = 0) :
    run (1 + (s.inLen.toNat - 16) / 16) (s.accept (encode i)) = .next (s.accept (encode i)).recovered :=
  (run_add (run_succ (step_accept_decStart hi he hlen hkey hmin hmod))).trans
    (run_decStart (s := s.accept (encode i)) he rfl (decode_encode i) hlen hmin hmod)

theorem exec_dec_recovered_error {s : State} {k : ErrorKind} (hlen : s.inLen.toNat ≤ Config.ibufBytes)
    (hmin : 32 ≤ s.inLen.toNat) (hx : unpad (recoveredPadded Config.cores s) = .error k) :
    exec .dec s.recovered = .next (s.storeRecovered.fail k) := by
  obtain ⟨hpad, rfl⟩ := unpad_eq_error_iff.mp hx
  rw [exec_unpad_fails .dec rfl ((padOf_recovered_lastp hlen hmin).trans hpad), State.fail, finish_recovered _ _ hlen]
  rfl

theorem exec_dec_recovered_ok {s : State} {m : List Byte} (hlen : s.inLen.toNat ≤ Config.ibufBytes)
    (hmin : 32 ≤ s.inLen.toNat) (hx : unpad (recoveredPadded Config.cores s) = .ok m) :
    exec .dec s.recovered = .next (s.storeRecovered.complete m.length) := by
  obtain ⟨p, hpad, rfl⟩ := unpad_eq_ok_iff.mp hx
  have hcount : 16 * s.recovered.nb.toNat = (recoveredPadded Config.cores s).length := by
    rw [length_recoveredPadded, ← decStart_nb_toNat hlen]
    rfl
  rw [exec_unpad_delivers rfl (recovered_fits hlen) ((padOf_recovered_lastp hlen hmin).trans hpad), hcount,
    State.complete, finish_recovered _ _ hlen, List.length_take_of_le (Nat.sub_le _ _)]
  rfl

/-- Settles O25: CHECK, the loop, then UNPAD, whose test on LASTP is that of `Unpad` on the whole recovered plaintext. -/
theorem decryptRunsToItsEnd : Obligations.DecryptRunsToItsEnd := by
  intro s he hlen hkey hmin hmod a
  have hstep : step (s.accept (encode .dec)).recovered = exec .dec (s.accept (encode .dec)).recovered :=
    step_exec (s := (s.accept (encode .dec)).recovered) he rfl (decode_encode .dec) (by simp [State.recovered])
  have hrun : run (2 + (s.inLen.toNat - 16) / 16) (s.accept (encode .dec)) =
      run 1 (s.accept (encode .dec)).recovered := by
    rw [← run_add (run_accept_decrypt (.inl rfl) he hlen hkey hmin hmod)]
    congr 1
    omega
  rw [hrun]
  cases hx : unpad (recoveredPadded Config.cores s) with
  | error k => exact run_succ (hstep.trans (exec_dec_recovered_error (s := s.accept _) hlen hmin hx))
  | ok m => exact run_succ (hstep.trans (exec_dec_recovered_ok (s := s.accept _) hlen hmin hx))

/-! ### DEC as the host reads it (R17, R185) -/

/-- A container that is too short, or not of whole blocks, fails in CHECK. -/
theorem run_dec_malformed {s : State} (he : s.env = []) (hlen : s.inLen.toNat ≤ Config.ibufBytes)
    (hkey : s.keyLen = 32#8) (hbad : s.inLen.toNat < 32 ∨ (s.inLen.toNat - 16) % 16 ≠ 0) :
    run 1 (s.accept (encode .dec)) = .next ((s.accept (encode .dec)).fail .malformedInput) :=
  run_succ ((step_accept_container (.inl rfl) he hlen hkey).trans (checked_of_fails (containerCheck_fails hbad)))

/-- What the host reads after a decryption that delivers `m`, a front of the recovered plaintext (R80). -/
theorem readableOutput_storeRecovered {s : State} {m : List Byte} (hwf : Memory.wf s.obufs = true)
    (hlen : s.inLen.toNat ≤ Config.ibufBytes) (hm : m = (recoveredPadded Config.cores s).take m.length) :
    (s.storeRecovered.complete m.length).outLen.toNat = m.length ∧
      readableOutput (s.storeRecovered.complete m.length) = m := by
  have hle : m.length ≤ (recoveredPadded Config.cores s).length :=
    (congrArg List.length hm).trans_le (List.length_take_le' _ _)
  have hout : (s.storeRecovered.complete m.length).outLen.toNat = m.length := by
    have hmax := ibufBytes_le
    rw [length_recoveredPadded] at hle
    rw [complete_outLen, BitVec.toNat_ofNat]
    omega
  refine ⟨hout, ?_⟩
  rw [readableOutput_eq_slice, hout, complete_obufs, State.storeRecovered, ← Memory.slice_take _ _ _ _ hle,
    Memory.slice_writeBytes 0 _ hwf, ← hm]

/-- Settles O27: a malformed container fails in CHECK; else DEC ends as `Unpad` says of the recovered plaintext, and the
window shows its front. -/
theorem decryptResultLaw : Obligations.DecryptResultLaw := by
  intro s he hlen hkey hwf
  have hlength := length_operand s
  by_cases hbad : s.inLen.toNat < 32 ∨ (s.inLen.toNat - 16) % 16 ≠ 0
  · have hdec : decFn Config.cores s.key (operand s) = .error .malformedInput := if_pos (hlength.symm ▸ hbad)
    rw [hdec]
    exact ⟨1, _, run_dec_malformed he hlen hkey hbad, rfl, rfl, rfl, rfl⟩
  · have hmin : 32 ≤ s.inLen.toNat := by omega
    have hmod : s.inLen.toNat % 16 = 0 := by omega
    have hdec : decFn Config.cores s.key (operand s) = unpad (recoveredPadded Config.cores s) :=
      decFn_eq_unpad (by omega) (by omega)
    have hrun := decryptRunsToItsEnd s he hlen hkey hmin hmod
    rw [hdec]
    cases hx : unpad (recoveredPadded Config.cores s) with
    | error k =>
      rw [hx] at hrun
      obtain ⟨_, rfl⟩ := unpad_eq_error_iff.mp hx
      exact ⟨_, _, hrun, rfl, rfl, rfl, rfl⟩
    | ok m =>
      rw [hx] at hrun
      obtain ⟨p, _, rfl⟩ := unpad_eq_ok_iff.mp hx
      obtain ⟨hout, hread⟩ := readableOutput_storeRecovered (s := s.accept (encode .dec)) hwf hlen
        (congrArg (List.take · _) (List.length_take_of_le (Nat.sub_le _ _)).symm)
      exact ⟨_, _, hrun, rfl, rfl, rfl, hout, hread⟩

/-! ### The round trip through the host's copying (R102, R186) -/

/-- The host's write of a command word to the idle machine is its acceptance (R111). -/
theorem hostAccess_issue {s : State} (i : Instr) (hb : s.busy = false) :
    hostAccess Config.cores (issue i) s =
      ({ s with busResp := some .writeOkay } : State).accept (encode i) :=
  assignCsr_some (r := .cmd) (writeCsr_cmd hb)

/-- Copying writes the bytes to IBUF; the reads leave nothing but their responses (R70). -/
theorem hostAccesses_copyBytes {c : Cores} (hc : c.ibufBytes ≤ 1048544) {bs : List Byte} {s : State} {i : Nat}
    (hb : s.busy = false) (hi : i + bs.length ≤ c.ibufBytes) :
    hostAccesses c (copyBytes i bs) s =
      { s with ibuf := Memory.writeBytes s.ibuf i bs,
               busResp := if bs = [] then s.busResp else some .writeOkay } := by
  induction bs generalizing s i with
  | nil => rfl
  | cons b bs ih =>
    rw [List.length_cons] at hi
    have hcopy : hostAccess c (assignByte .ibuf i b) (hostAccess c (readByte .obuf i) s) =
        { s with ibuf := Memory.writeBytes s.ibuf i [b], busResp := some .writeOkay } :=
      assignByte_some hc (show i < c.ibufBytes by omega) (writeWindow_ibuf (by exact hb))
    rw [copyBytes, hostAccesses, hostAccesses, hcopy, ih (by exact hb) (by omega)]
    simp [Memory.writeBytes]

/-- The bytes `out` have been loaded as the operand. -/
def State.loadOperand (out : List Byte) (s : State) : State :=
  { s with
    ibuf := Memory.writeBytes s.ibuf 0 out
    inLen := BitVec.ofNat 32 out.length
    busResp := some .writeOkay }

/-- `MVOI` leaves what `LDIN` of the copied bytes leaves (R102). -/
theorem hostAccesses_mvoi {c : Cores} (hc : c.ibufBytes ≤ 1048544) {s : State} (hb : s.busy = false) {out : List Byte}
    (hlen : out.length ≤ c.ibufBytes) :
    hostAccesses c (stmtAccesses (.mvoi out)) s = s.loadOperand out := by
  have hcopy := hostAccesses_copyBytes hc (s := hostAccess c (readCsr .outLen) s) (i := 0) (bs := out) hb (by omega)
  rw [stmtAccesses, hostAccesses_concat, hostAccesses, hcopy]
  exact assignCsr_some (writeCsr_inLen (by exact hb))

theorem loadOperand_inLen_toNat {s : State} {out : List Byte} (hlen : out.length ≤ Config.ibufBytes) :
    (s.loadOperand out).inLen.toNat = out.length := by
  have := ibufBytes_le
  simp only [State.loadOperand, BitVec.toNat_ofNat]
  omega

theorem operand_loadOperand {s : State} {out : List Byte} (hwf : Memory.wf s.ibuf = true)
    (hlen : out.length ≤ Config.ibufBytes) : operand (s.loadOperand out) = out := by
  rw [operand, loadOperand_inLen_toNat hlen]
  exact Memory.slice_writeBytes 0 out hwf

/-- An encryption of the operand of `s` from the IV `v` has ended in `t`, which is ready for a DEC of its container. -/
structure State.ContainerReady (s : State) (v : Block) (t : State) : Prop where
  idle : t.busy = false
  done : t.done = true
  output : readableOutput t = encFn Config.cores s.key v (operand s)
  key : t.key = s.key
  keyLen : t.keyLen = s.keyLen
  ibuf : t.ibuf = s.ibuf
  obufs_wf : Memory.wf t.obufs = true
  env : t.env = []

/-- The end of an encryption, whichever way its IV came, if it has kept the key and the operand. -/
theorem containerReady_complete {s u : State} (v : Block) (hlen : s.inLen.toNat ≤ Config.ibufBytes)
    (hwf : Memory.wf s.obufs = true) (hkey : u.key = s.key) (hkeyLen : u.keyLen = s.keyLen) (hibuf : u.ibuf = s.ibuf)
    (henv : u.env = []) :
    s.ContainerReady v
      ({ u with obufs := Memory.writeBytes s.obufs 0 (encFn Config.cores s.key v (operand s)) }.complete
        (blobLen s.inLen.toNat)) := by
  obtain ⟨hbusy, hdone, _, _, hread, _⟩ := encryption_result u s.key v hwf hlen rfl
  exact ⟨hbusy, hdone, hread, hkey, hkeyLen, hibuf, Memory.wf_writeBytes _ _ hwf, henv⟩

/-- ENC and ENCT with a supplied and with a drawn IV. -/
theorem run_encryption {s : State} {ivs : IvSelect} {r : Block} (text : Bool) (hn : s.entPort = none)
    (hlen : s.inLen.toNat ≤ Config.ibufBytes) (hkey : s.keyLen = 32#8) (hwf : Memory.wf s.obufs = true)
    (he : ivs = .supplied ∧ s.env = [] ∨ ivs = .generate ∧ s.env = [.sequencer, .entropy s.entReq r]) :
    ∃ n v t, run n (s.accept (encode (encryptCommand text ivs))) = .next t ∧ s.ContainerReady v t := by
  rcases he with ⟨rfl, he⟩ | ⟨rfl, he⟩
  · exact ⟨_, s.iv, _, encryptSuppliedRunsToItsEnd s text he hlen hkey,
      containerReady_complete (u := s.accept _) s.iv hlen hwf rfl rfl rfl he⟩
  · exact ⟨_, r, _, encryptGeneratedRunsToItsEnd s text r he hn hlen hkey,
      containerReady_complete (u := s.encryptDrawn text r) r hlen hwf rfl rfl rfl rfl⟩

/-- A container loaded as the operand decrypts to its plaintext (R18). -/
theorem run_dec_container {s : State} {v : Block} {m : List Byte} (he : s.env = []) (hkey : s.keyLen = 32#8)
    (hlen : s.inLen.toNat ≤ Config.ibufBytes) (hwf : Memory.wf s.obufs = true)
    (hop : operand s = encFn Config.cores s.key v m) :
    ∃ n t, run n (s.accept (encode .dec)) = .next t ∧ t.busy = false ∧ t.done = true ∧ t.err = 0#3 ∧
      t.outLen.toNat = m.length ∧ readableOutput t = m := by
  have hdec : decFn Config.cores s.key (operand s) = .ok m := by rw [hop, decFn_encFn cores_lawful]
  obtain ⟨n, t, hrun, hbusy, hdone, hresult⟩ := decryptResultLaw s he hlen hkey hwf
  rw [hdec] at hresult
  exact ⟨n, t, hrun, hbusy, hdone, hresult⟩

/-- Settles O28: what ENC or ENCT leaves for the host is a container, and `MVOI` makes it the operand of DEC. -/
theorem hardwareRoundTrip : Obligations.HardwareRoundTrip := by
  intro s text ivs r hn hlen hkey hibuf hobufs hb he
  have hcap : s.inLen.toNat ≤ Config.ibufBytes := by omega
  have hlength := length_operand s
  have hsched : ivs = .supplied ∧ s.env = [] ∨ ivs = .generate ∧ s.env = [.sequencer, .entropy s.entReq r] := by
    cases ivs
    · exact .inr ⟨rfl, he⟩
    · exact .inl ⟨rfl, he⟩
  obtain ⟨n₁, v, t₁, hrun₁, ht₁⟩ :=
    run_encryption (s := { s with busResp := some .writeOkay }) text hn hcap hkey hobufs hsched
  have hout : readableOutput t₁ = encFn Config.cores t₁.key v (operand s) := by rw [ht₁.output, ht₁.key]; rfl
  have hfits : (readableOutput t₁).length ≤ Config.ibufBytes := by
    rw [hout, length_encFn_operand, blobLen]
    omega
  obtain ⟨n₂, t₂, hrun₂, hbusy₂, hdone₂, herr₂, hlen₂, hplain⟩ :=
    run_dec_container (s := t₁.loadOperand (readableOutput t₁)) ht₁.env (ht₁.keyLen.trans hkey)
      ((loadOperand_inLen_toNat hfits).trans_le hfits) ht₁.obufs_wf
      ((operand_loadOperand (ht₁.ibuf ▸ hibuf) hfits).trans hout)
  refine ⟨n₁, n₂, t₁, t₂, ?_, ht₁.idle, ht₁.done, ?_, hbusy₂, hdone₂, herr₂,
    BitVec.eq_of_toNat_eq (hlen₂.trans hlength), hplain⟩
  · rw [hostAccess_issue _ hb]
    exact hrun₁
  · rw [hostAccesses_mvoi ibufBytes_le ht₁.idle hfits,
      hostAccess_issue (s := t₁.loadOperand (readableOutput t₁)) .dec ht₁.idle]
    exact hrun₂

/-! ### What can be read of an unfinished or failed command (R33, R69, R188) -/

/-- With no output bytes the window reads zero (R80). -/
theorem windowBytes_obuf_of_outLen_zero {s : State} (h : s.outLen = 0#32) (i n : Nat) :
    windowBytes s .obuf i n = List.replicate n 0#8 := by
  simp [windowBytes, windowByte, h, List.map_const']

theorem leValue_replicate_zero (n : Nat) : leValue (List.replicate n 0#8) = 0 := by
  induction n with
  | zero => rfl
  | succ n ih => simp [List.replicate_succ, leValue, ih]

/-- Settles O37: of what stands at 0x200000 or above only the OBUF window can be read, with BUSY = 0, and OUT_LEN = 0
masks it after a failure. -/
theorem noPartialOutput : Obligations.NoPartialOutput := by
  intro s off n h hstate hoff
  have hmax := ibufBytes_le
  rcases hostRead_cases Config.cores s off.toNat n with herr | ⟨_, r, hr, _⟩ | ⟨hidle, hn, w, i, hw, hi, hread⟩
  · exact .inl herr
  · have hcsr := exists_csrOffset_iff.mp ⟨r, hr⟩
    omega
  · have hout : s.outLen = 0#32 := h.legal.failed_empty (hstate.resolve_left (by simp [hidle]))
    cases w with
    | obuf =>
      rw [windowBytes_obuf_of_outLen_zero hout, leValue_replicate_zero] at hread
      exact .inr hread
    | key | iv | ibuf =>
      simp only [windowBase, Window.size, cores_ibufBytes] at hw hi
      omega

/-! ### How far a changed block reaches (R13, R190) -/

/-- The blocks that CBC decryption recovers, cut before the block `y` and after its successor `x`. -/
theorem cbcDecryptBlocks_cut (dec : Block → Block) (iv y x : Block) (before after : List Block) :
    cbcDecryptBlocks dec iv (before ++ y :: x :: after) =
      cbcDecryptBlocks dec iv before ++ xor16 (dec y) (chainAfter iv before) :: xor16 (dec x) y ::
        cbcDecryptBlocks dec x after := by
  rw [cbcDecryptBlocks_append]
  rfl

/-- Settles O59: a ciphertext block enters its own recovered block through the cipher, the next through XOR, and no
other. -/
theorem tamperingIsLocal : Obligations.TamperingIsLocal := by
  intro c k iv d x before after
  refine ⟨?_, fun y => ?_⟩
  · rw [cbcDecryptBlocks, xor16_right_comm]
  · let garbled := xor16 (c.bcDec k (xor16 y d)) (chainAfter iv before)
    refine ⟨_, _, _, _, cbcDecryptBlocks_cut _ iv y x before after, ⟨garbled, ?_⟩, length_cbcDecryptBlocks _ _ _,
      length_cbcDecryptBlocks _ _ _⟩
    rw [cbcDecryptBlocks_cut, xor16_right_comm]

end Sys2Proof.Machine
end

section
/-! PROOFS. Family 45_text_wrappers.md: the TEXT step, and DECT from acceptance to its end. -/

namespace Sys2Proof.Machine

/-! ### The TEXT step (R202) -/

/-- The TEXT step of every command, for a text within the output store. -/
theorem exec_text_of_le (i : Instr) {s : State} (hp : s.phase = .text) (hle : s.plen.toNat ≤ Config.cores.obufBytes) :
    exec i s = .next (if utf8Valid (Memory.slice s.obufs 0 s.plen.toNat) then s.complete s.plen.toNat
      else s.fail .invalidEncoding) :=
  (exec_text i hp).trans (textStep_of_le hle)

/-- Settles O16: the two ends of the TEXT step are the two answers of the UTF-8 test. -/
theorem textTestsTheEncoding : Obligations.TextTestsTheEncoding := by
  intro s hp hle t
  have hexec := exec_text_of_le .dect hp hle
  exact ⟨fun hvalid => hexec.trans (by rw [if_pos hvalid]),
    fun hinvalid => hexec.trans (by rw [if_neg (Bool.eq_false_iff.mp hinvalid)])⟩

/-! ### From UNPAD to TEXT (R183, R201) -/

/-- The state in which the UTF-8 test finds the unpadded plaintext `m`. -/
def State.unpadded (m : List Byte) (s : State) : State :=
  { s.recovered with plen := BitVec.ofNat 21 m.length, phase := .text }

/-- NB counts the blocks of the recovered padded plaintext (R181). -/
theorem mul_recovered_nb {s : State} (hlen : s.inLen.toNat ≤ Config.ibufBytes) :
    16 * s.recovered.nb.toNat = (recoveredPadded Config.cores s).length :=
  (congrArg (16 * ·) (decStart_nb_toNat hlen)).trans (length_recoveredPadded s).symm

/-- What `Unpad` delivers is the front of its argument. -/
theorem take_length_of_unpad {x m : List Byte} (hx : unpad x = .ok m) : x.take m.length = m := by
  obtain ⟨p, _, rfl⟩ := unpad_eq_ok_iff.mp hx
  rw [List.length_take_of_le (Nat.sub_le _ _)]

theorem length_le_of_unpad {x m : List Byte} (hx : unpad x = .ok m) : m.length ≤ x.length := by
  rw [← take_length_of_unpad hx]
  exact List.length_take_le' _ _

/-- A padding test that fails ends every decryption alike. -/
theorem exec_dect_recovered_error {s : State} {k : ErrorKind} (hlen : s.inLen.toNat ≤ Config.ibufBytes)
    (hmin : 32 ≤ s.inLen.toNat) (hx : unpad (recoveredPadded Config.cores s) = .error k) :
    exec .dect s.recovered = .next (s.storeRecovered.fail k) := by
  have hpad : padOf s.recovered.lastp.toList = none :=
    (padOf_recovered_lastp hlen hmin).trans (unpad_eq_error_iff.mp hx).1
  calc exec .dect s.recovered
    _ = .next (s.recovered.fail .invalidPadding) := exec_unpad_fails .dect rfl hpad
    _ = exec .dec s.recovered := (exec_unpad_fails .dec rfl hpad).symm
    _ = _ := exec_dec_recovered_error hlen hmin hx

/-- After a padding that passes, DECT goes on to TEXT with the length of the unpadded plaintext in PLEN. -/
theorem exec_dect_recovered_ok {s : State} {m : List Byte} (hlen : s.inLen.toNat ≤ Config.ibufBytes)
    (hmin : 32 ≤ s.inLen.toNat) (hx : unpad (recoveredPadded Config.cores s) = .ok m) :
    exec .dect s.recovered = .next (s.unpadded m) := by
  obtain ⟨p, hpad, rfl⟩ := unpad_eq_ok_iff.mp hx
  rw [exec_unpad .dect rfl, unpadStep_of_some ((padOf_recovered_lastp hlen hmin).trans hpad), State.unpadded,
    List.length_take_of_le (Nat.sub_le _ _), ← mul_recovered_nb hlen]
  rfl

/-! ### The test on the unpadded plaintext (R202) -/

/-- PLEN holds the length of the unpadded plaintext exactly (R37). -/
theorem unpadded_plen_toNat {s : State} {m : List Byte} (hm : m.length ≤ Config.cores.obufBytes) :
    (s.unpadded m).plen.toNat = m.length := by
  have := ibufBytes_le
  rw [cores_obufBytes] at hm
  simp only [State.unpadded, BitVec.toNat_ofNat]
  omega

/-- The first PLEN bytes of the store are the unpadded plaintext. -/
theorem slice_unpadded {s : State} {m : List Byte} (hwf : Memory.wf s.obufs = true)
    (hlen : s.inLen.toNat ≤ Config.ibufBytes) (hx : unpad (recoveredPadded Config.cores s) = .ok m) :
    Memory.slice (s.unpadded m).obufs 0 m.length = m := by
  have hobufs : (s.unpadded m).obufs = Memory.writeBytes s.obufs 0 (recoveredPadded Config.cores s) :=
    recovered_obufs hlen
  rw [hobufs, ← Memory.slice_take _ _ _ _ (length_le_of_unpad hx), Memory.slice_writeBytes 0 _ hwf,
    take_length_of_unpad hx]

/-- The end of a command clears PLEN with the rest of what the loop has changed (R114, R115). -/
theorem finish_unpadded {s : State} (m : List Byte) (len : Word) (code : BitVec 3)
    (hlen : s.inLen.toNat ≤ Config.ibufBytes) :
    (s.unpadded m).finish len code = s.storeRecovered.finish len code :=
  finish_recovered len code hlen

/-- The TEXT step of DECT tests the unpadded plaintext, and the command ends with the recovered bytes in the store. -/
theorem exec_dect_unpadded {s : State} {m : List Byte} (hwf : Memory.wf s.obufs = true)
    (hlen : s.inLen.toNat ≤ Config.ibufBytes) (hx : unpad (recoveredPadded Config.cores s) = .ok m) :
    exec .dect (s.unpadded m) = .next (if utf8Valid m then s.storeRecovered.complete m.length
      else s.storeRecovered.fail .invalidEncoding) := by
  have hfits : m.length ≤ Config.cores.obufBytes :=
    (length_le_of_unpad hx).trans ((mul_recovered_nb hlen).symm.trans_le (recovered_fits hlen))
  have hplen := unpadded_plen_toNat (s := s) hfits
  rw [exec_text_of_le .dect rfl (hplen.trans_le hfits), hplen, slice_unpadded hwf hlen hx]
  simp only [State.complete, State.fail, finish_unpadded m _ _ hlen]

/-! ### DECT from acceptance to its end (R201, R202) -/

/-- A machine at rest with nothing scheduled stays as it is. -/
theorem step_of_not_busy {s : State} (he : s.env = []) (hb : s.busy = false) : step s = .next s :=
  (step_alone he (awaitsEntropy_of_not_busy hb)).trans (sequencerStep_idle hb)

/-- Settles O26: CHECK and the loop of DEC, then UNPAD; a command that passes it goes on to the UTF-8 test, one that fails it
stays at its end for the last step. -/
theorem decryptTextRunsToItsEnd : Obligations.DecryptTextRunsToItsEnd := by
  intro s he hlen hkey hmin hmod hwf a
  have hdecode := decode_encode .dect
  have hunpad : step (s.accept (encode .dect)).recovered = exec .dect (s.accept (encode .dect)).recovered :=
    step_exec he rfl hdecode (by simp [State.recovered])
  have hrun : run (3 + (s.inLen.toNat - 16) / 16) (s.accept (encode .dect)) =
      run 2 (s.accept (encode .dect)).recovered := by
    rw [← run_add (run_accept_decrypt (.inr rfl) he hlen hkey hmin hmod)]
    congr 1
    omega
  rw [hrun]
  cases hx : unpad (recoveredPadded Config.cores s) with
  | error k =>
    have hfail := hunpad.trans (exec_dect_recovered_error (s := s.accept _) hlen hmin hx)
    exact (run_succ hfail).trans (run_succ (step_of_not_busy he rfl))
  | ok m =>
    have hpass := hunpad.trans (exec_dect_recovered_ok (s := s.accept _) hlen hmin hx)
    have htext : step ((s.accept (encode .dect)).unpadded m) = exec .dect ((s.accept (encode .dect)).unpadded m) :=
      step_exec he rfl hdecode (by simp [State.unpadded])
    exact (run_succ hpass).trans (run_succ (htext.trans (exec_dect_unpadded (s := s.accept _) hwf hlen hx)))

end Sys2Proof.Machine
end

section
/-! PROOFS. Family 46_system.md: the WIPE step of ZERO. -/

namespace Sys2Proof.Machine

/-! ### The WIPE step (R210) -/

/-- Settles O17: PHASE selects WIPE, and `Complete(0)` writes the command's end over the cleared state and nothing else. -/
theorem zeroWipesTheSecrets : Obligations.ZeroWipesTheSecrets := by
  intro s hp
  have hwipe : exec .zero s = .next (s.wipe.complete 0) := exec_wipe .zero hp
  have hends := (commandEndsWriteWhatTheySay s.wipe 0 .illegalCommand).1
  exact hwipe.trans (congrArg Host.Outcome.next hends)

end Sys2Proof.Machine
end

section
/-! PROOFS. Families 60_exceptions.md and 70_reset_and_hazards.md: a failing step's frame, the host's acknowledgement, the
interrupt line, and reset with the answer that comes too late. -/

namespace Sys2Proof.Machine

/-! ### A failing step (R115, R230) -/

/-- A step that leads to an error code is `Fail`: of the other rows of R120, those that end the command write ERR = 0 and those
that go on keep the ERR = 0 of a running command. -/
theorem exec_eq_fail {i : Instr} {s t : State} (h : exec i s = .next t) (hs : s.err = 0#3) (ht : t.err ≠ 0#3) :
    ∃ k, t = s.fail k := by
  cases exec_cases h
  case checkFails k => exact ⟨k, rfl⟩
  case unpadFails => exact ⟨.invalidPadding, rfl⟩
  case textFails => exact ⟨.invalidEncoding, rfl⟩
  case endsWithDraw | derives | storesLastCipher | delivers | deliversText | wipes => exact absurd rfl ht
  case rests | waits | goesToKdf | goesToWipe | goesToIvgen | startsEncrypt | startsDecrypt | encryptsWithDraw |
      storesCipher | storesPlain | storesLastPlain | goesToText =>
    exact absurd hs ht

theorem sequencerStep_eq_fail {s t : State} (h : s.Inv Config.cores) (hb : s.busy = true)
    (hx : sequencerStep s = .next t) (ht : t.err ≠ 0#3) : ∃ k, t = s.fail k := by
  rcases sequencerStep_cases hb (pastCheck_or_check_of_inv h) hx with ⟨i, _, hexec⟩ | ⟨_, _, rfl⟩
  · obtain ⟨_, herr, _⟩ := h.legal.busy_quiet hb
    exact exec_eq_fail hexec herr ht
  · exact ⟨.illegalCommand, rfl⟩

/-- Settles O36: such a step is `Fail`, and `Fail` writes nothing else. -/
theorem failuresArePrecise : Obligations.FailuresArePrecise := by
  intro s t h hb hx ht
  obtain ⟨k, rfl⟩ := sequencerStep_eq_fail h hb hx ht
  rfl

/-! ### The acknowledgement (R231) -/

theorem hostAccesses_ack (c : Cores) (s : State) :
    hostAccesses c (stmtAccesses .ack) s = { s.ackDone with busResp := some .writeOkay } :=
  assignCsr_some (c := c) (s := s) (r := .status) (v := 2#32) rfl

/-- Settles O47: ACK through the bus, and the three fields that the acceptance clears. -/
theorem acknowledgeAndReturn : Obligations.AcknowledgeAndReturn :=
  fun s w => ⟨hostAccesses_ack Config.cores s, accept_done w s, accept_err w s, accept_outLen w s⟩

/-! ### The interrupt line (R43, R234) -/

theorem irq_iff (s : State) : irq s = true ↔ s.done = true ∧ s.ie = true := by
  simp [irq]

theorem irq_of_done {s : State} (h : s.done = true) : irq s = s.ie := by
  simp [irq, h]

theorem irq_of_not_done {s : State} (h : s.done = false) : irq s = false := by
  simp [irq, h]

theorem irq_of_masked {s : State} (h : s.ie = false) : irq s = false := by
  simp [irq, h]

theorem irq_of_enabled {s : State} (h : s.ie = true) : irq s = s.done := by
  simp [irq, h]

/-- `WR CTRL, v` sets the interrupt enable from bit 0 and changes nothing else of CBCC (R23). -/
theorem hostAccess_ctrl (c : Cores) (s : State) (v : Word) :
    hostAccess c (assignCsr .ctrl v) s = { s with ie := v.getLsbD 0, busResp := some .writeOkay } :=
  assignCsr_some (writeCsr_ctrl s v)

/-- Settles O48: at each of these points either DONE or IE is known, and the line follows the other. -/
theorem interruptFollowsDone : Obligations.InterruptFollowsDone := by
  intro s n k w
  refine ⟨irq_iff s, irq_of_not_done rfl, irq_of_done (complete_done n s), irq_of_done (fail_done k s),
    irq_of_not_done (accept_done w s), ?_, ?_⟩
  · rw [hostAccesses_ack]
    exact irq_of_not_done rfl
  · intro masked
    have hmasked : masked = { s with ie := false, busResp := some .writeOkay } := hostAccess_ctrl Config.cores s 0#32
    rw [hmasked, hostAccess_ctrl]
    exact ⟨irq_of_masked rfl, rfl, irq_of_enabled rfl⟩

/-! ### The numbers of ENT's requests (R118, R262) -/

theorem nextReq_of_awaited {s : State} (h : s.awaitsEntropy = true) : s.nextReq = s.entReq + 1 := if_pos h

theorem nextReq_of_not_awaited {s : State} (h : ¬ s.awaitsEntropy = true) : s.nextReq = s.entReq := if_neg h

theorem hostWrite_keeps_entReq {c : Cores} {s t : State} {off n : Nat} {v : Word} (h : hostWrite c s off n v = some t) :
    t.entReq = s.entReq := by
  rcases hostWrite_eq_some h with ⟨_, r, _, hw⟩ | ⟨_, w, i, _, _, hw⟩
  · rcases writeCsr_eq_some hw with ⟨_, rfl⟩ | ⟨_, rfl⟩ | ⟨_, ⟨_, rfl⟩ | ⟨_, rfl⟩ | ⟨_, rfl⟩⟩ <;> rfl
  · obtain ⟨_, ⟨_, rfl⟩ | ⟨_, rfl⟩ | ⟨_, rfl⟩⟩ := writeWindow_eq_some hw <;> rfl

theorem hostAccess_keeps_entReq (c : Cores) (a : HostAccess) (s : State) : (hostAccess c a s).entReq = s.entReq := by
  rcases hostAccess_cases c a s with ⟨r, hr⟩ | ⟨off, n, v, t, _, hw, ht⟩
  · rw [hr]
  · rw [ht]
    exact hostWrite_keeps_entReq (t := t) hw

theorem entReq_le_entropyAnswer (req : Nat) (r : Block) (s : State) : s.entReq ≤ (s.entropyAnswer req r).entReq := by
  rcases entropyAnswer_cases req r s with hs | ⟨_, _, hs⟩ <;> rw [hs]
  exact Nat.le_succ s.entReq

theorem sequencerStep_keeps_entReq {s t : State} (h : s.Inv Config.cores) (hx : sequencerStep s = .next t) :
    t.entReq = s.entReq :=
  (sequencerStep_keeps_outside (pastCheck_or_check_of_inv h) hx).2

theorem entReq_le_of_handleEvent {s t : State} {e : Event} (h : s.Inv Config.cores) (hx : handleEvent e s = .next t) :
    s.entReq ≤ t.entReq := by
  cases e with
  | access a =>
    cases hx
    exact (hostAccess_keeps_entReq Config.cores a s).ge
  | sequencer => exact (sequencerStep_keeps_entReq h hx).ge
  | entropy req r =>
    cases hx
    exact entReq_le_entropyAnswer req r s
  | reset =>
    cases hx
    exact entReq_le_nextReq s

theorem entReq_le_of_runAlone {s t : State} (h : s.Inv Config.cores) (hx : runAlone s = .next t) :
    s.entReq ≤ t.entReq := by
  unfold runAlone at hx
  split at hx
  · cases hx
    exact entReq_le_entropyAnswer _ _ s
  · exact (sequencerStep_keeps_entReq h hx).ge

theorem entReq_le_of_step {s t : State} (h : s.Inv Config.cores) (hx : step s = .next t) : s.entReq ≤ t.entReq := by
  cases henv : s.env with
  | nil => exact entReq_le_of_runAlone h (step_nil henv ▸ hx)
  | cons e rest =>
    rw [step_cons henv] at hx
    exact entReq_le_of_handleEvent (s := { s with env := rest }) (inv_congr h rfl) hx

theorem entReq_le_of_run {n : Nat} {s t : State} (h : s.Inv Config.cores) (hx : run n s = .next t) :
    s.entReq ≤ t.entReq := by
  induction n generalizing s with
  | zero =>
    cases hx
    exact Nat.le_refl _
  | succ n ih =>
    obtain ⟨s', hs, hrun⟩ := run_succ_cases hx
    exact (entReq_le_of_step h hs).trans (ih (everyStepKeepsTheInvariant s s' h hs) hrun)

/-! ### Reset (R260, R262) -/

theorem handleEvent_entropy_ignored {req : Nat} {s : State} (h : s.awaitsEntropy = true → req ≠ s.entReq) (r : Block) :
    handleEvent (.entropy req r) s = .next s :=
  congrArg Host.Outcome.next (entropyAnswer_ignored h r)

/-- The number of a request that is over never comes back, so its answer is ignored along every run. -/
theorem past_answer_ignored {req n : Nat} {s t : State} (h : s.Inv Config.cores) (hreq : req < s.entReq)
    (hx : run n s = .next t) (r : Block) : handleEvent (.entropy req r) t = .next t :=
  handleEvent_entropy_ignored (fun _ => (hreq.trans_le (entReq_le_of_run h hx)).ne) r

/-- Settles O51: after reset no request is outstanding, and the numbers go on from the one after a dropped request. -/
theorem resetAbandonsTheCommand : Obligations.ResetAbandonsTheCommand := by
  intro s rest he outstanding
  have hnext (ho : outstanding) : ({ s with env := rest } : State).applyReset.entReq = s.entReq + 1 :=
    nextReq_of_awaited (s := { s with env := rest }) (awaitsEntropy_iff.mpr ho)
  refine ⟨({ s with env := rest } : State).applyReset, step_cons he, rfl, hnext, fun hno => ?_, fun req r => ?_,
    fun ho n u r hx => ?_⟩
  · exact nextReq_of_not_awaited (s := { s with env := rest }) fun hw => hno (awaitsEntropy_iff.mp hw)
  · refine handleEvent_entropy_ignored (fun hw => ?_) r
    simp [State.applyReset, State.reset, State.awaitsEntropy] at hw
  · exact past_answer_ignored (applyReset_inv _) (hnext ho ▸ Nat.lt_succ_self s.entReq) hx r

end Sys2Proof.Machine
end
